-- ==== Sys2Proof/Word.lean ====
section
/-! DEFINITION. The word types of the block: every quantity is unsigned and at most eight bits wide (00_scope.md R11,
R8 `CELL_W`, `BUS_W`). -/

namespace Sys2Proof

/-- One cell, one bus payload, one byte of the host stream (00_scope.md R8 `CELL_W`). -/
abbrev Byte := BitVec 8

/-- What one bus transfer carries: four data lines (00_scope.md R8 `BUS_W`). -/
abbrev Nibble := BitVec 4

end Sys2Proof
end

