-- ==== Sys2Proof/Syntax.lean ====
section
/-! DEFINITION. The instructions: one constructor for each row of spec/opcode_table.json, and the names they are made of. -/

namespace Sys2Proof

/-- The two controller chips, told apart by their enable lines only (00_scope.md R13). -/
inductive Chip where
  | a
  | b
  deriving DecidableEq, Repr, Inhabited

/-- The register-select modes (00_scope.md R13; 40_bus_driver.md R131). -/
inductive RsMode where
  | command
  | data
  deriving DecidableEq, Repr

/-- The time parameters of 00_scope.md R9. The model never reads their values: they label `WAIT` events (R15). -/
inductive TimeParam where
  | tAs
  | tPw
  | tH
  | tCmd
  | tClear
  | tPoweron
  | tInit1
  | tInit2
  deriving DecidableEq, Repr

/-- One constructor per row of spec/opcode_table.json, in the table's order: the six host rows (30_encoding.md R92,
R95), the seven LCD byte rows (R99, R103) and the two cold-start nibble rows (R102). An LCD row carries the chip whose
enable line is pulsed, which is how the bus expresses it (R100). -/
inductive Instr where
  | init
  | clear
  | setcursor (line col : Byte)
  | writechar (ch : Byte)
  | writemessage (line col : Byte) (text : List Byte)
  | reserved (op : Byte)
  | lcdClear (c : Chip)
  | lcdDisplayOnNocursor (c : Chip)
  | lcdDisplayOnCursor (c : Chip)
  | lcdSetPosition (c : Chip) (addr : BitVec 7)
  | lcdFunctionSet (c : Chip)
  | lcdEntryMode (c : Chip)
  | lcdData (c : Chip) (d : Byte)
  | lcdColdstart8bit (c : Chip)
  | lcdColdstart4bit (c : Chip)
  deriving DecidableEq, Repr

end Sys2Proof
end

