-- ==== Sys2Proof/Config.lean ====
section
/-! DEFINITION. What the implementation fixes (00_scope.md R9) and the free values: constants without a body, of which
nothing can be proved. -/

namespace Sys2Proof

/-- The open parameters that decide a bus byte (00_scope.md R9; 92_eei_decisions.md D7, D10): the two row bases of a
chip and which display-on command INIT sends. -/
structure Config where
  rowBase0 : BitVec 7
  rowBase1 : BitVec 7
  cursorOn : Bool
  deriving DecidableEq, Repr

namespace Config

/-- R9's constraint on ROW_BASE: `ROW_BASE[r] + 39 <= 0x7F`, and the two ranges of forty addresses do not overlap.
(DISPLAY_ON_CMD is one of its two values by its type.) -/
def wf (cfg : Config) : Bool :=
  cfg.rowBase0.toNat + 39 ≤ 0x7F && cfg.rowBase1.toNat + 39 ≤ 0x7F &&
    (cfg.rowBase0.toNat + 39 < cfg.rowBase1.toNat || cfg.rowBase1.toNat + 39 < cfg.rowBase0.toNat)

/-- The defaults of R9: ROW_BASE = (0x00, 0x40), DISPLAY_ON_CMD = 0x0C. DESIGN CHOICE (log 7): `exec` and `step` run with
them; `execWith` and `stepWith` take the configuration as an argument. -/
def default : Config := { rowBase0 := 0x00, rowBase1 := 0x40, cursorOn := false }

/-- BLANK (00_scope.md R9, D12). -/
def blank : Byte := 0x20

/-- Free value: the byte a cell of the shadow buffer holds that nothing has written since a hardware reset (10_state.md R37
"any 160 bytes; a model must not assume a value"; 93_implementation_defined.md U14; log 5). The arguments are the reset, then
the cell. -/
opaque freeCell : Nat → Nat → Byte

/-- Free value: what a chip in 8-bit mode reads on its four unconnected data inputs (20_memory.md R73; log 10). -/
opaque freeNibble : Nat → Nibble

/-- Free value: the address of a chip after a command R73 gives no effect (log 11). -/
opaque freeAddr : Nat → BitVec 7

/-- Free values: the one-bit and small registers of a chip after a reset cut a command (93 U4; log 3). The argument
is the use, then the number of the register. -/
opaque freeBit : Nat → Nat → Bool

end Config

/-- The time parameters and the clock of R9, which no rule of the functional model reads (R9, R237; log 15): whole
nanoseconds and hertz (DESIGN CHOICE, log 23). -/
structure Timing where
  tAs : Nat
  tPw : Nat
  tH : Nat
  tCmd : Nat
  tClear : Nat
  tPoweron : Nat
  tInit1 : Nat
  tInit2 : Nat
  fClk : Nat
  deriving DecidableEq, Repr

namespace Timing

/-- R9's constraints: T_PW, T_CMD, T_INIT1, T_INIT2 and F_CLK above 0 (the other four times `>= 0`, by their type). -/
def wf (x : Timing) : Bool :=
  decide (0 < x.tPw) && decide (0 < x.tCmd) && decide (0 < x.tInit1) && decide (0 < x.tInit2) && decide (0 < x.fClk)

/-- R9's default times. F_CLK has no default, so it stays an argument. -/
def default (fClk : Nat) : Timing :=
  { tAs := 60, tPw := 450, tH := 550, tCmd := 50000, tClear := 2000000, tPoweron := 40000000
    tInit1 := 5000000, tInit2 := 150000, fClk := fClk }

/-- The time a `WAIT` label names. -/
def time (x : Timing) : TimeParam → Nat
  | .tAs => x.tAs
  | .tPw => x.tPw
  | .tH => x.tH
  | .tCmd => x.tCmd
  | .tClear => x.tClear
  | .tPoweron => x.tPoweron
  | .tInit1 => x.tInit1
  | .tInit2 => x.tInit2

/-- The least number of cycles of `clk` that `WAIT(P)` holds the sequencer: `ceil(P * F_CLK)` (R9, 60_exceptions.md R212). -/
def waitCycles (x : Timing) (p : TimeParam) : Nat := (x.time p * x.fClk + 999999999) / 1000000000

end Timing

end Sys2Proof
end

