-- ==== Sys2Proof/WellFormed.lean ====
section
/-! DEFINITION. Which instructions a word of the table can stand for. -/

namespace Sys2Proof

/-- The five opcodes of 30_encoding.md R92; every other byte in opcode position is reserved (R95). -/
def isHostOpcode (op : Byte) : Bool :=
  op == 0x10 || op == 0x11 || op == 0x12 || op == 0x13 || op == 0x14

/-- Operands are whole bytes taken as they are (30_encoding.md R91, R93), so two checks are left: a text has at most
255 bytes (`len` is a byte), and a reserved opcode is none of the five. -/
def Instr.wf : Instr → Bool
  | .init => true
  | .clear => true
  | .setcursor _ _ => true
  | .writechar _ => true
  | .writemessage _ _ text => text.length ≤ 255
  | .reserved op => !isHostOpcode op
  | .lcdClear _ => true
  | .lcdDisplayOnNocursor _ => true
  | .lcdDisplayOnCursor _ => true
  | .lcdSetPosition _ _ => true
  | .lcdFunctionSet _ => true
  | .lcdEntryMode _ => true
  | .lcdData _ _ => true
  | .lcdColdstart8bit _ => true
  | .lcdColdstart4bit _ => true

end Sys2Proof
end

