-- ==== Sys2Proof/Decode.lean ====
section
/-! DEFINITION. The two encodings of 30_encoding.md: the host byte stream (R90 to R97) and the LCD bus (R98 to R103).
Decoders first, total and rejecting by name; then the encoder, written from the same tables. -/

namespace Sys2Proof

/-- Why a decoder gives no instruction. -/
inductive Reject where
  /-- There is no byte (R96, `decode([])`). -/
  | empty
  /-- The command needs more bytes than there are (R96, R97). -/
  | incomplete
  /-- Bytes are left after one whole command, where one was expected. -/
  | trailing
  /-- A command byte the block never sends (93_implementation_defined.md U17). -/
  | notSentByte (b : Byte)
  /-- A lone nibble that is not of the cold-start sequence (R102). -/
  | notColdstart (n : Nibble)
  deriving DecidableEq, Repr

/-- The first command of a host byte stream and the bytes after it (R91, R92, R94 to R96). The range of `line` and
`col` is no part of decoding (R96). -/
def decodeHost : List Byte → Except Reject (Instr × List Byte)
  | [] => .error .empty
  | op :: r =>
    if op = 0x10 then .ok (.init, r)
    else if op = 0x11 then .ok (.clear, r)
    else if op = 0x12 then
      match r with
      | l :: k :: r' => .ok (.setcursor l k, r')
      | _ => .error .incomplete
    else if op = 0x13 then
      match r with
      | ch :: r' => .ok (.writechar ch, r')
      | _ => .error .incomplete
    else if op = 0x14 then
      match r with
      | l :: k :: n :: r' =>
        if n.toNat ≤ r'.length then .ok (.writemessage l k (r'.take n.toNat), r'.drop n.toNat)
        else .error .incomplete
      | _ => .error .incomplete
    else .ok (.reserved op, r)

/-- What a byte stream is: commands, then perhaps the rest that is no whole command (R96). -/
structure Stream where
  commands : List Instr
  rest : List Byte
  deriving DecidableEq, Repr

/-- `decodeStream` with a bound on the number of commands. -/
def decodeStreamFuel : Nat → List Byte → Stream
  | 0, bytes => ⟨[], bytes⟩
  | fuel + 1, bytes =>
    match decodeHost bytes with
    | .ok (i, r) => let st := decodeStreamFuel fuel r; ⟨i :: st.commands, st.rest⟩
    | .error _ => ⟨[], bytes⟩

/-- R96's `decode`: every command takes at least one byte, so the length bounds their number. The INCOMPLETE of the
rule is a `rest` that is not empty. -/
def decodeStream (bytes : List Byte) : Stream := decodeStreamFuel bytes.length bytes

/-- The LCD byte rows (R99, R103): the byte, the register-select mode and the chip whose line is pulsed. -/
def decodeBus8 (c : Chip) (m : RsMode) (b : Byte) : Except Reject Instr :=
  match m with
  | .data => .ok (.lcdData c b)
  | .command =>
    if b = 0x01 then .ok (.lcdClear c)
    else if b = 0x0C then .ok (.lcdDisplayOnNocursor c)
    else if b = 0x0E then .ok (.lcdDisplayOnCursor c)
    else if b.getLsbD 7 then .ok (.lcdSetPosition c (b.setWidth 7))
    else if b = 0x28 then .ok (.lcdFunctionSet c)
    else if b = 0x06 then .ok (.lcdEntryMode c)
    else .error (.notSentByte b)

/-- The LCD nibble rows (R102); register-select is COMMAND. -/
def decodeBus4 (c : Chip) (n : Nibble) : Except Reject Instr :=
  if n = 0x3 then .ok (.lcdColdstart8bit c)
  else if n = 0x2 then .ok (.lcdColdstart4bit c)
  else .error (.notColdstart n)

/-- A word of the table: host bytes (formats H0, H1, H2, HM), or what the bus shows one chip (formats LCD8, LCD4). -/
inductive Code where
  | host (bytes : List Byte)
  | bus8 (c : Chip) (m : RsMode) (b : Byte)
  | bus4 (c : Chip) (n : Nibble)
  deriving DecidableEq, Repr

/-- The instruction of one code; a host code is exactly one command. -/
def decode : Code → Except Reject Instr
  | .host bytes =>
    match decodeHost bytes with
    | .ok (i, []) => .ok i
    | .ok (_, _ :: _) => .error .trailing
    | .error e => .error e
  | .bus8 c m b => decodeBus8 c m b
  | .bus4 c n => decodeBus4 c n

/-- The position command byte of an address: bit 7 set, the address in bits 6..0 (R100). -/
def setPositionByte (addr : BitVec 7) : Byte := 0x80#8 ||| addr.setWidth 8

/-- The code of an instruction, from the tables of R91, R92, R99, R102 and R103. -/
def encode : Instr → Code
  | .init => .host [0x10]
  | .clear => .host [0x11]
  | .setcursor l k => .host [0x12, l, k]
  | .writechar ch => .host [0x13, ch]
  | .writemessage l k text => .host (0x14 :: l :: k :: BitVec.ofNat 8 text.length :: text)
  | .reserved op => .host [op]
  | .lcdClear c => .bus8 c .command 0x01
  | .lcdDisplayOnNocursor c => .bus8 c .command 0x0C
  | .lcdDisplayOnCursor c => .bus8 c .command 0x0E
  | .lcdSetPosition c addr => .bus8 c .command (setPositionByte addr)
  | .lcdFunctionSet c => .bus8 c .command 0x28
  | .lcdEntryMode c => .bus8 c .command 0x06
  | .lcdData c d => .bus8 c .data d
  | .lcdColdstart8bit c => .bus4 c 0x3
  | .lcdColdstart4bit c => .bus4 c 0x2

/-- The bytes of a word whose bits are numbered from the first byte's bit 0, least significant byte first. -/
def wordBytes : Nat → Nat → List Byte
  | 0, _ => []
  | n + 1, w => BitVec.ofNat 8 w :: wordBytes n (w / 256)

/-- The longest host command: 4 + 255 bytes (R94). -/
def maxCommandBytes : Nat := 259

/-- A table word as bytes of the host stream, followed by zero bytes up to the longest command. -/
def tableStream (nbits w : Nat) : List Byte :=
  wordBytes ((nbits + 7) / 8) (w % 2 ^ nbits) ++ List.replicate maxCommandBytes 0

/-- The bytes of the command at the head of a table word. -/
def tableBytes (nbits w : Nat) : List Byte :=
  match decodeHost (tableStream nbits w) with
  | .ok (_, r) => (tableStream nbits w).take ((tableStream nbits w).length - r.length)
  | .error _ => []

/-- Which code a byte stands for that no host row but RESERVED claims: the cold-start or LCD command row with exactly
that word, taken for chip A (the table writes no chip), else a reserved host byte. -/
def tableByteCode (b : Byte) : Code :=
  if b = 0x03 then .bus4 .a 0x3
  else if b = 0x02 then .bus4 .a 0x2
  else
    match decodeBus8 .a .command b with
    | .ok _ => .bus8 .a .command b
    | .error _ => .host [b]

/-- The code of a table word. The table numbers two encodings alike: a word may be a host byte or a byte or nibble on the
LCD bus. A host row with an opcode comes first, then an LCD row with a fixed pattern, and RESERVED, "catch-all for the
host stream", last (log 8). The port itself never mixes them: a host byte is decoded by `decodeHost` (R95). -/
def tableCode (nbits w : Nat) : Code :=
  match tableBytes nbits w with
  | [b] => if isHostOpcode b then .host [b] else tableByteCode b
  | bytes => .host bytes

/-- What `decode` reads from a table word. -/
def decodeTableWord (nbits w : Nat) : Option Instr :=
  match decode (tableCode nbits w) with
  | .ok i => some i
  | .error _ => none

end Sys2Proof
end

