-- ==== Sys2Proof/Machine/State.lean ====
section
/-! DEFINITION. The state of the machine (10_state.md R20), of the two attached chips (20_memory.md R73), of the
host's side of the port, and the observation of the pins (00_scope.md R15). -/

namespace Sys2Proof.Machine

/-- What stops the machine. The spec's three faults stop nothing (60_exceptions.md R209): they are next states. The
one stop below is the model's, in states no run from reset reaches. -/
inductive Fault where
  /-- Raised by WRITECHAR when `col` holds 40..63, for which there is no cell (R22, R60; log 14). Safe. -/
  | cursorOutOfRange
  deriving DecidableEq, Repr

/-- What the model gives no meaning. -/
inductive Refusal where
  /-- Raised by `exec` for an instruction without a meaning; no arm does. Safe. -/
  | notModelled (mnemonic : String)
  deriving DecidableEq, Repr

/-- Cells by address: addresses strictly rising, and no entry for an address that reads as an unlisted one does
(`Memory.wf`). -/
abbrev Memory := List Host.Cell

/-- The two states of the Display Controller (10_state.md R25). -/
inductive Mode where
  | uninitialized
  | ready
  deriving DecidableEq, Repr

/-- The seven output latches (10_state.md R28); a level is true when high. -/
structure Pins where
  rs : Bool
  enA : Bool
  enB : Bool
  d : Nibble
  deriving DecidableEq, Repr

/-- The event alphabet of the output trace (00_scope.md R15). -/
inductive Event where
  | rs (b : Bool)
  | d (n : Nibble)
  | en (c : Chip) (b : Bool)
  | wait (p : TimeParam)
  deriving DecidableEq, Repr

/-- What the sequencer does one at a time while a command executes (10_state.md R30): drive a pin or wait, run one
LCD row of the opcode table, or write one piece of the Facade's state. -/
inductive SeqOp where
  /-- `emit e` -/
  | event (e : Event)
  /-- one transfer or lone nibble on the bus: an LCD row -/
  | bus (i : Instr)
  /-- `buf[i] <- v` -/
  | store (i : BitVec 8) (v : Byte)
  /-- `col <- k` -/
  | column (k : BitVec 6)
  /-- `line <- l; col <- k; chip <- chipOf(line)` -/
  | cursor (l : BitVec 2) (k : BitVec 6)
  /-- `state <- Ready` -/
  | ready
  deriving DecidableEq, Repr

/-- What the host presents to the block, in order (10_state.md R33; log 2, log 3). -/
inductive Input where
  /-- a byte on `cmd_data` with `cmd_valid` = 1, held until it is accepted -/
  | byte (b : Byte)
  /-- `rst` = 1: at once when the block is idle, else after that many operations of the command in progress -/
  | rst (after : Nat)
  deriving DecidableEq, Repr

/-- The registers of one chip (20_memory.md R73). -/
structure LcdRegs where
  mode8 : Bool
  phase : Bool
  latch : Nibble
  ac : BitVec 7
  incr : Bool
  shiftOnWrite : Bool
  displayOn : Bool
  cursorShown : Bool
  blink : Bool
  twoLine : Bool
  font5x10 : Bool
  deriving DecidableEq, Repr

/-- One attached chip: registers and display RAM (20_memory.md R73). -/
structure LcdChip where
  regs : LcdRegs
  ddram : Memory
  deriving DecidableEq, Repr

/-- The machine's state; INVENTORY.md lists each field with its rule. -/
structure State where
  line : BitVec 2
  col : BitVec 6
  chip : Chip
  state : Mode
  errOpcode : Bool
  errNotReady : Bool
  errRange : Bool
  pins : Pins
  buf : Memory
  /-- the operations left of the command in progress, first one next; empty when idle (R30) -/
  seq : List SeqOp
  /-- the bytes of the command being assembled, first one first (R31) -/
  asm : List Byte
  inputs : List Input
  lcdA : LcdChip
  lcdB : LcdChip
  /-- the events emitted so far, NEWEST FIRST (R15; an observation, R34; log 4) -/
  trace : List Event
  /-- the model's own: which free values the cells of `buf` hold that nothing has written since the last hardware reset
  (log 5) -/
  bufSeed : Nat
  /-- the model's own: which use of a free value comes next (log 17) -/
  freeCtr : Nat
  deriving DecidableEq, Repr

/-- A chip at power-on. The spec gives no value (10_state.md R38, U15): PRESUMED, the family's internal reset (log 6).
No display cell has a value. -/
def LcdChip.powerOn : LcdChip :=
  { regs := { mode8 := true, phase := false, latch := 0, ac := 0, incr := true, shiftOnWrite := false,
              displayOn := false, cursorShown := false, blink := false, twoLine := false, font5x10 := false }
    ddram := [] }

/-- Right after hardware reset at power-on (10_state.md R37). No cell of `buf` is listed: each holds a free value
(`State.cell`; log 5), the first use of the counter (log 17). -/
def State.reset : State :=
  { line := 0, col := 0, chip := .a, state := .uninitialized
    errOpcode := false, errNotReady := false, errRange := false
    pins := { rs := false, enA := false, enB := false, d := 0 }
    buf := [], seq := [], asm := [], inputs := []
    lcdA := LcdChip.powerOn, lcdB := LcdChip.powerOn
    trace := [], bufSeed := 0, freeCtr := 1 }

end Sys2Proof.Machine
end

