-- ==== Sys2Proof/Machine/Flags.lean ====
section
/-! DEFINITION. The three sticky fault flags (10_state.md R26, 60_exceptions.md R201) and the status outputs (R32). -/

namespace Sys2Proof.Machine

/-- The three faults (60_exceptions.md R201). -/
inductive FaultCode where
  | errOpcode
  | errNotReady
  | errRange
  deriving DecidableEq, Repr

/-- The code of R201; no register holds it. -/
def FaultCode.number : FaultCode → Nat
  | .errOpcode => 1
  | .errNotReady => 2
  | .errRange => 3

/-- The flag of a fault. -/
def State.flag (s : State) : FaultCode → Bool
  | .errOpcode => s.errOpcode
  | .errNotReady => s.errNotReady
  | .errRange => s.errRange

/-- Write 1 to the flag of a fault (60_exceptions.md R204 (a)). -/
def State.setFlag (s : State) : FaultCode → State
  | .errOpcode => { s with errOpcode := true }
  | .errNotReady => { s with errNotReady := true }
  | .errRange => { s with errRange := true }

/-- `st_busy`: a command is executing (R30, R32). -/
def State.busy (s : State) : Bool := !s.seq.isEmpty

/-- `st_ready` (R32). -/
def State.stReady (s : State) : Bool := decide (s.state = .ready)

/-- `rst` = 1 at this moment: the next input is a reset that strikes now (70_reset_and_hazards.md R231). -/
def State.rstNow (s : State) : Bool :=
  match s.inputs with
  | .rst n :: _ => s.seq.isEmpty || n == 0
  | _ => false

/-- `cmd_ready`: exactly when the sequencer is idle (30_encoding.md R106) and `rst` is 0 (R231). -/
def State.cmdReady (s : State) : Bool := !s.busy && !s.rstNow

/-- `STATUS[4:0] = {err_range, err_not_ready, err_opcode, busy, ready}` (R32). -/
def State.status (s : State) : BitVec 5 :=
  BitVec.ofBool s.errRange ++ BitVec.ofBool s.errNotReady ++ BitVec.ofBool s.errOpcode ++
    BitVec.ofBool s.busy ++ BitVec.ofBool s.stReady

end Sys2Proof.Machine
end

