-- ==== Sys2Proof/Machine/Memory.lean ====
section
/-! DEFINITION. Reading and writing one cell of the shadow buffer or of a chip's display RAM (20_memory.md R50, R65). -/

namespace Sys2Proof.Machine

/-- What an unlisted address reads as: nothing listed. The spec promises no value for a cell nothing has written (10_state.md
R37 "any 160 bytes", U14, U15); the byte such a cell of the shadow buffer holds is a free value (`State.cell`; log 5). -/
def Memory.unlisted (_a : Nat) : Option Byte := none

/-- `MemRead(a, 1)` (00_scope.md R12). -/
def Memory.read : Memory → Nat → Option Byte
  | [], a => Memory.unlisted a
  | (b, v) :: m, a => if a = b then some v else Memory.read m a

/-- `MemWrite(a, 1, v)` (00_scope.md R12), in the place the address has in the order. -/
def Memory.write : Memory → Nat → Byte → Memory
  | [], a, v => [(a, v)]
  | (b, w) :: m, a, v =>
    if a < b then (a, v) :: (b, w) :: m
    else if a = b then (a, v) :: m
    else (b, w) :: Memory.write m a v

/-- Every address of `m` is above `a`, and they rise. -/
def Memory.rising (a : Nat) : Memory → Bool
  | [] => true
  | (b, _) :: m => decide (a < b) && Memory.rising b m

/-- The canonical form: addresses strictly rising; no entry reads as an unlisted address does, since each has a value. -/
def Memory.wf : Memory → Bool
  | [] => true
  | (b, _) :: m => Memory.rising b m

end Sys2Proof.Machine
end

