-- ==== Sys2Proof/Machine/Lcd.lean ====
section
/-! DEFINITION. The environment model of one LCD chip (20_memory.md R73), which the spec gives from general knowledge. No
rule of the block reads it (R73); the block only drives its pins. -/

namespace Sys2Proof.Machine

/-- The address after one data write: 0x27 is followed by 0x40 and 0x67 by 0x00 (R73). Elsewhere it counts on in seven
bits (DESIGN CHOICE, log 12). R73 gives these addresses "in 2-line mode"; they are used whatever `twoLine` holds (DESIGN
CHOICE, log 21). -/
def nextAc (ac : BitVec 7) : BitVec 7 :=
  if ac = 0x27 then 0x40 else if ac = 0x67 then 0x00 else ac + 1

/-- The addresses that have a cell: 0x00..0x27 and 0x40..0x67 "in 2-line mode" (R73), and the same whatever `twoLine`
holds (DESIGN CHOICE, log 21). -/
def hasCell (ac : BitVec 7) : Bool := ac.toNat ≤ 0x27 || (0x40 ≤ ac.toNat && ac.toNat ≤ 0x67)

/-- "every ddram cell <- 0x20" (R73): the cells of `hasCell`, whatever `twoLine` holds (DESIGN CHOICE, log 21). -/
def clearedDdram : Memory :=
  ((List.range 40).map fun k => (k, (0x20 : Byte))) ++ ((List.range 40).map fun k => (0x40 + k, (0x20 : Byte)))

/-- `execute(DATA, b)` (R73). A chip that does not increment keeps its address (DEDUCED, log 13); a write where there
is no cell is lost (DESIGN CHOICE, log 12). -/
def LcdChip.data (b : Byte) (x : LcdChip) : LcdChip :=
  { regs := { x.regs with ac := if x.regs.incr then nextAc x.regs.ac else x.regs.ac }
    ddram := if hasCell x.regs.ac then x.ddram.write x.regs.ac.toNat b else x.ddram }

/-- `execute(COMMAND, b)` (R73) of the byte with high nibble `h` and low nibble `l`. "other values: never sent by the
block": the address is then a free value (log 11). -/
def LcdChip.command (n : Nat) (h l : Nibble) (x : LcdChip) : LcdChip :=
  if h.getLsbD 3 then { x with regs := { x.regs with ac := (h ++ l).setWidth 7 } }
  else if h = 2 ∨ h = 3 then
    { x with regs := { x.regs with mode8 := h.getLsbD 0, twoLine := l.getLsbD 3, font5x10 := l.getLsbD 2, phase := false } }
  else if h = 0 then
    if l.getLsbD 3 then
      { x with regs := { x.regs with displayOn := l.getLsbD 2, cursorShown := l.getLsbD 1, blink := l.getLsbD 0 } }
    else if l.getLsbD 2 then
      { x with regs := { x.regs with incr := l.getLsbD 1, shiftOnWrite := l.getLsbD 0 } }
    else if l = 1 then { regs := { x.regs with ac := 0, incr := true }, ddram := clearedDdram }
    else { x with regs := { x.regs with ac := Config.freeAddr n } }
  else { x with regs := { x.regs with ac := Config.freeAddr n } }

/-- `execute(rs, {h, l})` (R73). -/
def LcdChip.execute (n : Nat) (rs : Bool) (h l : Nibble) (x : LcdChip) : LcdChip :=
  if rs then x.data (h ++ l) else x.command n h l

/-- The chip takes the sample `(rs, d)` at a falling edge of its own enable line (R73). In 8-bit mode the low four data
inputs are unconnected: a free value (log 10). -/
def LcdChip.sample (n : Nat) (rs : Bool) (d : Nibble) (x : LcdChip) : LcdChip :=
  if x.regs.mode8 then x.execute n rs d (Config.freeNibble n)
  else if x.regs.phase then LcdChip.execute n rs x.regs.latch d { x with regs := { x.regs with phase := false } }
  else { x with regs := { x.regs with latch := d, phase := true } }

/-- A chip of which nothing is known: every register a free value, no cell with a value (R36, R236; U4; log 3). -/
def LcdChip.unknown (n : Nat) : LcdChip :=
  { regs :=
      { mode8 := Config.freeBit n 0, phase := Config.freeBit n 1, latch := Config.freeNibble n, ac := Config.freeAddr n
        incr := Config.freeBit n 2, shiftOnWrite := Config.freeBit n 3, displayOn := Config.freeBit n 4
        cursorShown := Config.freeBit n 5, blink := Config.freeBit n 6, twoLine := Config.freeBit n 7
        font5x10 := Config.freeBit n 8 }
    ddram := [] }

end Sys2Proof.Machine
end

