-- ==== Sys2Proof/Machine/Operands.lean ====
section
/-! DEFINITION. Operand forms: nibbles, register-select levels, the address translation of 20_memory.md §3, the operand
check, and the views of the command assembly. -/

namespace Sys2Proof.Machine

/-- `hi(b) = b[7:4]` (00_scope.md R11). -/
def hi (b : Byte) : Nibble := b.extractLsb' 4 4

/-- `lo(b) = b[3:0]` (00_scope.md R11). -/
def lo (b : Byte) : Nibble := b.extractLsb' 0 4

/-- `lcd_rs` = 0 for COMMAND, 1 for DATA (40_bus_driver.md R131). -/
def rsLevel : RsMode → Bool
  | .command => false
  | .data => true

/-- `chipOf(l)`: A for lines 0 and 1, B for 2 and 3 (R55). -/
def chipOf (l : BitVec 2) : Chip := if l < 2 then .a else .b

/-- `rowOf(l) = l mod 2` (R56). -/
def rowOf (l : BitVec 2) : BitVec 1 := l.setWidth 1

/-- `ROW_BASE[r]` (00_scope.md R9). -/
def rowBase (cfg : Config) (r : BitVec 1) : BitVec 7 := if r = 0 then cfg.rowBase0 else cfg.rowBase1

/-- `ctrlAddr(l, k) = ROW_BASE[rowOf(l)] + k` (R57). -/
def ctrlAddr (cfg : Config) (l : BitVec 2) (k : BitVec 6) : BitVec 7 := rowBase cfg (rowOf l) + k.setWidth 7

/-- `posCmd(l, k) = 0x80 | ctrlAddr(l, k)` (R58). -/
def posCmd (cfg : Config) (l : BitVec 2) (k : BitVec 6) : Byte := setPositionByte (ctrlAddr cfg l k)

/-- `idx(l, k) = l*40 + k` (R51). -/
def idx (l : BitVec 2) (k : BitVec 6) : BitVec 8 := l.setWidth 8 * 40 + k.setWidth 8

/-- `l > 3 or k > 39`, on the whole bytes (30_encoding.md R93, 60_exceptions.md R205). -/
def outOfRange (l k : Byte) : Bool := l > 3 || k > 39

/-- A `line` operand that passed the check, as the 2-bit register holds it (R21). -/
def lineOf (l : Byte) : BitVec 2 := l.setWidth 2

/-- A `col` operand that passed the check, as the 6-bit register holds it (R22). -/
def colOf (k : Byte) : BitVec 6 := k.setWidth 6

/-- The opcode register of the command assembly (10_state.md R31). -/
def asmOpcode (asm : List Byte) : Option Byte := asm.head?

/-- The text bytes of a WRITEMESSAGE still to come, once its `len` has arrived (10_state.md R31). -/
def asmTextLeft (asm : List Byte) : Option Nat :=
  match asm with
  | op :: _ :: _ :: n :: text => if op = 0x14 then some (n.toNat - text.length) else none
  | _ => none

/-- Whether the message being assembled will be discarded: it will fault (10_state.md R31, 60_exceptions.md R203, R205). -/
def asmDiscarding (state : Mode) (asm : List Byte) : Bool :=
  match asm with
  | op :: l :: k :: _ => op == 0x14 && (decide (state = .uninitialized) || outOfRange l k)
  | _ => false

end Sys2Proof.Machine
end

