-- ==== Sys2Proof/Machine/Ops.lean ====
section
/-! DEFINITION. The named operations: emitting pin events, the event lists of the Bus Driver (40_bus_driver.md), the
sequencer's operations (10_state.md R30), taking a fault (60_exceptions.md R204), and hardware reset (R231, R236). -/

namespace Sys2Proof.Machine

/-! ### Pins, trace and chips -/

/-- The output trace in the order of emission (00_scope.md R15). -/
def State.events (s : State) : List Event := s.trace.reverse

/-- `en(c)` (00_scope.md R13). -/
def Pins.en (p : Pins) : Chip → Bool
  | .a => p.enA
  | .b => p.enB

/-- The effect of an event on the pin register (00_scope.md R15). -/
def Pins.apply (p : Pins) : Event → Pins
  | .rs b => { p with rs := b }
  | .d n => { p with d := n }
  | .en .a b => { p with enA := b }
  | .en .b b => { p with enB := b }
  | .wait _ => p

/-- The attached chip `c`. -/
def State.lcd (s : State) : Chip → LcdChip
  | .a => s.lcdA
  | .b => s.lcdB

/-- Chip `c` takes a sample of the pins; the other chip sees nothing (20_memory.md R73). -/
def State.sampleChip (s : State) : Chip → State
  | .a => { s with lcdA := s.lcdA.sample s.freeCtr s.pins.rs s.pins.d, freeCtr := s.freeCtr + 1 }
  | .b => { s with lcdB := s.lcdB.sample s.freeCtr s.pins.rs s.pins.d, freeCtr := s.freeCtr + 1 }

/-- The chip an event makes sample, if it is a falling enable edge (00_scope.md R16). -/
def fallingEdge (p : Pins) : Event → Option Chip
  | .en c false => if p.en c then some c else none
  | _ => none

/-- `emit e` (00_scope.md R15): the event is appended and takes effect, whether or not it changes a level. -/
def emit (e : Event) (s : State) : State :=
  let t := match fallingEdge s.pins e with
    | some c => s.sampleChip c
    | none => s
  { t with pins := t.pins.apply e, trace := e :: t.trace }

/-- Emit a list of events in order. -/
def emitAll (es : List Event) (s : State) : State := es.foldl (fun s e => emit e s) s

/-! ### The Bus Driver, as event lists (40_bus_driver.md) -/

/-- SetRegisterSelect(mode) (R132). -/
def setRegisterSelectEvents (m : RsMode) : List Event := [.rs (rsLevel m)]

/-- SetDataNibble(value): bits 7..4 are ignored (R133). -/
def setDataNibbleEvents (v : Byte) : List Event := [.d (lo v)]

/-- PulseEnable(c) (R134). -/
def pulseEnableEvents (c : Chip) : List Event :=
  [.wait .tAs, .en c true, .wait .tPw, .en c false, .wait .tH]

/-- WriteByte(c, mode, data): high nibble first, one RS event, the settle wait last (R136). -/
def writeByteEvents (c : Chip) (m : RsMode) (b : Byte) : List Event :=
  setRegisterSelectEvents m ++ setDataNibbleEvents (b >>> 4) ++ pulseEnableEvents c ++
    setDataNibbleEvents b ++ pulseEnableEvents c ++ [.wait .tCmd]

/-- WriteCommand(c, cmd) (R137). -/
def writeCommandEvents (c : Chip) (cmd : Byte) : List Event := writeByteEvents c .command cmd

/-- BusWriteChar(c, ch) (R138). -/
def busWriteCharEvents (c : Chip) (ch : Byte) : List Event := writeByteEvents c .data ch

/-- ClearChip(c) (R142). -/
def clearChipEvents (c : Chip) : List Event := writeCommandEvents c 0x01 ++ [.wait .tClear]

/-- One lone nibble of the cold-start sequence: SetDataNibble, PulseEnable (R139). The register-select level was set
once before the four (R139), so no RS event belongs to it (log 9). -/
def loneNibbleEvents (c : Chip) (n : Nibble) : List Event :=
  setDataNibbleEvents (n.setWidth 8) ++ pulseEnableEvents c

/-- The pin events of an LCD row. A host command has none of its own: it drives the pins through its program. -/
def busEvents : Instr → List Event
  | .init => []
  | .clear => []
  | .setcursor _ _ => []
  | .writechar _ => []
  | .writemessage _ _ _ => []
  | .reserved _ => []
  | .lcdClear c => clearChipEvents c
  | .lcdDisplayOnNocursor c => writeCommandEvents c 0x0C
  | .lcdDisplayOnCursor c => writeCommandEvents c 0x0E
  | .lcdSetPosition c addr => writeCommandEvents c (setPositionByte addr)
  | .lcdFunctionSet c => writeCommandEvents c 0x28
  | .lcdEntryMode c => writeCommandEvents c 0x06
  | .lcdData c d => busWriteCharEvents c d
  | .lcdColdstart8bit c => loneNibbleEvents c 0x3
  | .lcdColdstart4bit c => loneNibbleEvents c 0x2

/-! ### The sequencer's operations -/

/-- The byte a cell of the shadow buffer holds: what was last written to it, or, if nothing has been written since hardware
reset, a free value, "any" byte (20_memory.md R52, R53; 10_state.md R37, U14; log 5). -/
def State.cell (s : State) (a : Nat) : Byte := (s.buf.read a).getD (Config.freeCell s.bufSeed a)

/-- Write one cell of the shadow buffer (20_memory.md R53). -/
def State.storeCell (s : State) (i : BitVec 8) (v : Byte) : State := { s with buf := s.buf.write i.toNat v }

/-- `col <- k` (41_facade.md R165). -/
def State.setColumn (s : State) (k : BitVec 6) : State := { s with col := k }

/-- `line <- l; col <- k; chip <- chipOf(line)` (41_facade.md R163, R165). -/
def State.setCursor (s : State) (l : BitVec 2) (k : BitVec 6) : State :=
  { s with line := l, col := k, chip := chipOf l }

/-- `state <- Ready` (41_facade.md R161). -/
def State.setReady (s : State) : State := { s with state := .ready }

/-- One operation of the sequencer. -/
def runOp : SeqOp → State → State
  | .event e, s => emit e s
  | .bus i, s => emitAll (busEvents i) s
  | .store i v, s => s.storeCell i v
  | .column k, s => s.setColumn k
  | .cursor l k, s => s.setCursor l k
  | .ready, s => s.setReady

/-- The operations of a command, in order (20_memory.md R68). -/
def runOps (ops : List SeqOp) (s : State) : State := ops.foldl (fun s op => runOp op s) s

/-! ### Taking a fault, and hardware reset -/

/-- `raise Fault(code)` (60_exceptions.md R204): the flag is set and nothing else happens; the bytes of the command have
been consumed. There is no return to write beside it: "There is nothing to return from" (R209). -/
def takeFault (code : FaultCode) (s : State) : State := s.setFlag code

/-- Hardware reset of an idle block (10_state.md R37): the block takes its reset values, the cells of `buf` hold free values
of this reset's own (log 5), and the trace is empty; the chips are not changed (R38). -/
def hardReset (s : State) (rest : List Input) : State :=
  { State.reset with inputs := rest, lcdA := s.lcdA, lcdB := s.lcdB, bufSeed := s.freeCtr
                     freeCtr := s.freeCtr + 1 }

/-- Hardware reset during a command (70_reset_and_hazards.md R236): the same, and nothing is known of the chips (U4). -/
def cutReset (s : State) (rest : List Input) : State :=
  { hardReset s rest with
    lcdA := LcdChip.unknown s.freeCtr, lcdB := LcdChip.unknown (s.freeCtr + 1), freeCtr := s.freeCtr + 2 }

/-! ### Plans: what a command will do -/

/-- What a whole command does once its checks are made (41_facade.md R160): run operations that cannot fail, raise one
of the three faults, or stop in a state no run reaches. -/
inductive Plan where
  | run (ops : List SeqOp)
  | raise (code : FaultCode)
  | stop (f : Fault)
  deriving DecidableEq, Repr

/-- Carry out a plan to its end: "every operation runs to completion" (10_state.md R30). -/
def perform (p : Plan) (s : State) : Host.Outcome State Fault Refusal :=
  match p with
  | .run ops => .next (runOps ops s)
  | .raise code => .next (takeFault code s)
  | .stop f => .fault f

/-- Start a plan and leave its operations to the sequencer, one a step (10_state.md R30). -/
def begin (p : Plan) (s : State) : Host.Outcome State Fault Refusal :=
  match p with
  | .run ops => .next { s with seq := ops }
  | .raise code => .next (takeFault code s)
  | .stop f => .fault f

/-- The next state of an outcome, if it is one. -/
def nextOf (o : Host.Outcome State Fault Refusal) : Option State :=
  match o with
  | .next s => some s
  | .fault _ => none
  | .refused _ => none

end Sys2Proof.Machine
end

