-- ==== Sys2Proof/Machine/BusDriver.lean ====
section
/-! DEFINITION. The meanings of the nine LCD rows: the Bus Driver operations of 40_bus_driver.md as the sequencer runs
them. Each writes pins (and through them a chip) and nothing else of the block (R130); none can fail (R130, R140). -/

namespace Sys2Proof.Machine

/-- LCD_CLEAR: ClearChip(c) (R142). -/
def execLcdClear (c : Chip) (s : State) : Host.Outcome State Fault Refusal :=
  .next (emitAll (clearChipEvents c) s)

/-- LCD_DISPLAY_ON_NOCURSOR: WriteCommand(c, 0x0C) (R139, R137). -/
def execLcdDisplayOnNocursor (c : Chip) (s : State) : Host.Outcome State Fault Refusal :=
  .next (emitAll (writeCommandEvents c 0x0C) s)

/-- LCD_DISPLAY_ON_CURSOR: WriteCommand(c, 0x0E) (R139, R137). -/
def execLcdDisplayOnCursor (c : Chip) (s : State) : Host.Outcome State Fault Refusal :=
  .next (emitAll (writeCommandEvents c 0x0E) s)

/-- LCD_SET_POSITION: WriteCommand(c, 0x80 | addr) (41_facade.md R168, 30_encoding.md R100). -/
def execLcdSetPosition (c : Chip) (addr : BitVec 7) (s : State) : Host.Outcome State Fault Refusal :=
  .next (emitAll (writeCommandEvents c (setPositionByte addr)) s)

/-- LCD_FUNCTION_SET: WriteCommand(c, 0x28) (R139, 30_encoding.md R101). -/
def execLcdFunctionSet (c : Chip) (s : State) : Host.Outcome State Fault Refusal :=
  .next (emitAll (writeCommandEvents c 0x28) s)

/-- LCD_ENTRY_MODE: WriteCommand(c, 0x06) (R139). -/
def execLcdEntryMode (c : Chip) (s : State) : Host.Outcome State Fault Refusal :=
  .next (emitAll (writeCommandEvents c 0x06) s)

/-- LCD_DATA: BusWriteChar(c, d) (R138). -/
def execLcdData (c : Chip) (d : Byte) (s : State) : Host.Outcome State Fault Refusal :=
  .next (emitAll (busWriteCharEvents c d) s)

/-- LCD_COLDSTART_8BIT: SetDataNibble(0x3), PulseEnable(c) (R139, 30_encoding.md R102). -/
def execLcdColdstart8bit (c : Chip) (s : State) : Host.Outcome State Fault Refusal :=
  .next (emitAll (loneNibbleEvents c 0x3) s)

/-- LCD_COLDSTART_4BIT: SetDataNibble(0x2), PulseEnable(c) (R139, 30_encoding.md R102). -/
def execLcdColdstart4bit (c : Chip) (s : State) : Host.Outcome State Fault Refusal :=
  .next (emitAll (loneNibbleEvents c 0x2) s)

end Sys2Proof.Machine
end

