-- ==== Sys2Proof/Machine/Facade.lean ====
section
/-! DEFINITION. The Display Controller Facade (41_facade.md): the internal operations as lists of sequencer operations, in
the order of their pseudocode, then the six host rows. Written for every configuration (00_scope.md R9), which `execWith`
takes as an argument; the meanings `exec` calls use R9's defaults (log 7). -/

namespace Sys2Proof.Machine

/-! ### Internal operations -/

/-- SendPosition(l, k) (R168). -/
def sendPositionOps (cfg : Config) (l : BitVec 2) (k : BitVec 6) : List SeqOp :=
  [.bus (.lcdSetPosition (chipOf l) (ctrlAddr cfg l k))]

/-- The row of DISPLAY_ON_CMD (00_scope.md R9). -/
def displayOnInstr (cfg : Config) (c : Chip) : Instr :=
  if cfg.cursorOn then .lcdDisplayOnCursor c else .lcdDisplayOnNocursor c

/-- Initialize(c) (40_bus_driver.md R139). -/
def initializeOps (cfg : Config) (c : Chip) : List SeqOp :=
  [.event (.rs (rsLevel .command)),
   .bus (.lcdColdstart8bit c), .event (.wait .tInit1),
   .bus (.lcdColdstart8bit c), .event (.wait .tInit2),
   .bus (.lcdColdstart8bit c), .event (.wait .tInit2),
   .bus (.lcdColdstart4bit c), .event (.wait .tCmd),
   .bus (.lcdFunctionSet c),
   .bus (displayOnInstr cfg c),
   .bus (.lcdEntryMode c),
   .bus (.lcdClear c)]

/-- Stores of `cells` from index `i` on. -/
def storeAllOps : Nat → List Byte → List SeqOp
  | _, [] => []
  | i, v :: r => .store (BitVec.ofNat 8 i) v :: storeAllOps (i + 1) r

/-- `for i in 0..159: buf[i] <- BLANK` (R161, R162). -/
def blankAllOps : List SeqOp := storeAllOps 0 (List.replicate 160 Config.blank)

/-- The 160 cells after the scroll: what cells 40..159 hold, then forty BLANKs (R166). -/
def scrolledCells (s : State) : List Byte := (List.range' 40 120).map s.cell ++ List.replicate 40 Config.blank

/-- One line of the retransmission: its position command, then forty data transfers (R166). -/
def sendLineOps (cfg : Config) (l : BitVec 2) (cells : List Byte) : List SeqOp :=
  sendPositionOps cfg l 0 ++ cells.map fun v => .bus (.lcdData (chipOf l) v)

/-- RollUp() (R166), given the cells after the scroll. A store at i never precedes the reading of cell i + 40, so the
values are those of the ascending loop. -/
def rollUpOps (cfg : Config) (cells : List Byte) : List SeqOp :=
  storeAllOps 0 cells ++
    sendLineOps cfg 0 (cells.take 40) ++ sendLineOps cfg 1 ((cells.drop 40).take 40) ++
    sendLineOps cfg 2 ((cells.drop 80).take 40) ++ sendLineOps cfg 3 ((cells.drop 120).take 40) ++
    sendPositionOps cfg 3 0 ++ [.cursor 3 0]

/-- Advance() (R165). -/
def advanceOps (cfg : Config) (s : State) : List SeqOp :=
  if s.col < 39 then [.column (s.col + 1)]
  else if s.line < 3 then sendPositionOps cfg (s.line + 1) 0 ++ [.cursor (s.line + 1) 0]
  else rollUpOps cfg (scrolledCells s)

/-- PutChar(ch) (R170): the cell under the cursor is written before the cursor moves (90_conflicts.md C3). Outside the
forty columns there is no cell (R60; log 14). -/
def putCharOps (cfg : Config) (ch : Byte) (s : State) : Except Fault (List SeqOp) :=
  if s.col > 39 then .error .cursorOutOfRange
  else
    .ok (.bus (.lcdData s.chip ch) :: .store (idx s.line s.col) ch ::
      advanceOps cfg (s.storeCell (idx s.line s.col) ch))

/-- `for i in 0..len-1: call PutChar(text[i])` (R167). -/
def putTextOps (cfg : Config) : List Byte → State → Except Fault (List SeqOp)
  | [], _ => .ok []
  | ch :: rest, s =>
    match putCharOps cfg ch s with
    | .error f => .error f
    | .ok ops =>
      match putTextOps cfg rest (runOps ops s) with
      | .error f => .error f
      | .ok more => .ok (ops ++ more)

/-- The plan of operations that may stop. -/
def planOf : Except Fault (List SeqOp) → Plan
  | .ok ops => .run ops
  | .error f => .stop f

/-! ### The plans of the host rows: the state check, then the range check, then the operations (R160, R206) -/

/-- INIT (R161). It never faults, in either state. -/
def initPlan (cfg : Config) : Plan :=
  .run (.event (.wait .tPoweron) :: initializeOps cfg .a ++ initializeOps cfg .b ++ blankAllOps ++
    sendPositionOps cfg 0 0 ++ [.cursor 0 0, .ready])

/-- CLEAR (R162). -/
def clearPlan (cfg : Config) (s : State) : Plan :=
  if s.state ≠ .ready then .raise .errNotReady
  else .run ([.bus (.lcdClear .a), .bus (.lcdClear .b)] ++ blankAllOps ++ sendPositionOps cfg 0 0 ++ [.cursor 0 0])

/-- SendPosition(l, k) and the cursor, which SETCURSOR is and WRITEMESSAGE begins with (R163, R167). -/
def moveToOps (cfg : Config) (l k : Byte) : List SeqOp :=
  sendPositionOps cfg (lineOf l) (colOf k) ++ [.cursor (lineOf l) (colOf k)]

/-- SETCURSOR (R163). -/
def setcursorPlan (cfg : Config) (l k : Byte) (s : State) : Plan :=
  if s.state ≠ .ready then .raise .errNotReady
  else if outOfRange l k then .raise .errRange
  else .run (moveToOps cfg l k)

/-- WRITECHAR (R164). Every byte is a character (D23). -/
def writecharPlan (cfg : Config) (ch : Byte) (s : State) : Plan :=
  if s.state ≠ .ready then .raise .errNotReady
  else planOf (putCharOps cfg ch s)

/-- WRITEMESSAGE (R167). The checks are made once, before anything is sent. -/
def writemessagePlan (cfg : Config) (l k : Byte) (text : List Byte) (s : State) : Plan :=
  if s.state ≠ .ready then .raise .errNotReady
  else if outOfRange l k then .raise .errRange
  else
    match putTextOps cfg text (runOps (moveToOps cfg l k) s) with
    | .ok ops => .run (moveToOps cfg l k ++ ops)
    | .error f => .stop f

/-- A reserved opcode byte (30_encoding.md R95, 60_exceptions.md R202). -/
def reservedPlan : Plan := .raise .errOpcode

/-- The plan of any instruction; an LCD row is one operation of the sequencer. -/
def plan (cfg : Config) : Instr → State → Plan
  | .init, _ => initPlan cfg
  | .clear, s => clearPlan cfg s
  | .setcursor l k, s => setcursorPlan cfg l k s
  | .writechar ch, s => writecharPlan cfg ch s
  | .writemessage l k text, s => writemessagePlan cfg l k text s
  | .reserved _, _ => reservedPlan
  | .lcdClear c, _ => .run [.bus (.lcdClear c)]
  | .lcdDisplayOnNocursor c, _ => .run [.bus (.lcdDisplayOnNocursor c)]
  | .lcdDisplayOnCursor c, _ => .run [.bus (.lcdDisplayOnCursor c)]
  | .lcdSetPosition c addr, _ => .run [.bus (.lcdSetPosition c addr)]
  | .lcdFunctionSet c, _ => .run [.bus (.lcdFunctionSet c)]
  | .lcdEntryMode c, _ => .run [.bus (.lcdEntryMode c)]
  | .lcdData c d, _ => .run [.bus (.lcdData c d)]
  | .lcdColdstart8bit c, _ => .run [.bus (.lcdColdstart8bit c)]
  | .lcdColdstart4bit c, _ => .run [.bus (.lcdColdstart4bit c)]

/-- The meaning of any instruction with the parameters of R9 as an argument: a model "takes [them] as an argument". -/
def execWith (cfg : Config) (i : Instr) (s : State) : Host.Outcome State Fault Refusal := perform (plan cfg i s) s

/-! ### The meanings of the host rows, with R9's defaults -/

/-- INIT (R161). -/
def execInit (s : State) : Host.Outcome State Fault Refusal := perform (initPlan Config.default) s

/-- CLEAR (R162). -/
def execClear (s : State) : Host.Outcome State Fault Refusal := perform (clearPlan Config.default s) s

/-- SETCURSOR line, col (R163). -/
def execSetcursor (l k : Byte) (s : State) : Host.Outcome State Fault Refusal :=
  perform (setcursorPlan Config.default l k s) s

/-- WRITECHAR ch (R164). -/
def execWritechar (ch : Byte) (s : State) : Host.Outcome State Fault Refusal :=
  perform (writecharPlan Config.default ch s) s

/-- WRITEMESSAGE line, col, text (R167). -/
def execWritemessage (l k : Byte) (text : List Byte) (s : State) : Host.Outcome State Fault Refusal :=
  perform (writemessagePlan Config.default l k text s) s

/-- RESERVED (30_encoding.md R95, 60_exceptions.md R202); the byte itself is not recorded (R201). -/
def execReserved (_op : Byte) (s : State) : Host.Outcome State Fault Refusal := perform reservedPlan s

end Sys2Proof.Machine
end

