-- ==== Sys2Proof/Machine/Dispatch.lean ====
section
/-! DEFINITION. One arm per row of spec/opcode_table.json. -/

namespace Sys2Proof.Machine

-- the meaning of an instruction
def exec (i : Instr) (s : State) : Host.Outcome State Fault Refusal :=
  match i with
  | .init => Sys2Proof.Machine.execInit s
  | .clear => Sys2Proof.Machine.execClear s
  | .setcursor line col => Sys2Proof.Machine.execSetcursor line col s
  | .writechar ch => Sys2Proof.Machine.execWritechar ch s
  | .writemessage line col text => Sys2Proof.Machine.execWritemessage line col text s
  | .reserved op => Sys2Proof.Machine.execReserved op s
  | .lcdClear c => Sys2Proof.Machine.execLcdClear c s
  | .lcdDisplayOnNocursor c => Sys2Proof.Machine.execLcdDisplayOnNocursor c s
  | .lcdDisplayOnCursor c => Sys2Proof.Machine.execLcdDisplayOnCursor c s
  | .lcdSetPosition c addr => Sys2Proof.Machine.execLcdSetPosition c addr s
  | .lcdFunctionSet c => Sys2Proof.Machine.execLcdFunctionSet c s
  | .lcdEntryMode c => Sys2Proof.Machine.execLcdEntryMode c s
  | .lcdData c d => Sys2Proof.Machine.execLcdData c d s
  | .lcdColdstart8bit c => Sys2Proof.Machine.execLcdColdstart8bit c s
  | .lcdColdstart4bit c => Sys2Proof.Machine.execLcdColdstart4bit c s

end Sys2Proof.Machine
end

