-- ==== Sys2Proof/Machine/Port.lean ====
section
/-! DEFINITION. The command port and the sequencer, seen from one step: which byte, reset or operation comes next
(30_encoding.md R97, R106; 10_state.md R30, R31; 70_reset_and_hazards.md R231, R236). -/

namespace Sys2Proof.Machine

/-- What one step finds to do. -/
inductive Fetched where
  /-- the step is done: a byte held, an operation run, a reset, or nothing to do -/
  | settled (t : State)
  /-- a whole command has arrived: run it to its end -/
  | run (i : Instr) (t : State)
  /-- a whole command has arrived and a reset may cut it: start it, one operation a step -/
  | start (i : Instr) (t : State)

/-- The next input is a reset. -/
def rstNext : List Input → Bool
  | .rst _ :: _ => true
  | _ => false

/-- The handshake of R106 accepts byte `b`: it ends the command being assembled, or is held (R31, R97). Nothing else
changes until the last byte has been accepted (R97). -/
def acceptByte (b : Byte) (rest : List Input) (s : State) : Fetched :=
  match decodeHost (s.asm ++ [b]) with
  | .ok (i, left) =>
    if rstNext rest then .start i { s with asm := left, inputs := rest }
    else .run i { s with asm := left, inputs := rest }
  | .error _ => .settled { s with asm := s.asm ++ [b], inputs := rest }

/-- The idle block: a reset, a byte, or waiting "indefinitely" (R97, R216). -/
def fetchIdle (s : State) : Fetched :=
  match s.inputs with
  | [] => .settled s
  | .byte b :: rest => acceptByte b rest s
  | .rst _ :: rest => .settled (hardReset s rest)

/-- The busy block does one operation and accepts no byte (R30, R106), unless a reset strikes now (R231, R236). -/
def fetchBusy (op : SeqOp) (ops : List SeqOp) (s : State) : Fetched :=
  match s.inputs with
  | .rst 0 :: rest => .settled (cutReset s rest)
  | .rst (n + 1) :: rest => .settled (runOp op { s with seq := ops, inputs := .rst n :: rest })
  | _ => .settled (runOp op { s with seq := ops })

/-- What the next step does. -/
def fetch (s : State) : Fetched :=
  match s.seq with
  | [] => fetchIdle s
  | op :: ops => fetchBusy op ops s

/-- Do what the step found: `ex` is the meaning of a whole command. -/
def Fetched.carryOut (ex : Instr → State → Host.Outcome State Fault Refusal) (cfg : Config) :
    Fetched → Host.Outcome State Fault Refusal
  | .settled t => .next t
  | .run i t => ex i t
  | .start i t => begin (plan cfg i t) t

/-- `s` with the bytes of one command where the next step ends it: all but the last held by the assembly registers, the
last one at the port, the sequencer idle (log 16). -/
def State.withCommandBytes (s : State) (bytes : List Byte) : State :=
  { s with seq := [], asm := bytes.dropLast, inputs := (bytes.getLast?.map Input.byte).toList }

/-- `s` with one LCD row as all that the sequencer has to do, and no reset to cut it (log 16). -/
def State.withBusRow (s : State) (i : Option Instr) : State :=
  { s with seq := (i.map SeqOp.bus).toList, inputs := [] }

end Sys2Proof.Machine
end

