-- ==== Sys2Proof/Machine/Step.lean ====
section
/-! DEFINITION. One step of the machine. -/

namespace Sys2Proof.Machine

/-- One step: while idle, one byte of the host stream, whose command runs whole when it ends one (10_state.md R31; log 1),
or a hardware reset; while busy, one operation of the sequencer (R30; log 1). With the default parameters of 00_scope.md
R9 (log 7). -/
def step (s : State) : Host.Outcome State Fault Refusal := (fetch s).carryOut exec Config.default

/-- One step of a block built with any parameters (00_scope.md R9 "that the model takes as an argument"). -/
def stepWith (cfg : Config) (s : State) : Host.Outcome State Fault Refusal := (fetch s).carryOut (execWith cfg) cfg

/-- The machine of a block built with any parameters (00_scope.md R9). Hardware reset is the same for all of them
(10_state.md R37). -/
def coreWith (cfg : Config) : Host.Core :=
  { State := State, Fault := Fault, Refusal := Refusal, step := stepWith cfg, reset := State.reset }

/-- `s` with the instruction of a table word where the next step runs it: a host command at the port, an LCD row at the
head of the sequencer (log 16). -/
def State.withFetchWord (s : State) (nbits w : Nat) : State :=
  match tableCode nbits w with
  | .host bytes => s.withCommandBytes bytes
  | .bus8 _ _ _ => s.withBusRow (decodeTableWord nbits w)
  | .bus4 _ _ => s.withBusRow (decodeTableWord nbits w)

end Sys2Proof.Machine
end

