-- ==== Sys2Proof/Safety.lean ====
section
/-! DEFINITION. The words the statements use: the projections of the trace (00_scope.md R16), the hazards of the bus
(70_reset_and_hazards.md R234), durations (R237), and the invariants (41_facade.md R173, 20_memory.md R74). -/

namespace Sys2Proof.Machine

/-! ### Projections of the trace (00_scope.md R16) -/

/-- One sample `(c, rs, n)`. -/
structure Sample where
  chip : Chip
  rs : Bool
  nibble : Nibble
  deriving DecidableEq, Repr

/-- The sample sequence of a list of events, from the pins before it: one triple at every falling enable edge. -/
def samples : Pins → List Event → List Sample
  | _, [] => []
  | p, e :: es =>
    match fallingEdge p e with
    | some c => ⟨c, p.rs, p.d⟩ :: samples (p.apply e) es
    | none => samples (p.apply e) es

/-- One transfer: `CMD(c, byte)` or `DAT(c, byte)`. -/
inductive Transfer where
  | cmd (c : Chip) (b : Byte)
  | dat (c : Chip) (b : Byte)
  deriving DecidableEq, Repr

/-- The chip a transfer goes to. -/
def Transfer.chip : Transfer → Chip
  | .cmd c _ => c
  | .dat c _ => c

/-- The pair `(c, rs, h)`, `(c, rs, l)` as the transfer `(c, rs, {h, l})`. -/
def transferOf (x y : Sample) : Transfer :=
  if x.rs then .dat x.chip (x.nibble ++ y.nibble) else .cmd x.chip (x.nibble ++ y.nibble)

/-- The first of the four single-nibble samples of a cold start (40_bus_driver.md R139), where a transfer would begin: a
COMMAND sample 0x3. The block sends no command byte 0x30..0x3F (DEDUCED, log 22). -/
def Sample.coldStart (x : Sample) : Bool := !x.rs && decide (x.nibble = 0x3)

/-- One chip's samples paired two by two, high nibble first, after the four single-nibble samples of each cold start; the
number is how many of the four are still to come. -/
def pairChipSamples : Nat → List Sample → List Transfer
  | 0, x :: y :: r =>
    if x.coldStart then pairChipSamples 3 (y :: r) else transferOf x y :: pairChipSamples 0 r
  | n + 1, _ :: r => pairChipSamples n r
  | _, _ => []

/-- The samples of one chip. -/
def chipSamples (c : Chip) (p : Pins) (es : List Event) : List Sample :=
  (samples p es).filter fun x => decide (x.chip = c)

/-- The transfer sequence of one chip (R16). -/
def chipTransfers (c : Chip) (p : Pins) (es : List Event) : List Transfer := pairChipSamples 0 (chipSamples c p es)

/-- All samples paired two by two, high nibble first. -/
def pairSamples : List Sample → List Transfer
  | x :: y :: r => transferOf x y :: pairSamples r
  | _ => []

/-- The transfers of both chips in the order of the bus, for a list of events without lone nibbles (every instruction but
INIT and the cold-start rows): the two samples of a transfer are adjacent, so pairing the whole sequence gives them. The
transfer sequence of R16, with or without cold starts, is `chipTransfers`. -/
def transfers (p : Pins) (es : List Event) : List Transfer := pairSamples (samples p es)

/-- The levels after a list of events. -/
def pinsAfter (p : Pins) (es : List Event) : Pins := es.foldl Pins.apply p

/-! ### The hazards of the bus (40_bus_driver.md R135, 70_reset_and_hazards.md R234 Z1, Z2, Z3, Z8) -/

/-- Both enable lines are low. -/
def Pins.idle (p : Pins) : Bool := !p.enA && !p.enB

/-- Every RS, every D and every rising enable edge happens while both enable lines are low (Z1, Z2, Z8). -/
def stableBus : Pins → List Event → Bool
  | _, [] => true
  | p, .rs b :: es => p.idle && stableBus (p.apply (.rs b)) es
  | p, .d n :: es => p.idle && stableBus (p.apply (.d n)) es
  | p, .en c true :: es => p.idle && stableBus (p.apply (.en c true)) es
  | p, .en c false :: es => stableBus (p.apply (.en c false)) es
  | p, .wait w :: es => stableBus (p.apply (.wait w)) es

/-- Every enable event stands in `WAIT(T_AS), EN(c,1), WAIT(T_PW), EN(c,0), WAIT(T_H)` (Z1, Z2, Z3). -/
def timedPulses : List Event → Bool
  | [] => true
  | .wait .tAs :: .en c true :: .wait .tPw :: .en c' false :: .wait .tH :: es => decide (c = c') && timedPulses es
  | .en _ _ :: _ => false
  | .rs _ :: es => timedPulses es
  | .d _ :: es => timedPulses es
  | .wait _ :: es => timedPulses es

/-- The least time a list of events takes, for any values of the time parameters (70_reset_and_hazards.md R237). -/
def duration (time : TimeParam → Nat) : List Event → Nat
  | [] => 0
  | .wait p :: es => time p + duration time es
  | .rs _ :: es => duration time es
  | .d _ :: es => duration time es
  | .en _ _ :: es => duration time es

/-! ### The invariants -/

/-- The state once the operations left to the sequencer are done: the state itself when the block is idle. -/
def State.settle (s : State) : State := runOps s.seq { s with seq := [] }

/-- 10_state.md R24: `col` in 0..39 and `chip = chipOf(line)`. -/
def State.cursorOk (s : State) : Prop := s.col ≤ 39 ∧ s.chip = chipOf s.line

/-- Every one of the 160 cells has been written since hardware reset. -/
def State.bufWritten (s : State) : Prop := ∀ a < 160, (s.buf.read a).isSome

/-- The memories are in canonical form, and only cells that exist are listed (20_memory.md R50). -/
def State.memoriesOk (s : State) : Prop :=
  s.buf.wf = true ∧ s.lcdA.ddram.wf = true ∧ s.lcdB.ddram.wf = true ∧ ∀ a, 160 ≤ a → s.buf.read a = none

/-- The bytes held are the beginning of a command, not a whole one (10_state.md R31, 30_encoding.md R97). -/
def State.assemblyOk (s : State) : Prop := s.asm = [] ∨ decodeHost s.asm = .error .incomplete

/-- What holds whenever no command is executing (41_facade.md R173 (a), (b); 10_state.md R37). -/
def State.idleOk (s : State) : Prop :=
  s.cursorOk ∧ s.pins.idle = true ∧ s.memoriesOk ∧ (s.state = .ready → s.bufWritten)

/-- The invariant of the block: it is stated of the state the command in progress ends in, since "inside an operation
the pair may transiently be inconsistent" (10_state.md R24). -/
def State.Inv (s : State) : Prop := s.assemblyOk ∧ s.memoriesOk ∧ s.settle.idleOk

/-- A chip in 4-bit mode between two bytes, incrementing (20_memory.md R74). -/
def LcdChip.inStep (x : LcdChip) : Prop := x.regs.mode8 = false ∧ x.regs.phase = false ∧ x.regs.incr = true

/-- 20_memory.md R74 and R72 for the chips of a state, with the default ROW_BASE: both chips in step, the address of the
cursor's chip is the cursor's, and all 160 display cells show the shadow buffer. -/
def State.tracked (s : State) : Prop :=
  s.lcdA.inStep ∧ s.lcdB.inStep ∧
    (s.lcd (chipOf s.line)).regs.ac = ctrlAddr Config.default s.line s.col ∧
    ∀ (l : BitVec 2) (k : BitVec 6), k ≤ 39 →
      (s.lcd (chipOf l)).ddram.read (ctrlAddr Config.default l k).toNat = some (s.cell (idx l k).toNat)

/-- The tracking invariant (20_memory.md R74): in state Ready, when no command is executing, the chips track the block. -/
def State.TrackingInv (s : State) : Prop := s.Inv ∧ (s.settle.state = .ready → s.settle.tracked)

/-! ### Running one instruction after another -/

/-- Go on with `f` from a next state; a fault or a refusal ends the run (20_memory.md R68 (b)). -/
def andThen (o : Host.Outcome State Fault Refusal) (f : State → Host.Outcome State Fault Refusal) :
    Host.Outcome State Fault Refusal :=
  match o with
  | .next t => f t
  | .fault r => .fault r
  | .refused r => .refused r

/-- The events the step from `s` to `t` emitted are `es` (00_scope.md R15). -/
def emitted (s t : State) (es : List Event) : Prop := t.events = s.events ++ es

/-! ### The frames -/

/-- Everything of the block and of the host's side but pins, trace and chips is as before: what a Bus Driver operation
leaves (40_bus_driver.md R130). -/
def sameFacade (s t : State) : Prop :=
  t.line = s.line ∧ t.col = s.col ∧ t.chip = s.chip ∧ t.state = s.state ∧ t.errOpcode = s.errOpcode ∧
    t.errNotReady = s.errNotReady ∧ t.errRange = s.errRange ∧ (∀ a, t.buf.read a = s.buf.read a) ∧ t.bufSeed = s.bufSeed ∧
    t.seq = s.seq ∧ t.asm = s.asm ∧ t.inputs = s.inputs

/-- What no host command that passes its checks writes: the fault flags, the sequencer's queue, the assembly registers,
the host's side (41_facade.md R160, 60_exceptions.md R201), and which free values unwritten cells hold (log 5). -/
def sameFlags (s t : State) : Prop :=
  t.errOpcode = s.errOpcode ∧ t.errNotReady = s.errNotReady ∧ t.errRange = s.errRange ∧ t.seq = s.seq ∧
    t.asm = s.asm ∧ t.inputs = s.inputs ∧ t.bufSeed = s.bufSeed

/-- What one data byte `ch` does to the display cells (20_memory.md R73), for chips in step: the cell at the address of the
chip in `chip` holds `ch`, and every other cell of both chips is as before. -/
def displayWrite (s t : State) (ch : Byte) : Prop :=
  s.lcdA.inStep → s.lcdB.inStep → hasCell (s.lcd s.chip).regs.ac = true →
    (t.lcd s.chip).ddram.read (s.lcd s.chip).regs.ac.toNat = some ch ∧
    ∀ c a, (c ≠ s.chip ∨ a ≠ (s.lcd s.chip).regs.ac.toNat) → (t.lcd c).ddram.read a = (s.lcd c).ddram.read a

end Sys2Proof.Machine
end

