-- ==== Sys2Proof/Certificates/Slice0/Obligations.lean ====
section
/-! DEFINITION. The statements for the provers. Each docstring names the rule it formalises, or the log entry of the model's
own choice it rests on. -/

open Sys2Proof Sys2Proof.Machine

/-! ### Reset -/

/-- 10_state.md R37 (the values) at power-on. -/
def Obligations.ResetStateHasTheResetValues : Prop :=
  let s := State.reset
  s.state = .uninitialized ∧ s.errOpcode = false ∧ s.errNotReady = false ∧ s.errRange = false ∧
    s.pins.rs = false ∧ s.pins.enA = false ∧ s.pins.enB = false ∧ s.pins.d = 0 ∧ s.line = 0 ∧ s.col = 0 ∧
    s.chip = .a ∧ s.busy = false ∧ s.cmdReady = true ∧ s.asm = [] ∧ s.events = [] ∧ s.status = 0

/-- 10_state.md R37 and 70_reset_and_hazards.md R231: a reset that strikes takes the block to the reset values whatever
it was doing, discards the command in progress and the bytes held, accepts no byte, and emits no event. -/
def Obligations.HardwareResetFromAnyState : Prop :=
  ∀ (s : State) (n : Nat) (rest : List Input), s.inputs = .rst n :: rest → (s.seq = [] ∨ n = 0) →
    s.cmdReady = false ∧ ∃ t, step s = .next t ∧
      t.state = .uninitialized ∧ t.errOpcode = false ∧ t.errNotReady = false ∧ t.errRange = false ∧
      t.pins.rs = false ∧ t.pins.enA = false ∧ t.pins.enB = false ∧ t.pins.d = 0 ∧ t.line = 0 ∧ t.col = 0 ∧
      t.chip = .a ∧ t.busy = false ∧ t.seq = [] ∧ t.asm = [] ∧ t.events = [] ∧ t.inputs = rest ∧
      (rstNext rest = false → t.cmdReady = true)

/-- 10_state.md R38: a reset of the idle block does not change the chips. 70_reset_and_hazards.md R236: one that cuts a
command leaves chips of which the model knows nothing but free values (the model's form of "any value", log 3). -/
def Obligations.HardwareResetAndTheChips : Prop :=
  ∀ (s : State) (n : Nat) (rest : List Input), s.inputs = .rst n :: rest →
    (s.seq = [] → ∃ t, step s = .next t ∧ t.lcdA = s.lcdA ∧ t.lcdB = s.lcdB) ∧
    (s.seq ≠ [] → n = 0 → ∃ t, step s = .next t ∧
      t.lcdA = LcdChip.unknown s.freeCtr ∧ t.lcdB = LcdChip.unknown (s.freeCtr + 1))

/-- 10_state.md R37, 93_implementation_defined.md U14 "any value": after a hardware reset, at power-on and in every later
one, each cell of the buffer holds a free value, of this reset and of that cell; the value stays until the cell is written
(the model's form of "any 160 bytes", log 5). -/
def Obligations.HardwareResetLeavesAnyBuffer : Prop :=
  (∀ a < 160, State.reset.cell a = Config.freeCell State.reset.bufSeed a) ∧ State.reset.bufSeed < State.reset.freeCtr ∧
  (∀ (s : State) (n : Nat) (rest : List Input), s.inputs = .rst n :: rest → (s.seq = [] ∨ n = 0) →
    ∃ t, step s = .next t ∧ t.bufSeed = s.freeCtr ∧ t.bufSeed < t.freeCtr ∧
      ∀ a < 160, t.cell a = Config.freeCell t.bufSeed a) ∧
  (∀ s t : State, step s = .next t → s.freeCtr ≤ t.freeCtr ∧
    (s.rstNow = false → t.bufSeed = s.bufSeed ∧ ∀ a, t.cell a = s.cell a ∨ (t.buf.read a).isSome))

/-- 10_state.md R32: the bits of STATUS. -/
def Obligations.StatusWordShowsTheFiveOutputs : Prop :=
  ∀ s : State,
    s.status.getLsbD 0 = decide (s.state = .ready) ∧ s.status.getLsbD 1 = decide (s.seq ≠ []) ∧
    s.status.getLsbD 2 = s.errOpcode ∧ s.status.getLsbD 3 = s.errNotReady ∧ s.status.getLsbD 4 = s.errRange

/-! ### Decoding -/

/-- Words written out from the encodings of 30_encoding.md R91, R92, R99 and R102. -/
def Obligations.WrittenOutWordsDecode : Prop :=
  decode (.host [0b00010000]) = .ok .init ∧
  decode (.host [0b00010001]) = .ok .clear ∧
  decode (.host [0b00010010, 0b00000010, 0b00001010]) = .ok (.setcursor 2 10) ∧
  decode (.host [0b00010011, 0b01000001]) = .ok (.writechar 0x41) ∧
  decode (.host [0b00010100, 0b00000001, 0b00100110, 0b00000010, 0b01111000, 0b01111001]) =
    .ok (.writemessage 1 38 [0x78, 0x79]) ∧
  decode (.host [0b10000000]) = .ok (.reserved 0x80) ∧
  decode (.bus8 .b .command 0b11000101) = .ok (.lcdSetPosition .b 0x45) ∧
  decode (.bus8 .a .command 0b00101000) = .ok (.lcdFunctionSet .a) ∧
  decode (.bus8 .a .data 0b00101000) = .ok (.lcdData .a 0x28) ∧
  decode (.bus4 .b 0b0010) = .ok (.lcdColdstart4bit .b)

/-- 30_encoding.md R96: the equations of `decode` over a byte list; the INCOMPLETE of the rule is the rest. -/
def Obligations.DecodingAStreamFollowsItsEquations : Prop :=
  decodeStream [] = ⟨[], []⟩ ∧
  (∀ r, decodeStream (0x10 :: r) = ⟨.init :: (decodeStream r).commands, (decodeStream r).rest⟩) ∧
  (∀ r, decodeStream (0x11 :: r) = ⟨.clear :: (decodeStream r).commands, (decodeStream r).rest⟩) ∧
  (∀ l k r, decodeStream (0x12 :: l :: k :: r) =
    ⟨.setcursor l k :: (decodeStream r).commands, (decodeStream r).rest⟩) ∧
  (∀ c r, decodeStream (0x13 :: c :: r) = ⟨.writechar c :: (decodeStream r).commands, (decodeStream r).rest⟩) ∧
  (∀ (l k n : Byte) (r : List Byte), n.toNat ≤ r.length → decodeStream (0x14 :: l :: k :: n :: r) =
    ⟨.writemessage l k (r.take n.toNat) :: (decodeStream (r.drop n.toNat)).commands,
      (decodeStream (r.drop n.toNat)).rest⟩) ∧
  (∀ (op : Byte) (r : List Byte), isHostOpcode op = false →
    decodeStream (op :: r) = ⟨.reserved op :: (decodeStream r).commands, (decodeStream r).rest⟩) ∧
  (∀ bytes, decodeHost bytes = .error .incomplete → decodeStream bytes = ⟨[], bytes⟩) ∧
  (∀ l, decodeStream [0x12] = ⟨[], [0x12]⟩ ∧ decodeStream [0x12, l] = ⟨[], [0x12, l]⟩) ∧
  decodeStream [0x13] = ⟨[], [0x13]⟩ ∧
  (∀ l k, decodeStream [0x14] = ⟨[], [0x14]⟩ ∧ decodeStream [0x14, l] = ⟨[], [0x14, l]⟩ ∧
    decodeStream [0x14, l, k] = ⟨[], [0x14, l, k]⟩) ∧
  (∀ (l k n : Byte) (r : List Byte), r.length < n.toNat →
    decodeStream (0x14 :: l :: k :: n :: r) = ⟨[], 0x14 :: l :: k :: n :: r⟩)

/-- Decoding what was encoded gives the instruction back, for every well-formed instruction and every operand. -/
def Obligations.DecodingAnEncodedInstructionGivesItBack : Prop :=
  ∀ i : Instr, i.wf = true → decode (encode i) = .ok i

/-- Encoding what was decoded gives the bytes back: each word has one meaning, and the meaning is well formed. -/
def Obligations.EncodingADecodedWordGivesItBack : Prop :=
  (∀ (bytes : List Byte) (i : Instr) (rest : List Byte), decodeHost bytes = .ok (i, rest) →
    i.wf = true ∧ ∃ own, encode i = .host own ∧ own ++ rest = bytes) ∧
  (∀ (c : Chip) (m : RsMode) (b : Byte) (i : Instr), decodeBus8 c m b = .ok i → i.wf = true ∧ encode i = .bus8 c m b) ∧
  (∀ (c : Chip) (n : Nibble) (i : Instr), decodeBus4 c n = .ok i → i.wf = true ∧ encode i = .bus4 c n)

/-- 30_encoding.md R94: the length of a command is known from byte 0, and for WRITEMESSAGE from byte 3; it is 1 to 259
bytes; the next command starts at the byte after the last. -/
def Obligations.CommandLengths : Prop :=
  ∀ (op : Byte) (r : List Byte) (i : Instr) (rest : List Byte), decodeHost (op :: r) = .ok (i, rest) →
    ∃ own, op :: r = own ++ rest ∧ encode i = .host own ∧ own.length ≤ 259 ∧
      own.length =
        (if op = 0x12 then 3 else if op = 0x13 then 2
         else if op = 0x14 then 4 + ((r[2]?).map BitVec.toNat).getD 0 else 1)

/-- 10_state.md R31: the views of the assembly registers. The count of text bytes to come is exact, and a message that is
"being discarded" ends in a fault that sets one flag and does nothing else. -/
def Obligations.AssemblyViewsAreRight : Prop :=
  (∀ (asm more : List Byte) (n : Nat), asmTextLeft asm = some n → decodeHost asm = .error .incomplete →
    more.length = n → ∃ l k text, decodeHost (asm ++ more) = .ok (.writemessage l k text, [])) ∧
  (∀ (s : State) (l k : Byte) (text tail : List Byte), asmDiscarding s.state (0x14 :: l :: k :: tail) = true →
    exec (.writemessage l k text) s = .next { s with errNotReady := true } ∨
    exec (.writemessage l k text) s = .next { s with errRange := true })

/-! ### The step -/

/-- A step runs the decoded instruction: when the idle block's next input is the byte that ends a command, and no reset
follows, the step is `exec` of that command, with the byte consumed and the assembly registers cleared. That the command
runs whole in that one step is the model's choice (log 1), which 10_state.md R31 and 30_encoding.md R106 allow. -/
def Obligations.StepRunsTheDecodedCommand : Prop :=
  ∀ (s : State) (b : Byte) (rest : List Input) (i : Instr), s.seq = [] → s.inputs = .byte b :: rest →
    rstNext rest = false → decodeHost (s.asm ++ [b]) = .ok (i, []) →
    step s = exec i { s with asm := [], inputs := rest }

/-- 30_encoding.md R97: a byte that ends no command is held, and nothing else changes; with no byte the block waits. -/
def Obligations.IncompleteCommandWaits : Prop :=
  (∀ (s : State) (b : Byte) (rest : List Input), s.seq = [] → s.inputs = .byte b :: rest →
    decodeHost (s.asm ++ [b]) = .error .incomplete →
    s.cmdReady = true ∧ s.busy = false ∧ step s = .next { s with asm := s.asm ++ [b], inputs := rest }) ∧
  (∀ s : State, s.seq = [] → s.inputs = [] → s.cmdReady = true ∧ s.busy = false ∧ step s = .next s)

/-- 10_state.md R30: while busy the block accepts no byte. That a step does one operation of the sequencer is the model's
choice (log 1): R30 gives no step. An operation that is an LCD row is `exec` of that row. No reset is pending here; for a
reset counted above 0 see BusyStepCountsDownToTheReset, for one that strikes HardwareResetFromAnyState. -/
def Obligations.BusyStepRunsTheSequencer : Prop :=
  ∀ (s : State) (op : SeqOp) (ops : List SeqOp), s.seq = op :: ops → rstNext s.inputs = false →
    s.busy = true ∧ s.cmdReady = false ∧
    (∃ t, step s = .next t ∧ t = runOp op { s with seq := ops } ∧ t.inputs = s.inputs ∧ t.asm = s.asm) ∧
    (∀ i, op = .bus i → (∀ bytes, encode i ≠ .host bytes) → step s = exec i { s with seq := ops })

/-- A busy step with a reset pending that does not strike yet (log 3, the model's choice: the count is of operations) runs
one operation (log 1) and counts down; the block accepts no byte; an LCD row is `exec` of that row. -/
def Obligations.BusyStepCountsDownToTheReset : Prop :=
  ∀ (s : State) (op : SeqOp) (ops : List SeqOp) (n : Nat) (rest : List Input), s.seq = op :: ops →
    s.inputs = .rst (n + 1) :: rest →
    s.busy = true ∧ s.cmdReady = false ∧ s.rstNow = false ∧
    (∃ t, step s = .next t ∧ t = runOp op { s with seq := ops, inputs := .rst n :: rest } ∧ t.seq = ops ∧
      t.inputs = .rst n :: rest ∧ t.asm = s.asm) ∧
    (∀ i, op = .bus i → (∀ bytes, encode i ≠ .host bytes) →
      step s = exec i { s with seq := ops, inputs := .rst n :: rest })

/-- 00_scope.md R9: `exec`, `step` and the core are the machine of the default parameters (log 7); the machine of any
others is `execWith`, `stepWith`, `coreWith`, and it differs only in what a whole command does: a step that starts or runs
no command is the same for all. -/
def Obligations.DefaultMachineIsOneOfAllConfigurations : Prop :=
  (∀ (i : Instr) (s : State), exec i s = execWith Config.default i s) ∧
  (∀ s : State, step s = stepWith Config.default s) ∧
  (∀ (n : Nat) (s : State), Host.Core.run Sys2Proof.core n s = Host.Core.run (coreWith Config.default) n s) ∧
  (∀ (cfg : Config) (s : State), (s.seq ≠ [] ∨ s.inputs = [] ∨ (∃ n rest, s.inputs = .rst n :: rest) ∨
    (∃ b rest, s.inputs = .byte b :: rest ∧ decodeHost (s.asm ++ [b]) = .error .incomplete)) →
    stepWith cfg s = step s) ∧
  (∀ (cfg : Config) (i : Instr) (s : State), (∀ bytes, encode i ≠ .host bytes) → execWith cfg i s = exec i s)

/-- The command run one operation a step ends where the command run whole ends (10_state.md R30, R31). The model's two
ways of running a command (log 1) are one. -/
def Obligations.SteppedCommandEndsWhereTheWholeOneDoes : Prop :=
  ∀ (s : State) (i : Instr) (ops : List SeqOp), s.seq = [] → rstNext s.inputs = false →
    plan Config.default i s = .run ops →
    Host.Core.run Sys2Proof.core ops.length { s with seq := ops } = exec i s

/-- A command that a reset may cut is started and left to the sequencer (log 3); one that faults sets its flag at once. -/
def Obligations.CommandBeforeAResetIsStarted : Prop :=
  ∀ (s : State) (b : Byte) (n : Nat) (rest : List Input) (i : Instr), s.seq = [] →
    s.inputs = .byte b :: .rst n :: rest → decodeHost (s.asm ++ [b]) = .ok (i, []) →
    (∀ ops, plan Config.default i { s with asm := [], inputs := .rst n :: rest } = .run ops →
      step s = .next { s with asm := [], inputs := .rst n :: rest, seq := ops }) ∧
    (∀ c, plan Config.default i { s with asm := [], inputs := .rst n :: rest } = .raise c →
      step s = .next (takeFault c { s with asm := [], inputs := .rst n :: rest }))

/-! ### The host commands -/

/-- 41_facade.md R161: INIT, in either state and with whatever chips: the state it ends in, its 187 events and its 26
samples, what it leaves. Chip A is initialised completely before chip B. -/
def Obligations.InitResult : Prop :=
  ∀ s : State, ∃ t es, exec .init s = .next t ∧ emitted s t es ∧
    t.state = .ready ∧ t.line = 0 ∧ t.col = 0 ∧ t.chip = .a ∧
    (∀ a < 160, t.cell a = 0x20) ∧ (∀ a, 160 ≤ a → t.cell a = s.cell a) ∧
    t.pins = { rs := false, enA := false, enB := false, d := 0 } ∧ sameFlags s t ∧
    es.length = 187 ∧ es.head? = some (.wait .tPoweron) ∧
    samples s.pins es =
      ([3, 3, 3, 2, 2, 8, 0, 0xC, 0, 6, 0, 1].map fun n => ⟨.a, false, n⟩) ++
      ([3, 3, 3, 2, 2, 8, 0, 0xC, 0, 6, 0, 1].map fun n => ⟨.b, false, n⟩) ++
      [⟨.a, false, 8⟩, ⟨.a, false, 0⟩]

/-- 40_bus_driver.md R139, 95_test_vectors.md V-B8 and V-F1, for every configuration and from any state: the 86 events of
Initialize, each wait in its place (70_reset_and_hazards.md R234 Z5), and the 187 events of INIT: the power-on wait, Initialize
of chip A, Initialize of chip B, the position command of (0, 0); with them INIT's 26 samples and, by 00_scope.md R16, the
transfers of each chip after the four lone nibbles of its cold start. -/
def Obligations.InitEventsForEveryConfiguration : Prop :=
  ∀ (cfg : Config) (s : State),
    let pulse := fun (c : Chip) (n : Nibble) =>
      [Event.d n, .wait .tAs, .en c true, .wait .tPw, .en c false, .wait .tH]
    let transfer := fun (c : Chip) (h l : Nibble) => .rs false :: (pulse c h ++ pulse c l ++ [.wait .tCmd])
    let on : Nibble := if cfg.cursorOn then 0xE else 0xC
    let chipEvents := fun (c : Chip) =>
      Event.rs false :: (pulse c 0x3 ++ [.wait .tInit1] ++ pulse c 0x3 ++ [.wait .tInit2] ++
        pulse c 0x3 ++ [.wait .tInit2] ++ pulse c 0x2 ++ [.wait .tCmd] ++
        transfer c 0x2 0x8 ++ transfer c 0x0 on ++ transfer c 0x0 0x6 ++ transfer c 0x0 0x1 ++ [.wait .tClear])
    let sent := fun (c : Chip) => [3, 3, 3, 2, 2, 8, 0, on, 0, 6, 0, 1].map fun n => Sample.mk c false n
    let home : Nibble × Nibble :=
      (BitVec.ofNat 4 (8 + cfg.rowBase0.toNat / 16), BitVec.ofNat 4 (cfg.rowBase0.toNat % 16))
    let commands := fun (c : Chip) =>
      [Transfer.cmd c 0x28, .cmd c (if cfg.cursorOn then 0x0E else 0x0C), .cmd c 0x06, .cmd c 0x01]
    (∀ c, (chipEvents c).length = 86 ∧ emitted s (runOps (initializeOps cfg c) s) (chipEvents c)) ∧
    ∃ t es, execWith cfg .init s = .next t ∧ emitted s t es ∧ t.state = .ready ∧
      es = .wait .tPoweron :: (chipEvents .a ++ chipEvents .b ++ transfer .a home.1 home.2) ∧ es.length = 187 ∧
      samples s.pins es = sent .a ++ sent .b ++ [⟨.a, false, home.1⟩, ⟨.a, false, home.2⟩] ∧
      chipTransfers .a s.pins es = commands .a ++ [.cmd .a (0x80#8 ||| cfg.rowBase0.setWidth 8)] ∧
      chipTransfers .b s.pins es = commands .b

/-- 41_facade.md R161: "`state` becomes Ready only as the last action", for every configuration: after any shorter part
of INIT's operations `state` is what it was. -/
def Obligations.InitBecomesReadyLast : Prop :=
  ∀ (cfg : Config) (s : State), ∃ ops, initPlan cfg = .run ops ∧ (runOps ops s).state = .ready ∧
    ∀ k < ops.length, (runOps (ops.take k) s).state = s.state

/-- 20_memory.md R74 with 40_bus_driver.md R139: INIT brings both chips into step with the block from any state they may
be in (environment model, with the default ROW_BASE). -/
def Obligations.InitBringsTheChipsIntoStep : Prop :=
  ∀ s : State, ∃ t, exec .init s = .next t ∧ t.tracked

/-- 41_facade.md R162: CLEAR. -/
def Obligations.ClearResult : Prop :=
  (∀ s : State, s.state = .ready → ∃ t es, exec .clear s = .next t ∧ emitted s t es ∧
    t.state = .ready ∧ t.line = 0 ∧ t.col = 0 ∧ t.chip = .a ∧
    (∀ a < 160, t.cell a = 0x20) ∧ (∀ a, 160 ≤ a → t.cell a = s.cell a) ∧
    t.pins = { rs := false, enA := false, enB := false, d := 0 } ∧ sameFlags s t ∧ es.length = 44 ∧
    transfers s.pins es = [.cmd .a 0x01, .cmd .b 0x01, .cmd .a 0x80]) ∧
  (∀ s : State, s.state = .uninitialized → exec .clear s = .next { s with errNotReady := true })

/-- 41_facade.md R162, 20_memory.md R66: a second CLEAR emits the same events again and ends in the same state; with chips
in step the chips end in the same state too. -/
def Obligations.ClearTwiceEndsInTheSameState : Prop :=
  ∀ s : State, s.state = .ready → ∃ t u es, exec .clear s = .next t ∧ exec .clear t = .next u ∧
    emitted s t es ∧ emitted t u es ∧
    (∀ a, u.cell a = t.cell a) ∧ u.line = t.line ∧ u.col = t.col ∧ u.chip = t.chip ∧ u.state = t.state ∧
    u.pins = t.pins ∧ sameFlags t u ∧
    (s.lcdA.inStep → s.lcdB.inStep → u.lcdA = t.lcdA ∧ u.lcdB = t.lcdB)

/-- 41_facade.md R163: SETCURSOR, for every operand byte and both states, with the default ROW_BASE: one position command
to the chip that owns the line, the cursor, and nothing else; or one flag and nothing else. -/
def Obligations.SetcursorResult : Prop :=
  (∀ (l k : Byte) (s : State), s.state = .ready → l.toNat ≤ 3 → k.toNat ≤ 39 →
    ∃ t es, exec (.setcursor l k) s = .next t ∧ emitted s t es ∧
      t.line.toNat = l.toNat ∧ t.col.toNat = k.toNat ∧ t.chip = (if l.toNat < 2 then .a else .b) ∧
      t.state = .ready ∧ (∀ a, t.cell a = s.cell a) ∧ sameFlags s t ∧ es.length = 14 ∧
      transfers s.pins es =
        [.cmd (if l.toNat < 2 then .a else .b)
          (BitVec.ofNat 8 (0x80 + (if l.toNat % 2 = 0 then 0 else 0x40) + k.toNat))] ∧
      (s.lcdA.inStep → s.lcdB.inStep → ∀ c a, (t.lcd c).ddram.read a = (s.lcd c).ddram.read a)) ∧
  (∀ (l k : Byte) (s : State), s.state = .uninitialized →
    exec (.setcursor l k) s = .next { s with errNotReady := true }) ∧
  (∀ (l k : Byte) (s : State), s.state = .ready → (3 < l.toNat ∨ 39 < k.toNat) →
    exec (.setcursor l k) s = .next { s with errRange := true })

/-- 20_memory.md R57, R58, 30_encoding.md R100, for every configuration that meets R9's constraint: SETCURSOR sends
`0x80 | (ROW_BASE[line mod 2] + col)` to `chipOf(line)`, and the address does not overflow its seven bits. -/
def Obligations.PositionCommandForEveryRowBase : Prop :=
  ∀ (cfg : Config) (l k : Byte) (s : State), cfg.wf = true → s.state = .ready → l.toNat ≤ 3 → k.toNat ≤ 39 →
    let base := if l.toNat % 2 = 0 then cfg.rowBase0.toNat else cfg.rowBase1.toNat
    base + k.toNat ≤ 0x7F ∧ (ctrlAddr cfg (lineOf l) (colOf k)).toNat = base + k.toNat ∧
    ∃ t es, execWith cfg (.setcursor l k) s = .next t ∧ emitted s t es ∧
      transfers s.pins es =
        [.cmd (if l.toNat < 2 then .a else .b) (0x80#8 ||| BitVec.ofNat 8 (base + k.toNat))]

/-- 41_facade.md R164, R170, R165 at columns 0..38: one data transfer to the chip in `chip`, the cell under the cursor, the
next column, nothing else. -/
def Obligations.WritecharWithinALine : Prop :=
  ∀ (ch : Byte) (s : State), s.state = .ready → s.col.toNat < 39 →
    ∃ t es, exec (.writechar ch) s = .next t ∧ emitted s t es ∧
      t.line = s.line ∧ t.col.toNat = s.col.toNat + 1 ∧ t.chip = s.chip ∧ t.state = .ready ∧
      t.cell (s.line.toNat * 40 + s.col.toNat) = ch ∧
      (∀ a, a ≠ s.line.toNat * 40 + s.col.toNat → t.cell a = s.cell a) ∧ sameFlags s t ∧
      es.length = 14 ∧ transfers s.pins es = [.dat s.chip ch] ∧ displayWrite s t ch

/-- 41_facade.md R165 at column 39 of lines 0, 1 and 2: the data transfer, then the position command of the next line; the
cursor goes to its column 0, and no line is scrolled. -/
def Obligations.WritecharWrapsToTheNextLine : Prop :=
  ∀ (ch : Byte) (s : State), s.state = .ready → s.col = 39 → s.line.toNat < 3 →
    ∃ t es, exec (.writechar ch) s = .next t ∧ emitted s t es ∧
      t.line.toNat = s.line.toNat + 1 ∧ t.col = 0 ∧ t.chip = (if s.line.toNat + 1 < 2 then .a else .b) ∧
      t.state = .ready ∧ t.cell (s.line.toNat * 40 + 39) = ch ∧
      (∀ a, a ≠ s.line.toNat * 40 + 39 → t.cell a = s.cell a) ∧ sameFlags s t ∧ es.length = 28 ∧
      transfers s.pins es =
        [.dat s.chip ch,
         .cmd (if s.line.toNat + 1 < 2 then .a else .b) (if (s.line.toNat + 1) % 2 = 0 then 0x80 else 0xC0)] ∧
      displayWrite s t ch

/-- 41_facade.md R166, R165 at (3, 39): the roll-up. Lines 0 to 2 hold what lines 1 to 3 held (the new character among it),
line 3 is blank, all 160 cells are sent again line by line, the cursor is (3, 0) on chip B. It holds whatever the cells hold,
a cell nothing has written since hardware reset among them (log 5). -/
def Obligations.WritecharRollsUpAtTheEnd : Prop :=
  ∀ (ch : Byte) (s : State), s.state = .ready → s.line = 3 → s.col = 39 →
    ∃ (t : State) (es : List Event) (cells : List Byte), exec (.writechar ch) s = .next t ∧ emitted s t es ∧
      t.line = 3 ∧ t.col = 0 ∧ t.chip = .b ∧ t.state = .ready ∧
      (∀ a < 119, t.cell a = s.cell (a + 40)) ∧ t.cell 119 = ch ∧
      (∀ a, 120 ≤ a → a < 160 → t.cell a = 0x20) ∧ (∀ a, 160 ≤ a → t.cell a = s.cell a) ∧
      sameFlags s t ∧ es.length = 2324 ∧
      cells.length = 160 ∧ (∀ a < 160, some (t.cell a) = cells[a]?) ∧
      transfers s.pins es =
        [.dat s.chip ch] ++
        .cmd .a 0x80 :: (cells.take 40).map (.dat .a) ++
        .cmd .a 0xC0 :: ((cells.drop 40).take 40).map (.dat .a) ++
        .cmd .b 0x80 :: ((cells.drop 80).take 40).map (.dat .b) ++
        .cmd .b 0xC0 :: ((cells.drop 120).take 40).map (.dat .b) ++ [.cmd .b 0xC0]

/-- The model's own stop (log 14), in states no run from reset reaches: a cursor column above 39 has no cell (20_memory.md
R60). WRITECHAR stops there and nowhere else, whatever the cells hold. -/
def Obligations.WritecharStopsOnlyOutsideTheInvariant : Prop :=
  (∀ (ch : Byte) (s : State), s.state = .ready → 39 < s.col.toNat →
    exec (.writechar ch) s = .fault .cursorOutOfRange) ∧
  (∀ (ch : Byte) (s : State), s.col.toNat ≤ 39 → ∃ t, exec (.writechar ch) s = .next t) ∧
  (∀ (ch : Byte) (s : State) (f : Fault), exec (.writechar ch) s = .fault f →
    f = .cursorOutOfRange ∧ s.state = .ready ∧ ¬ s.cursorOk)

/-- 30_encoding.md R105: WRITEMESSAGE is SETCURSOR and then a WRITECHAR for each byte, with the identical state and
trace, when the block is Ready and the position in range; otherwise it is dropped whole and sets one flag. -/
def Obligations.WritemessageIsSetcursorThenWritechars : Prop :=
  (∀ (l k : Byte) (text : List Byte) (s : State), s.state = .ready → l.toNat ≤ 3 → k.toNat ≤ 39 →
    exec (.writemessage l k text) s =
      text.foldl (fun o ch => andThen o (exec (.writechar ch))) (exec (.setcursor l k) s)) ∧
  (∀ (l k : Byte) (text : List Byte) (s : State), s.state = .uninitialized →
    exec (.writemessage l k text) s = .next { s with errNotReady := true }) ∧
  (∀ (l k : Byte) (text : List Byte) (s : State), s.state = .ready → (3 < l.toNat ∨ 39 < k.toNat) →
    exec (.writemessage l k text) s = .next { s with errRange := true })

/-- 41_facade.md R167: WRITEMESSAGE completes, whatever the text, whatever the cells hold and however often it rolls up; the
cursor stays in range with `chip = chipOf(line)`, flags are left, and a written cell stays written. -/
def Obligations.WritemessageCompletes : Prop :=
  ∀ (l k : Byte) (text : List Byte) (s : State), s.state = .ready → l.toNat ≤ 3 → k.toNat ≤ 39 →
    ∃ t, exec (.writemessage l k text) s = .next t ∧ t.state = .ready ∧ t.cursorOk ∧ sameFlags s t ∧
      ∀ a, (s.buf.read a).isSome → (t.buf.read a).isSome

/-- 41_facade.md R167: an empty text "behaves exactly as SETCURSOR l, k", in every state. -/
def Obligations.EmptyMessageIsSetcursor : Prop :=
  ∀ (l k : Byte) (s : State), exec (.writemessage l k []) s = exec (.setcursor l k) s

/-- 41_facade.md R165, R167, 20_memory.md R63: a text that ends before (3, 39) fills consecutive cells across line and chip
boundaries, and nothing scrolls: no other cell changes; the cursor ends at the cell after the last byte. No cell need have
a value before. -/
def Obligations.MessageFillsConsecutiveCells : Prop :=
  ∀ (l k : Byte) (text : List Byte) (s : State), s.state = .ready → l.toNat ≤ 3 → k.toNat ≤ 39 →
    l.toNat * 40 + k.toNat + text.length < 160 →
    ∃ t, exec (.writemessage l k text) s = .next t ∧ t.state = .ready ∧
      t.line.toNat = (l.toNat * 40 + k.toNat + text.length) / 40 ∧
      t.col.toNat = (l.toNat * 40 + k.toNat + text.length) % 40 ∧ t.chip = chipOf t.line ∧
      (∀ i < text.length, some (t.cell (l.toNat * 40 + k.toNat + i)) = text[i]?) ∧
      (∀ a, (a < l.toNat * 40 + k.toNat ∨ l.toNat * 40 + k.toNat + text.length ≤ a) → t.cell a = s.cell a) ∧
      sameFlags s t

/-- 41_facade.md R167, the source's boundary case: two characters from (3, 39). -/
def Obligations.MessageAcrossTheLastCell : Prop :=
  ∀ (c d : Byte) (s : State), s.state = .ready →
    ∃ t, exec (.writemessage 3 39 [c, d]) s = .next t ∧
      t.line = 3 ∧ t.col = 1 ∧ t.chip = .b ∧ (∀ a < 119, t.cell a = s.cell (a + 40)) ∧
      t.cell 119 = c ∧ t.cell 120 = d ∧
      (∀ a, 121 ≤ a → a < 160 → t.cell a = 0x20)

/-- 41_facade.md R167, the source's roll-up case: 161 characters from (0, 0), whatever they are and whatever the buffer
held: the first forty are gone, the 161st is at (3, 0). -/
def Obligations.Message161RollsUpOnce : Prop :=
  ∀ (text : List Byte) (s : State), s.state = .ready → text.length = 161 →
    ∃ t, exec (.writemessage 0 0 text) s = .next t ∧
      t.line = 3 ∧ t.col = 1 ∧ t.chip = .b ∧ (∀ a < 120, some (t.cell a) = text[a + 40]?) ∧
      some (t.cell 120) = text[160]? ∧ (∀ a, 121 ≤ a → a < 160 → t.cell a = 0x20)

/-! ### Faults -/

/-- 30_encoding.md R95, 60_exceptions.md R202: a reserved byte in opcode position is one byte long, sets `err_opcode` in
either state, and does nothing else; the byte after it is again an opcode. -/
def Obligations.ReservedOpcodeSetsItsFlag : Prop :=
  (∀ (op : Byte) (s : State), exec (.reserved op) s = .next { s with errOpcode := true }) ∧
  (∀ (b : Byte) (rest : List Input) (s : State), isHostOpcode b = false → s.seq = [] → s.asm = [] →
    s.inputs = .byte b :: rest → step s = .next { s with inputs := rest, errOpcode := true })

/-- 60_exceptions.md R203: before INIT the four commands set `err_not_ready` and do nothing else, whatever their operands;
a step that completes one has consumed its bytes. -/
def Obligations.NotReadyFaultDropsTheCommand : Prop :=
  ∀ (i : Instr) (s : State), s.state = .uninitialized →
    (i = .clear ∨ (∃ l k, i = .setcursor l k) ∨ (∃ ch, i = .writechar ch) ∨ (∃ l k text, i = .writemessage l k text)) →
    exec i s = .next { s with errNotReady := true } ∧
    (∀ (b : Byte) (rest : List Input), s.seq = [] → s.inputs = .byte b :: rest →
      decodeHost (s.asm ++ [b]) = .ok (i, []) → step s = .next { s with asm := [], inputs := rest, errNotReady := true })

/-- 60_exceptions.md R205: out of range in state Ready, SETCURSOR and WRITEMESSAGE set `err_range` and do nothing else; the
comparison is of whole bytes; a step that completes one has consumed its bytes, text included. -/
def Obligations.RangeFaultDropsTheCommand : Prop :=
  ∀ (l k : Byte) (text : List Byte) (i : Instr) (s : State), s.state = .ready → (3 < l.toNat ∨ 39 < k.toNat) →
    (i = .setcursor l k ∨ i = .writemessage l k text) →
    exec i s = .next { s with errRange := true } ∧
    (∀ (b : Byte) (rest : List Input), s.seq = [] → s.inputs = .byte b :: rest →
      decodeHost (s.asm ++ [b]) = .ok (i, []) → step s = .next { s with asm := [], inputs := rest, errRange := true })

/-- 60_exceptions.md R204, R206: a command has all of its effects or none: it changes no flag, or sets one and does
nothing else. -/
def Obligations.ACommandRaisesAtMostOneFault : Prop :=
  ∀ (i : Instr) (s t : State), exec i s = .next t →
    (∀ c, t.flag c = s.flag c) ∨ ∃ c, t = s.setFlag c

/-- 60_exceptions.md R209, 10_state.md R26: once set, a flag stays set through every step that is no hardware reset. -/
def Obligations.FaultFlagsAreSticky : Prop :=
  ∀ (s t : State) (c : FaultCode), step s = .next t → s.rstNow = false → s.flag c = true → t.flag c = true

/-- 41_facade.md R169, 10_state.md R25: only INIT makes the block Ready; nothing but hardware reset leaves Ready. -/
def Obligations.OnlyInitMakesReadyAndNothingLeavesIt : Prop :=
  (∀ (i : Instr) (s t : State), exec i s = .next t → s.state = .uninitialized → t.state = .ready → i = .init) ∧
  (∀ s t : State, step s = .next t → s.rstNow = false → s.state = .ready → t.state = .ready)

/-- Every instruction completes from every state with the column in range, whatever the cells hold: no fault, no refusal. -/
def Obligations.EveryInstructionCompletes : Prop :=
  ∀ (i : Instr) (s : State), s.col.toNat ≤ 39 → ∃ t, exec i s = .next t

/-! ### The bus -/

/-- 40_bus_driver.md R136 to R139, R142: each LCD byte row completes in every state with exactly the events of its
WriteByte (and the settle wait of the clear), and leaves everything but pins, trace and chips (R130). -/
def Obligations.LcdByteRowsEmitTheirEvents : Prop :=
  ∀ (c : Chip) (addr : BitVec 7) (d : Byte) (s : State),
    let transfer := fun (rs : Bool) (h l : Nibble) =>
      [Event.rs rs, .d h, .wait .tAs, .en c true, .wait .tPw, .en c false, .wait .tH,
       .d l, .wait .tAs, .en c true, .wait .tPw, .en c false, .wait .tH, .wait .tCmd]
    let does := fun (i : Instr) (es : List Event) => ∃ t, exec i s = .next t ∧ emitted s t es ∧ sameFacade s t
    does (.lcdClear c) (transfer false 0x0 0x1 ++ [.wait .tClear]) ∧
    does (.lcdDisplayOnNocursor c) (transfer false 0x0 0xC) ∧
    does (.lcdDisplayOnCursor c) (transfer false 0x0 0xE) ∧
    does (.lcdSetPosition c addr)
      (transfer false (BitVec.ofNat 4 (8 + addr.toNat / 16)) (BitVec.ofNat 4 (addr.toNat % 16))) ∧
    does (.lcdFunctionSet c) (transfer false 0x2 0x8) ∧
    does (.lcdEntryMode c) (transfer false 0x0 0x6) ∧
    does (.lcdData c d) (transfer true (BitVec.ofNat 4 (d.toNat / 16)) (BitVec.ofNat 4 (d.toNat % 16)))

/-- 40_bus_driver.md R139, 30_encoding.md R102: each cold-start row is one lone nibble and one pulse (log 9: the
register-select level is the one set before the four). -/
def Obligations.ColdstartRowsEmitTheirEvents : Prop :=
  ∀ (c : Chip) (s : State),
    let nibble := fun (n : Nibble) =>
      [Event.d n, .wait .tAs, .en c true, .wait .tPw, .en c false, .wait .tH]
    let does := fun (i : Instr) (n : Nibble) => ∃ t, exec i s = .next t ∧ emitted s t (nibble n) ∧ sameFacade s t ∧
      samples s.pins (nibble n) = [⟨c, s.pins.rs, n⟩]
    does (.lcdColdstart8bit c) 0x3 ∧ does (.lcdColdstart4bit c) 0x2

/-- 20_memory.md R73 (environment model): what a data byte, a position command and a clear do to the chips. The addressed
chip, in step, takes the data byte at its address and moves on, or takes the address, or is blanked; the other chip is
untouched, whatever its state. The cells and steps are used whatever the chip's two-line bit holds (log 21). -/
def Obligations.LcdRowsActOnTheirChipOnly : Prop :=
  (∀ (c : Chip) (d : Byte) (s : State), (s.lcd c).inStep →
    ((s.lcd c).regs.ac.toNat ≤ 0x27 ∨ 0x40 ≤ (s.lcd c).regs.ac.toNat ∧ (s.lcd c).regs.ac.toNat ≤ 0x67) →
    ∃ t, exec (.lcdData c d) s = .next t ∧ (t.lcd c).inStep ∧
      (t.lcd c).regs = { (s.lcd c).regs with
        latch := BitVec.ofNat 4 (d.toNat / 16)
        ac := if (s.lcd c).regs.ac = 0x27 then 0x40 else if (s.lcd c).regs.ac = 0x67 then 0x00
          else (s.lcd c).regs.ac + 1 } ∧
      (t.lcd c).ddram.read (s.lcd c).regs.ac.toNat = some d ∧
      (∀ a, a ≠ (s.lcd c).regs.ac.toNat → (t.lcd c).ddram.read a = (s.lcd c).ddram.read a)) ∧
  (∀ (c : Chip) (addr : BitVec 7) (s : State), (s.lcd c).inStep →
    ∃ t, exec (.lcdSetPosition c addr) s = .next t ∧ (t.lcd c).inStep ∧
      t.lcd c = { s.lcd c with
        regs := { (s.lcd c).regs with latch := BitVec.ofNat 4 (8 + addr.toNat / 16), ac := addr } }) ∧
  (∀ (c : Chip) (s : State), (s.lcd c).inStep →
    ∃ t, exec (.lcdClear c) s = .next t ∧ (t.lcd c).inStep ∧
      (t.lcd c).regs = { (s.lcd c).regs with latch := 0, ac := 0, incr := true } ∧
      ∀ a, (t.lcd c).ddram.read a = if a ≤ 0x27 ∨ 0x40 ≤ a ∧ a ≤ 0x67 then some 0x20 else none) ∧
  (∀ (i : Instr) (c c' : Chip) (s t : State), exec i s = .next t → c' ≠ c →
    (i = .lcdClear c ∨ i = .lcdDisplayOnNocursor c ∨ i = .lcdDisplayOnCursor c ∨
      (∃ addr, i = .lcdSetPosition c addr) ∨ i = .lcdFunctionSet c ∨ i = .lcdEntryMode c ∨
      (∃ d, i = .lcdData c d) ∨ i = .lcdColdstart8bit c ∨ i = .lcdColdstart4bit c) →
    t.lcd c' = s.lcd c')

/-- 20_memory.md R73 (environment model): what the rows that set a chip's registers do to it, and that they touch no display
cell: function set 0x28, entry mode 0x06, display on 0x0C and 0x0E on a chip in step (which keeps its address); and, on a
chip in 8-bit mode with register-select at COMMAND, the two cold-start nibbles, whose low four inputs nothing drives. -/
def Obligations.LcdCommandRowsSetTheChipsRegisters : Prop :=
  ∀ (c : Chip) (s : State),
    let gives := fun (i : Instr) (regs : LcdRegs) => ∃ t, exec i s = .next t ∧ t.lcd c = { s.lcd c with regs := regs }
    ((s.lcd c).inStep →
      gives (.lcdFunctionSet c)
        { (s.lcd c).regs with latch := 0x2, mode8 := false, twoLine := true, font5x10 := false, phase := false } ∧
      gives (.lcdEntryMode c) { (s.lcd c).regs with latch := 0x0, incr := true, shiftOnWrite := false } ∧
      gives (.lcdDisplayOnNocursor c)
        { (s.lcd c).regs with latch := 0x0, displayOn := true, cursorShown := false, blink := false } ∧
      gives (.lcdDisplayOnCursor c)
        { (s.lcd c).regs with latch := 0x0, displayOn := true, cursorShown := true, blink := false }) ∧
    ((s.lcd c).regs.mode8 = true → s.pins.rs = false →
      (∃ two big, gives (.lcdColdstart8bit c)
        { (s.lcd c).regs with mode8 := true, phase := false, twoLine := two, font5x10 := big }) ∧
      ∃ two big, gives (.lcdColdstart4bit c)
        { (s.lcd c).regs with mode8 := false, phase := false, twoLine := two, font5x10 := big })

/-- 40_bus_driver.md R141: the levels left behind by a WriteByte, and by an Initialize for every configuration; a level
persists until the next event that writes it. -/
def Obligations.LevelsLeftBehind : Prop :=
  (∀ (c : Chip) (m : RsMode) (b : Byte) (s : State), s.pins.idle = true →
    let p := (emitAll (writeByteEvents c m b) s).pins
    p.rs = decide (m = .data) ∧ p.d.toNat = b.toNat % 16 ∧ p.enA = false ∧ p.enB = false) ∧
  (∀ (cfg : Config) (c : Chip) (s : State), s.pins.idle = true →
    (runOps (initializeOps cfg c) s).pins = { rs := false, enA := false, enB := false, d := 0x1 }) ∧
  (∀ (e : Event) (s : State),
    ((∀ b, e ≠ .rs b) → (emit e s).pins.rs = s.pins.rs) ∧ ((∀ n, e ≠ .d n) → (emit e s).pins.d = s.pins.d) ∧
    ((∀ b, e ≠ .en .a b) → (emit e s).pins.enA = s.pins.enA) ∧ ((∀ b, e ≠ .en .b b) → (emit e s).pins.enB = s.pins.enB))

/-- 40_bus_driver.md R135, 70_reset_and_hazards.md R234 Z1, Z2, Z3, Z8, for every instruction: no RS, no D and no second
rising edge while an enable line is high; every pulse with its set-up, width and hold waits; both lines low at the end. -/
def Obligations.EveryInstructionRespectsTheBus : Prop :=
  ∀ (i : Instr) (s t : State), exec i s = .next t → s.pins.idle = true →
    ∃ es, emitted s t es ∧ stableBus s.pins es = true ∧ timedPulses es = true ∧ t.pins = pinsAfter s.pins es ∧
      t.pins.idle = true

/-- 41_facade.md R173 (c): every host command but INIT sends each chip an even number of samples, and INIT an even
number after the four lone nibbles of each Initialize (twelve and two to A, twelve to B). -/
def Obligations.SamplesComeInPairs : Prop :=
  (∀ (i : Instr) (s t : State) (es : List Event) (c : Chip), exec i s = .next t → emitted s t es →
    s.pins.idle = true → (∃ bytes, encode i = .host bytes) →
    ((samples s.pins es).filter fun x => decide (x.chip = c)).length % 2 = 0) ∧
  (∀ (s t : State) (es : List Event), exec .init s = .next t → emitted s t es →
    ((samples s.pins es).filter fun x => decide (x.chip = .a)).length = 14 ∧
    ((samples s.pins es).filter fun x => decide (x.chip = .b)).length = 12)

/-- 00_scope.md R16: the transfer sequence of one chip is what the bus carried to it in the order of the bus, for every
instruction and configuration without lone nibbles. (With them: InitEventsForEveryConfiguration.) -/
def Obligations.TransfersOfOneChip : Prop :=
  ∀ (cfg : Config) (c : Chip) (i : Instr) (s t : State) (es : List Event), execWith cfg i s = .next t → emitted s t es →
    i ≠ .init → (∀ c', i ≠ .lcdColdstart8bit c') → (∀ c', i ≠ .lcdColdstart4bit c') →
    chipTransfers c s.pins es = (transfers s.pins es).filter fun x => decide (x.chip = c)

/-- 70_reset_and_hazards.md R237, for every value of the time parameters: the least duration of each command. -/
def Obligations.CommandDurations : Prop :=
  ∀ (time : TimeParam → Nat) (s t : State) (es : List Event), emitted s t es →
    let byte := 2 * (time .tAs + time .tPw + time .tH) + time .tCmd
    let oneChip := 4 * (time .tAs + time .tPw + time .tH) + time .tInit1 + 2 * time .tInit2 + time .tCmd +
      4 * byte + time .tClear
    (exec .init s = .next t → duration time es = time .tPoweron + 2 * oneChip + byte) ∧
    (exec .clear s = .next t → s.state = .ready → duration time es = 3 * byte + 2 * time .tClear) ∧
    (∀ l k, exec (.setcursor l k) s = .next t → s.state = .ready → l.toNat ≤ 3 → k.toNat ≤ 39 →
      duration time es = byte) ∧
    (∀ ch, exec (.writechar ch) s = .next t → s.state = .ready → s.col.toNat < 39 → duration time es = byte) ∧
    (∀ ch, exec (.writechar ch) s = .next t → s.state = .ready → s.col = 39 → s.line.toNat < 3 →
      duration time es = 2 * byte) ∧
    (∀ ch, exec (.writechar ch) s = .next t → s.state = .ready → s.col = 39 → s.line = 3 →
      duration time es = 166 * byte) ∧
    (∀ l k text, exec (.writemessage l k text) s = .next t → s.state = .ready → l.toNat ≤ 3 →
      k.toNat + text.length ≤ 39 → duration time es = (1 + text.length) * byte) ∧
    (∀ i c, exec i s = .next t → plan Config.default i s = .raise c → es = [] ∧ duration time es = 0)

/-- 00_scope.md R9, 60_exceptions.md R212: `ceil(P * F_CLK)` is the least number of cycles that lasts P; under R9's
constraints the pulse width, the settle wait and the two cold-start waits take at least one. -/
def Obligations.WaitCyclesAreTheLeastEnough : Prop :=
  (∀ (x : Timing) (p : TimeParam), x.time p * x.fClk ≤ x.waitCycles p * 1000000000 ∧
    ∀ n, x.time p * x.fClk ≤ n * 1000000000 → x.waitCycles p ≤ n) ∧
  (∀ x : Timing, x.wf = true → 0 < x.waitCycles .tPw ∧ 0 < x.waitCycles .tCmd ∧ 0 < x.waitCycles .tInit1 ∧
    0 < x.waitCycles .tInit2) ∧
  (∀ hz, 0 < hz → (Timing.default hz).wf = true)

/-! ### Translation -/

/-- 20_memory.md R55, R56: the chip and the row of a line. -/
def Obligations.LinesBelongToTheirChips : Prop :=
  (∀ l : BitVec 2, chipOf l = if l.toNat < 2 then .a else .b) ∧
  (∀ l : BitVec 2, (chipOf l = .b ↔ l.getLsbD 1 = true)) ∧ ∀ l : BitVec 2, (rowOf l).toNat = l.toNat % 2

/-- 20_memory.md R51, R59: `idx` is a bijection onto 0..159, and for every configuration that meets R9's constraint a
position has its own chip and address. -/
def Obligations.PositionsAndCellsAreOneToOne : Prop :=
  (∀ (l : BitVec 2) (k : BitVec 6), k ≤ 39 →
    (idx l k).toNat = l.toNat * 40 + k.toNat ∧ (idx l k).toNat < 160 ∧
    (idx l k).toNat / 40 = l.toNat ∧ (idx l k).toNat % 40 = k.toNat) ∧
  (∀ i < 160, ∃ (l : BitVec 2) (k : BitVec 6), k ≤ 39 ∧ (idx l k).toNat = i) ∧
  (∀ (cfg : Config) (l l' : BitVec 2) (k k' : BitVec 6), cfg.wf = true → k ≤ 39 → k' ≤ 39 →
    chipOf l = chipOf l' → ctrlAddr cfg l k = ctrlAddr cfg l' k' → l = l' ∧ k = k')

/-! ### Invariants -/

/-- The invariants hold at reset. -/
def Obligations.ResetMeetsTheInvariants : Prop := State.reset.Inv ∧ State.reset.TrackingInv

/-- 41_facade.md R173 (a), (b), 10_state.md R24, and the memories' canonical form: every step keeps them, and every step
of a block built with any parameters. -/
def Obligations.EveryStepKeepsTheInvariant : Prop :=
  (∀ s t : State, s.Inv → step s = .next t → t.Inv) ∧
  ∀ (cfg : Config) (s t : State), s.Inv → stepWith cfg s = .next t → t.Inv

/-- Under the invariant the machine never stops, whatever its parameters: the three faults of the spec are next states
(60_exceptions.md R209). -/
def Obligations.TheMachineNeverStops : Prop :=
  (∀ s : State, s.Inv → ∃ t, step s = .next t) ∧
  ∀ (cfg : Config) (s : State), s.Inv → ∃ t, stepWith cfg s = .next t

/-- 20_memory.md R74, R72, 41_facade.md R173 (d) (environment model, default ROW_BASE): every step keeps the display and
the shadow buffer equal and the chip's address at the cursor, with either DISPLAY_ON_CMD. -/
def Obligations.EveryStepKeepsTheDisplayTracking : Prop :=
  (∀ s t : State, s.TrackingInv → step s = .next t → t.TrackingInv) ∧
  ∀ (on : Bool) (s t : State), s.TrackingInv → stepWith { Config.default with cursorOn := on } s = .next t →
    t.TrackingInv

/-- Every step keeps the three memories in canonical form, from any state, whatever the parameters. -/
def Obligations.EveryStepKeepsTheMemoriesCanonical : Prop :=
  ∀ s t : State, s.buf.wf = true → s.lcdA.ddram.wf = true → s.lcdB.ddram.wf = true →
    (step s = .next t ∨ ∃ cfg, stepWith cfg s = .next t) →
    t.buf.wf = true ∧ t.lcdA.ddram.wf = true ∧ t.lcdB.ddram.wf = true
end

