-- ==== Sys2Proof/Laws/Decode.lean ====
section
/-! SUPPORT. What the host decoder can answer, said once (30_encoding.md R94 to R97). -/

namespace Sys2Proof

/-- A command takes at least one byte. -/
theorem decodeHost_shorter {bytes : List Byte} {i : Instr} {r : List Byte} (h : decodeHost bytes = .ok (i, r)) :
    r.length < bytes.length := by
  unfold decodeHost at h
  split at h
  · cases h
  · split_ifs at h
    · cases h; simp
    · cases h; simp
    · split at h <;> cases h; simp; omega
    · split at h <;> cases h; simp
    · split at h
      · split at h <;> cases h; simp; omega
      · cases h
    · cases h; simp

/-- A byte list that is no command and not empty is the beginning of one (R96: every byte in opcode position has a
meaning). -/
theorem decodeHost_error {bytes : List Byte} {e : Reject} (hne : bytes ≠ []) (h : decodeHost bytes = .error e) :
    e = .incomplete := by
  unfold decodeHost at h
  split at h
  · simp at hne
  · split_ifs at h
    · split at h
      · cases h
      · cases h; rfl
    · split at h
      · cases h
      · cases h; rfl
    · split at h
      · split at h
        · cases h
        · cases h; rfl
      · cases h; rfl

/-- A byte that completes a command leaves no byte over (R97). -/
theorem decodeHost_left {asm : List Byte} {b : Byte} {i : Instr} {left : List Byte}
    (ha : asm = [] ∨ decodeHost asm = .error .incomplete) (h : decodeHost (asm ++ [b]) = .ok (i, left)) : left = [] := by
  rcases ha with rfl | ha
  · simp only [List.nil_append, decodeHost] at h
    split_ifs at h <;> cases h <;> rfl
  · unfold decodeHost at ha
    split at ha
    · cases ha
    · next op r =>
      split_ifs at ha with h1 h2 h3 h4 h5
      · subst h3
        rcases r with _ | ⟨l, _ | ⟨k, r⟩⟩ <;> simp [decodeHost] at h ha
        simp [h]
      · subst h4
        rcases r with _ | ⟨l, r⟩ <;> simp [decodeHost] at h ha
        simp [h]
      · subst h5
        rcases r with _ | ⟨l, _ | ⟨k, _ | ⟨n, r⟩⟩⟩ <;> simp [decodeHost] at h ha
        · split at h <;> cases h; rfl
        · split at h <;> cases h; simp; omega

/-- Any two bounds that are long enough give the same stream. -/
theorem decodeStreamFuel_eq {n m : Nat} {bytes : List Byte} (hn : bytes.length ≤ n) (hm : bytes.length ≤ m) :
    decodeStreamFuel n bytes = decodeStreamFuel m bytes := by
  induction n generalizing m bytes with
  | zero =>
    have : bytes = [] := by simpa using hn
    subst this
    cases m <;> rfl
  | succ n ih =>
    cases m with
    | zero =>
      have : bytes = [] := by simpa using hm
      subst this; rfl
    | succ m =>
      simp only [decodeStreamFuel]
      split
      · next i r h =>
        have := decodeHost_shorter h
        rw [ih (m := m) (by omega) (by omega)]
      · rfl

/-- The stream of a command and what follows it. -/
theorem decodeStream_ok {bytes : List Byte} {i : Instr} {r : List Byte} (h : decodeHost bytes = .ok (i, r)) :
    decodeStream bytes = ⟨i :: (decodeStream r).commands, (decodeStream r).rest⟩ := by
  have hl := decodeHost_shorter h
  obtain ⟨k, hk⟩ : ∃ k, bytes.length = k + 1 := ⟨bytes.length - 1, by omega⟩
  unfold decodeStream
  rw [hk]
  simp only [decodeStreamFuel, h]
  rw [decodeStreamFuel_eq (show r.length ≤ k by omega) (Nat.le_refl r.length)]

theorem decodeStream_error {bytes : List Byte} {e : Reject} (h : decodeHost bytes = .error e) :
    decodeStream bytes = ⟨[], bytes⟩ := by
  cases bytes with
  | nil => rfl
  | cons b r => simp [decodeStream, decodeStreamFuel, h]

end Sys2Proof
end

