-- ==== Sys2Proof/Laws/Memory.lean ====
section
/-! SUPPORT. Read after write, and that every write keeps the canonical form. -/

namespace Sys2Proof.Machine

@[simp] theorem read_nil (a : Nat) : Memory.read [] a = none := rfl

theorem read_write_same (m : Memory) (a : Nat) (v : Byte) : (m.write a v).read a = some v := by
  induction m with
  | nil => simp [Memory.write, Memory.read]
  | cons c m ih =>
    obtain ⟨b, w⟩ := c
    simp only [Memory.write]
    split
    · simp [Memory.read]
    · split <;> simp_all [Memory.read]

theorem read_write_other (m : Memory) {a b : Nat} (v : Byte) (h : b ≠ a) : (m.write a v).read b = m.read b := by
  induction m with
  | nil => simp [Memory.write, Memory.read, h, Memory.unlisted]
  | cons c m ih =>
    obtain ⟨d, w⟩ := c
    simp only [Memory.write]
    split
    · simp [Memory.read, h]
    · split
      · next e => subst e; simp [Memory.read, h]
      · simp [Memory.read, ih]

/-- Read after write, at any address. -/
theorem read_write (m : Memory) (a b : Nat) (v : Byte) :
    (m.write a v).read b = if b = a then some v else m.read b := by
  split
  · next h => rw [h, read_write_same]
  · next h => exact read_write_other m v h

theorem rising_write {m : Memory} {c a : Nat} (v : Byte) (h : Memory.rising c m) (hc : c < a) :
    Memory.rising c (m.write a v) := by
  induction m generalizing c with
  | nil => simpa [Memory.write, Memory.rising] using hc
  | cons x m ih =>
    obtain ⟨b, w⟩ := x
    simp only [Memory.rising, Bool.and_eq_true, decide_eq_true_eq] at h
    simp only [Memory.write]
    split
    · next hab => simp [Memory.rising, hc, hab, h.2]
    · split
      · next e => subst e; simpa [Memory.rising, hc] using h.2
      · simp only [Memory.rising, Bool.and_eq_true, decide_eq_true_eq]
        exact ⟨h.1, ih h.2 (by omega)⟩

/-- A write keeps the canonical form. -/
theorem wf_write {m : Memory} (h : m.wf) (a : Nat) (v : Byte) : (m.write a v).wf := by
  cases m with
  | nil => simp [Memory.write, Memory.wf, Memory.rising]
  | cons x m =>
    obtain ⟨b, w⟩ := x
    simp only [Memory.wf] at h
    simp only [Memory.write]
    split
    · next hab => simpa [Memory.wf, Memory.rising, hab] using h
    · split
      · next e => subst e; exact h
      · exact rising_write v h (by omega)

/-- Below a rising list there is nothing to read. -/
theorem read_rising {m : Memory} {c a : Nat} (h : Memory.rising c m) (ha : a ≤ c) : m.read a = none := by
  induction m generalizing c with
  | nil => rfl
  | cons x m ih =>
    obtain ⟨b, w⟩ := x
    simp only [Memory.rising, Bool.and_eq_true, decide_eq_true_eq] at h
    have : a ≠ b := by omega
    simpa [Memory.read, this] using ih h.2 (by omega)

/-- A cleared chip is in canonical form (20_memory.md R73). -/
theorem clearedDdram_wf : clearedDdram.wf = true := by decide

/-- Write `vs` from address `a` on. -/
def Memory.writeAll : Memory → Nat → List Byte → Memory
  | m, _, [] => m
  | m, a, v :: vs => Memory.writeAll (m.write a v) (a + 1) vs

theorem wf_writeAll {m : Memory} (h : m.wf) (a : Nat) (vs : List Byte) : (m.writeAll a vs).wf := by
  induction vs generalizing m a with
  | nil => exact h
  | cons v vs ih => exact ih (wf_write h a v) (a + 1)

/-- Read after a run of writes, at any address. -/
theorem read_writeAll (m : Memory) (a : Nat) (vs : List Byte) (b : Nat) :
    (m.writeAll a vs).read b = if a ≤ b ∧ b < a + vs.length then vs[b - a]? else m.read b := by
  induction vs generalizing m a with
  | nil => simp [Memory.writeAll]
  | cons v vs ih =>
    simp only [Memory.writeAll, ih, read_write, List.length_cons]
    by_cases hb : b = a
    · subst hb; simp
    · by_cases h : a + 1 ≤ b ∧ b < a + 1 + vs.length
      · rw [if_pos h, if_pos (by omega), show b - a = (b - (a + 1)) + 1 by omega]; rfl
      · rw [if_neg h, if_neg hb, if_neg (by omega)]

end Sys2Proof.Machine
end

