-- ==== Sys2Proof/Laws/State.lean ====
section
/-! SUPPORT. One lemma per field per update of the state, so that no proof unfolds a record update. -/

namespace Sys2Proof.Machine

/-! ### `State.storeCell` -/

@[simp] theorem storeCell_line (s : State) (i : BitVec 8) (v : Byte) : (s.storeCell i v).line = s.line := rfl
@[simp] theorem storeCell_col (s : State) (i : BitVec 8) (v : Byte) : (s.storeCell i v).col = s.col := rfl
@[simp] theorem storeCell_chip (s : State) (i : BitVec 8) (v : Byte) : (s.storeCell i v).chip = s.chip := rfl
@[simp] theorem storeCell_state (s : State) (i : BitVec 8) (v : Byte) : (s.storeCell i v).state = s.state := rfl
@[simp] theorem storeCell_errOpcode (s : State) (i : BitVec 8) (v : Byte) : (s.storeCell i v).errOpcode = s.errOpcode := rfl
@[simp] theorem storeCell_errNotReady (s : State) (i : BitVec 8) (v : Byte) : (s.storeCell i v).errNotReady = s.errNotReady := rfl
@[simp] theorem storeCell_errRange (s : State) (i : BitVec 8) (v : Byte) : (s.storeCell i v).errRange = s.errRange := rfl
@[simp] theorem storeCell_pins (s : State) (i : BitVec 8) (v : Byte) : (s.storeCell i v).pins = s.pins := rfl
@[simp] theorem storeCell_buf (s : State) (i : BitVec 8) (v : Byte) : (s.storeCell i v).buf = s.buf.write i.toNat v := rfl
@[simp] theorem storeCell_seq (s : State) (i : BitVec 8) (v : Byte) : (s.storeCell i v).seq = s.seq := rfl
@[simp] theorem storeCell_asm (s : State) (i : BitVec 8) (v : Byte) : (s.storeCell i v).asm = s.asm := rfl
@[simp] theorem storeCell_inputs (s : State) (i : BitVec 8) (v : Byte) : (s.storeCell i v).inputs = s.inputs := rfl
@[simp] theorem storeCell_lcdA (s : State) (i : BitVec 8) (v : Byte) : (s.storeCell i v).lcdA = s.lcdA := rfl
@[simp] theorem storeCell_lcdB (s : State) (i : BitVec 8) (v : Byte) : (s.storeCell i v).lcdB = s.lcdB := rfl
@[simp] theorem storeCell_trace (s : State) (i : BitVec 8) (v : Byte) : (s.storeCell i v).trace = s.trace := rfl
@[simp] theorem storeCell_bufSeed (s : State) (i : BitVec 8) (v : Byte) : (s.storeCell i v).bufSeed = s.bufSeed := rfl
@[simp] theorem storeCell_freeCtr (s : State) (i : BitVec 8) (v : Byte) : (s.storeCell i v).freeCtr = s.freeCtr := rfl

/-! ### `State.setBuf` -/

/-- `s` with another shadow buffer. -/
def State.setBuf (s : State) (m : Memory) : State := { s with buf := m }

@[simp] theorem setBuf_line (s : State) (m : Memory) : (s.setBuf m).line = s.line := rfl
@[simp] theorem setBuf_col (s : State) (m : Memory) : (s.setBuf m).col = s.col := rfl
@[simp] theorem setBuf_chip (s : State) (m : Memory) : (s.setBuf m).chip = s.chip := rfl
@[simp] theorem setBuf_state (s : State) (m : Memory) : (s.setBuf m).state = s.state := rfl
@[simp] theorem setBuf_errOpcode (s : State) (m : Memory) : (s.setBuf m).errOpcode = s.errOpcode := rfl
@[simp] theorem setBuf_errNotReady (s : State) (m : Memory) : (s.setBuf m).errNotReady = s.errNotReady := rfl
@[simp] theorem setBuf_errRange (s : State) (m : Memory) : (s.setBuf m).errRange = s.errRange := rfl
@[simp] theorem setBuf_pins (s : State) (m : Memory) : (s.setBuf m).pins = s.pins := rfl
@[simp] theorem setBuf_buf (s : State) (m : Memory) : (s.setBuf m).buf = m := rfl
@[simp] theorem setBuf_seq (s : State) (m : Memory) : (s.setBuf m).seq = s.seq := rfl
@[simp] theorem setBuf_asm (s : State) (m : Memory) : (s.setBuf m).asm = s.asm := rfl
@[simp] theorem setBuf_inputs (s : State) (m : Memory) : (s.setBuf m).inputs = s.inputs := rfl
@[simp] theorem setBuf_lcdA (s : State) (m : Memory) : (s.setBuf m).lcdA = s.lcdA := rfl
@[simp] theorem setBuf_lcdB (s : State) (m : Memory) : (s.setBuf m).lcdB = s.lcdB := rfl
@[simp] theorem setBuf_trace (s : State) (m : Memory) : (s.setBuf m).trace = s.trace := rfl
@[simp] theorem setBuf_bufSeed (s : State) (m : Memory) : (s.setBuf m).bufSeed = s.bufSeed := rfl
@[simp] theorem setBuf_freeCtr (s : State) (m : Memory) : (s.setBuf m).freeCtr = s.freeCtr := rfl

/-! ### `State.setColumn` -/

@[simp] theorem setColumn_line (s : State) (k : BitVec 6) : (s.setColumn k).line = s.line := rfl
@[simp] theorem setColumn_col (s : State) (k : BitVec 6) : (s.setColumn k).col = k := rfl
@[simp] theorem setColumn_chip (s : State) (k : BitVec 6) : (s.setColumn k).chip = s.chip := rfl
@[simp] theorem setColumn_state (s : State) (k : BitVec 6) : (s.setColumn k).state = s.state := rfl
@[simp] theorem setColumn_errOpcode (s : State) (k : BitVec 6) : (s.setColumn k).errOpcode = s.errOpcode := rfl
@[simp] theorem setColumn_errNotReady (s : State) (k : BitVec 6) : (s.setColumn k).errNotReady = s.errNotReady := rfl
@[simp] theorem setColumn_errRange (s : State) (k : BitVec 6) : (s.setColumn k).errRange = s.errRange := rfl
@[simp] theorem setColumn_pins (s : State) (k : BitVec 6) : (s.setColumn k).pins = s.pins := rfl
@[simp] theorem setColumn_buf (s : State) (k : BitVec 6) : (s.setColumn k).buf = s.buf := rfl
@[simp] theorem setColumn_seq (s : State) (k : BitVec 6) : (s.setColumn k).seq = s.seq := rfl
@[simp] theorem setColumn_asm (s : State) (k : BitVec 6) : (s.setColumn k).asm = s.asm := rfl
@[simp] theorem setColumn_inputs (s : State) (k : BitVec 6) : (s.setColumn k).inputs = s.inputs := rfl
@[simp] theorem setColumn_lcdA (s : State) (k : BitVec 6) : (s.setColumn k).lcdA = s.lcdA := rfl
@[simp] theorem setColumn_lcdB (s : State) (k : BitVec 6) : (s.setColumn k).lcdB = s.lcdB := rfl
@[simp] theorem setColumn_trace (s : State) (k : BitVec 6) : (s.setColumn k).trace = s.trace := rfl
@[simp] theorem setColumn_bufSeed (s : State) (k : BitVec 6) : (s.setColumn k).bufSeed = s.bufSeed := rfl
@[simp] theorem setColumn_freeCtr (s : State) (k : BitVec 6) : (s.setColumn k).freeCtr = s.freeCtr := rfl

/-! ### `State.setCursor` -/

@[simp] theorem setCursor_line (s : State) (l : BitVec 2) (k : BitVec 6) : (s.setCursor l k).line = l := rfl
@[simp] theorem setCursor_col (s : State) (l : BitVec 2) (k : BitVec 6) : (s.setCursor l k).col = k := rfl
@[simp] theorem setCursor_chip (s : State) (l : BitVec 2) (k : BitVec 6) : (s.setCursor l k).chip = chipOf l := rfl
@[simp] theorem setCursor_state (s : State) (l : BitVec 2) (k : BitVec 6) : (s.setCursor l k).state = s.state := rfl
@[simp] theorem setCursor_errOpcode (s : State) (l : BitVec 2) (k : BitVec 6) : (s.setCursor l k).errOpcode = s.errOpcode := rfl
@[simp] theorem setCursor_errNotReady (s : State) (l : BitVec 2) (k : BitVec 6) : (s.setCursor l k).errNotReady = s.errNotReady := rfl
@[simp] theorem setCursor_errRange (s : State) (l : BitVec 2) (k : BitVec 6) : (s.setCursor l k).errRange = s.errRange := rfl
@[simp] theorem setCursor_pins (s : State) (l : BitVec 2) (k : BitVec 6) : (s.setCursor l k).pins = s.pins := rfl
@[simp] theorem setCursor_buf (s : State) (l : BitVec 2) (k : BitVec 6) : (s.setCursor l k).buf = s.buf := rfl
@[simp] theorem setCursor_seq (s : State) (l : BitVec 2) (k : BitVec 6) : (s.setCursor l k).seq = s.seq := rfl
@[simp] theorem setCursor_asm (s : State) (l : BitVec 2) (k : BitVec 6) : (s.setCursor l k).asm = s.asm := rfl
@[simp] theorem setCursor_inputs (s : State) (l : BitVec 2) (k : BitVec 6) : (s.setCursor l k).inputs = s.inputs := rfl
@[simp] theorem setCursor_lcdA (s : State) (l : BitVec 2) (k : BitVec 6) : (s.setCursor l k).lcdA = s.lcdA := rfl
@[simp] theorem setCursor_lcdB (s : State) (l : BitVec 2) (k : BitVec 6) : (s.setCursor l k).lcdB = s.lcdB := rfl
@[simp] theorem setCursor_trace (s : State) (l : BitVec 2) (k : BitVec 6) : (s.setCursor l k).trace = s.trace := rfl
@[simp] theorem setCursor_bufSeed (s : State) (l : BitVec 2) (k : BitVec 6) : (s.setCursor l k).bufSeed = s.bufSeed := rfl
@[simp] theorem setCursor_freeCtr (s : State) (l : BitVec 2) (k : BitVec 6) : (s.setCursor l k).freeCtr = s.freeCtr := rfl

/-! ### `State.setReady` -/

@[simp] theorem setReady_line (s : State) : s.setReady.line = s.line := rfl
@[simp] theorem setReady_col (s : State) : s.setReady.col = s.col := rfl
@[simp] theorem setReady_chip (s : State) : s.setReady.chip = s.chip := rfl
@[simp] theorem setReady_state (s : State) : s.setReady.state = .ready := rfl
@[simp] theorem setReady_errOpcode (s : State) : s.setReady.errOpcode = s.errOpcode := rfl
@[simp] theorem setReady_errNotReady (s : State) : s.setReady.errNotReady = s.errNotReady := rfl
@[simp] theorem setReady_errRange (s : State) : s.setReady.errRange = s.errRange := rfl
@[simp] theorem setReady_pins (s : State) : s.setReady.pins = s.pins := rfl
@[simp] theorem setReady_buf (s : State) : s.setReady.buf = s.buf := rfl
@[simp] theorem setReady_seq (s : State) : s.setReady.seq = s.seq := rfl
@[simp] theorem setReady_asm (s : State) : s.setReady.asm = s.asm := rfl
@[simp] theorem setReady_inputs (s : State) : s.setReady.inputs = s.inputs := rfl
@[simp] theorem setReady_lcdA (s : State) : s.setReady.lcdA = s.lcdA := rfl
@[simp] theorem setReady_lcdB (s : State) : s.setReady.lcdB = s.lcdB := rfl
@[simp] theorem setReady_trace (s : State) : s.setReady.trace = s.trace := rfl
@[simp] theorem setReady_bufSeed (s : State) : s.setReady.bufSeed = s.bufSeed := rfl
@[simp] theorem setReady_freeCtr (s : State) : s.setReady.freeCtr = s.freeCtr := rfl

/-! ### `takeFault` (60_exceptions.md R204) -/

@[simp] theorem takeFault_line (c : FaultCode) (s : State) : (takeFault c s).line = s.line := by cases c <;> rfl
@[simp] theorem takeFault_col (c : FaultCode) (s : State) : (takeFault c s).col = s.col := by cases c <;> rfl
@[simp] theorem takeFault_chip (c : FaultCode) (s : State) : (takeFault c s).chip = s.chip := by cases c <;> rfl
@[simp] theorem takeFault_state (c : FaultCode) (s : State) : (takeFault c s).state = s.state := by cases c <;> rfl
@[simp] theorem takeFault_pins (c : FaultCode) (s : State) : (takeFault c s).pins = s.pins := by cases c <;> rfl
@[simp] theorem takeFault_buf (c : FaultCode) (s : State) : (takeFault c s).buf = s.buf := by cases c <;> rfl
@[simp] theorem takeFault_seq (c : FaultCode) (s : State) : (takeFault c s).seq = s.seq := by cases c <;> rfl
@[simp] theorem takeFault_asm (c : FaultCode) (s : State) : (takeFault c s).asm = s.asm := by cases c <;> rfl
@[simp] theorem takeFault_inputs (c : FaultCode) (s : State) : (takeFault c s).inputs = s.inputs := by cases c <;> rfl
@[simp] theorem takeFault_lcdA (c : FaultCode) (s : State) : (takeFault c s).lcdA = s.lcdA := by cases c <;> rfl
@[simp] theorem takeFault_lcdB (c : FaultCode) (s : State) : (takeFault c s).lcdB = s.lcdB := by cases c <;> rfl
@[simp] theorem takeFault_trace (c : FaultCode) (s : State) : (takeFault c s).trace = s.trace := by cases c <;> rfl
@[simp] theorem takeFault_bufSeed (c : FaultCode) (s : State) : (takeFault c s).bufSeed = s.bufSeed := by cases c <;> rfl
@[simp] theorem takeFault_freeCtr (c : FaultCode) (s : State) : (takeFault c s).freeCtr = s.freeCtr := by cases c <;> rfl
theorem takeFault_flag (c c' : FaultCode) (s : State) : (takeFault c s).flag c' = (decide (c' = c) || s.flag c') := by
  cases c <;> cases c' <;> simp [takeFault, State.setFlag, State.flag]

/-! ### `State.sampleChip` -/

@[simp] theorem sampleChip_line (s : State) (c : Chip) : (s.sampleChip c).line = s.line := by cases c <;> rfl
@[simp] theorem sampleChip_col (s : State) (c : Chip) : (s.sampleChip c).col = s.col := by cases c <;> rfl
@[simp] theorem sampleChip_chip (s : State) (c : Chip) : (s.sampleChip c).chip = s.chip := by cases c <;> rfl
@[simp] theorem sampleChip_state (s : State) (c : Chip) : (s.sampleChip c).state = s.state := by cases c <;> rfl
@[simp] theorem sampleChip_errOpcode (s : State) (c : Chip) : (s.sampleChip c).errOpcode = s.errOpcode := by cases c <;> rfl
@[simp] theorem sampleChip_errNotReady (s : State) (c : Chip) : (s.sampleChip c).errNotReady = s.errNotReady := by cases c <;> rfl
@[simp] theorem sampleChip_errRange (s : State) (c : Chip) : (s.sampleChip c).errRange = s.errRange := by cases c <;> rfl
@[simp] theorem sampleChip_pins (s : State) (c : Chip) : (s.sampleChip c).pins = s.pins := by cases c <;> rfl
@[simp] theorem sampleChip_buf (s : State) (c : Chip) : (s.sampleChip c).buf = s.buf := by cases c <;> rfl
@[simp] theorem sampleChip_seq (s : State) (c : Chip) : (s.sampleChip c).seq = s.seq := by cases c <;> rfl
@[simp] theorem sampleChip_asm (s : State) (c : Chip) : (s.sampleChip c).asm = s.asm := by cases c <;> rfl
@[simp] theorem sampleChip_inputs (s : State) (c : Chip) : (s.sampleChip c).inputs = s.inputs := by cases c <;> rfl
@[simp] theorem sampleChip_trace (s : State) (c : Chip) : (s.sampleChip c).trace = s.trace := by cases c <;> rfl
@[simp] theorem sampleChip_bufSeed (s : State) (c : Chip) : (s.sampleChip c).bufSeed = s.bufSeed := by cases c <;> rfl
@[simp] theorem sampleChip_freeCtr (s : State) (c : Chip) : (s.sampleChip c).freeCtr = s.freeCtr + 1 := by cases c <;> rfl
/-- Only the chip whose enable line falls takes the sample (20_memory.md R73). -/
theorem sampleChip_lcd (s : State) (c c' : Chip) :
    (s.sampleChip c).lcd c' = if c' = c then (s.lcd c).sample s.freeCtr s.pins.rs s.pins.d else s.lcd c' := by
  cases c <;> cases c' <;> rfl

/-! ### `hardReset` and `cutReset` (10_state.md R37, 70_reset_and_hazards.md R236) -/

@[simp] theorem hardReset_line (s : State) (rest : List Input) : (hardReset s rest).line = State.reset.line := rfl
@[simp] theorem hardReset_col (s : State) (rest : List Input) : (hardReset s rest).col = State.reset.col := rfl
@[simp] theorem hardReset_chip (s : State) (rest : List Input) : (hardReset s rest).chip = State.reset.chip := rfl
@[simp] theorem hardReset_state (s : State) (rest : List Input) : (hardReset s rest).state = State.reset.state := rfl
@[simp] theorem hardReset_errOpcode (s : State) (rest : List Input) : (hardReset s rest).errOpcode = State.reset.errOpcode := rfl
@[simp] theorem hardReset_errNotReady (s : State) (rest : List Input) : (hardReset s rest).errNotReady = State.reset.errNotReady := rfl
@[simp] theorem hardReset_errRange (s : State) (rest : List Input) : (hardReset s rest).errRange = State.reset.errRange := rfl
@[simp] theorem hardReset_pins (s : State) (rest : List Input) : (hardReset s rest).pins = State.reset.pins := rfl
@[simp] theorem hardReset_buf (s : State) (rest : List Input) : (hardReset s rest).buf = State.reset.buf := rfl
@[simp] theorem hardReset_seq (s : State) (rest : List Input) : (hardReset s rest).seq = State.reset.seq := rfl
@[simp] theorem hardReset_asm (s : State) (rest : List Input) : (hardReset s rest).asm = State.reset.asm := rfl
@[simp] theorem hardReset_inputs (s : State) (rest : List Input) : (hardReset s rest).inputs = rest := rfl
@[simp] theorem hardReset_lcdA (s : State) (rest : List Input) : (hardReset s rest).lcdA = s.lcdA := rfl
@[simp] theorem hardReset_lcdB (s : State) (rest : List Input) : (hardReset s rest).lcdB = s.lcdB := rfl
@[simp] theorem hardReset_trace (s : State) (rest : List Input) : (hardReset s rest).trace = State.reset.trace := rfl
@[simp] theorem hardReset_bufSeed (s : State) (rest : List Input) : (hardReset s rest).bufSeed = s.freeCtr := rfl
@[simp] theorem hardReset_freeCtr (s : State) (rest : List Input) : (hardReset s rest).freeCtr = s.freeCtr + 1 := rfl
@[simp] theorem cutReset_line (s : State) (rest : List Input) : (cutReset s rest).line = State.reset.line := rfl
@[simp] theorem cutReset_col (s : State) (rest : List Input) : (cutReset s rest).col = State.reset.col := rfl
@[simp] theorem cutReset_chip (s : State) (rest : List Input) : (cutReset s rest).chip = State.reset.chip := rfl
@[simp] theorem cutReset_state (s : State) (rest : List Input) : (cutReset s rest).state = State.reset.state := rfl
@[simp] theorem cutReset_errOpcode (s : State) (rest : List Input) : (cutReset s rest).errOpcode = State.reset.errOpcode := rfl
@[simp] theorem cutReset_errNotReady (s : State) (rest : List Input) : (cutReset s rest).errNotReady = State.reset.errNotReady := rfl
@[simp] theorem cutReset_errRange (s : State) (rest : List Input) : (cutReset s rest).errRange = State.reset.errRange := rfl
@[simp] theorem cutReset_pins (s : State) (rest : List Input) : (cutReset s rest).pins = State.reset.pins := rfl
@[simp] theorem cutReset_buf (s : State) (rest : List Input) : (cutReset s rest).buf = State.reset.buf := rfl
@[simp] theorem cutReset_seq (s : State) (rest : List Input) : (cutReset s rest).seq = State.reset.seq := rfl
@[simp] theorem cutReset_asm (s : State) (rest : List Input) : (cutReset s rest).asm = State.reset.asm := rfl
@[simp] theorem cutReset_inputs (s : State) (rest : List Input) : (cutReset s rest).inputs = rest := rfl
@[simp] theorem cutReset_lcdA (s : State) (rest : List Input) : (cutReset s rest).lcdA = LcdChip.unknown s.freeCtr := rfl
@[simp] theorem cutReset_lcdB (s : State) (rest : List Input) : (cutReset s rest).lcdB = LcdChip.unknown (s.freeCtr + 1) := rfl
@[simp] theorem cutReset_trace (s : State) (rest : List Input) : (cutReset s rest).trace = State.reset.trace := rfl
@[simp] theorem cutReset_bufSeed (s : State) (rest : List Input) : (cutReset s rest).bufSeed = s.freeCtr := rfl
@[simp] theorem cutReset_freeCtr (s : State) (rest : List Input) : (cutReset s rest).freeCtr = s.freeCtr + 2 := rfl

end Sys2Proof.Machine
end

