-- ==== Sys2Proof/Laws/Ops.lean ====
section
/-! SUPPORT. What the shared operations can do, said once: `emit` and `emitAll`, one transfer, `runOps`, `perform`. -/

namespace Sys2Proof.Machine

/-! ### `emit` and `emitAll`: the Facade's state is untouched (40_bus_driver.md R130) -/

@[simp] theorem emit_line (e : Event) (s : State) : (emit e s).line = s.line := by
  unfold emit; cases fallingEdge s.pins e <;> simp
@[simp] theorem emit_col (e : Event) (s : State) : (emit e s).col = s.col := by
  unfold emit; cases fallingEdge s.pins e <;> simp
@[simp] theorem emit_chip (e : Event) (s : State) : (emit e s).chip = s.chip := by
  unfold emit; cases fallingEdge s.pins e <;> simp
@[simp] theorem emit_state (e : Event) (s : State) : (emit e s).state = s.state := by
  unfold emit; cases fallingEdge s.pins e <;> simp
@[simp] theorem emit_errOpcode (e : Event) (s : State) : (emit e s).errOpcode = s.errOpcode := by
  unfold emit; cases fallingEdge s.pins e <;> simp
@[simp] theorem emit_errNotReady (e : Event) (s : State) : (emit e s).errNotReady = s.errNotReady := by
  unfold emit; cases fallingEdge s.pins e <;> simp
@[simp] theorem emit_errRange (e : Event) (s : State) : (emit e s).errRange = s.errRange := by
  unfold emit; cases fallingEdge s.pins e <;> simp
@[simp] theorem emit_buf (e : Event) (s : State) : (emit e s).buf = s.buf := by
  unfold emit; cases fallingEdge s.pins e <;> simp
@[simp] theorem emit_bufSeed (e : Event) (s : State) : (emit e s).bufSeed = s.bufSeed := by
  unfold emit; cases fallingEdge s.pins e <;> simp
@[simp] theorem emit_seq (e : Event) (s : State) : (emit e s).seq = s.seq := by
  unfold emit; cases fallingEdge s.pins e <;> simp
@[simp] theorem emit_asm (e : Event) (s : State) : (emit e s).asm = s.asm := by
  unfold emit; cases fallingEdge s.pins e <;> simp
@[simp] theorem emit_inputs (e : Event) (s : State) : (emit e s).inputs = s.inputs := by
  unfold emit; cases fallingEdge s.pins e <;> simp
@[simp] theorem emit_pins (e : Event) (s : State) : (emit e s).pins = s.pins.apply e := by
  unfold emit; cases fallingEdge s.pins e <;> simp
@[simp] theorem emit_trace (e : Event) (s : State) : (emit e s).trace = e :: s.trace := by
  unfold emit; cases fallingEdge s.pins e <;> simp
@[simp] theorem emit_events (e : Event) (s : State) : (emit e s).events = s.events ++ [e] := by
  simp [State.events]

@[simp] theorem emitAll_nil (s : State) : emitAll [] s = s := rfl
@[simp] theorem emitAll_cons (e : Event) (es : List Event) (s : State) : emitAll (e :: es) s = emitAll es (emit e s) := rfl
theorem emitAll_append (es es' : List Event) (s : State) : emitAll (es ++ es') s = emitAll es' (emitAll es s) := by
  simp [emitAll]

@[simp] theorem emitAll_line (es : List Event) (s : State) : (emitAll es s).line = s.line := by
  induction es generalizing s with
  | nil => rfl
  | cons e es ih => simp [ih]
@[simp] theorem emitAll_col (es : List Event) (s : State) : (emitAll es s).col = s.col := by
  induction es generalizing s with
  | nil => rfl
  | cons e es ih => simp [ih]
@[simp] theorem emitAll_chip (es : List Event) (s : State) : (emitAll es s).chip = s.chip := by
  induction es generalizing s with
  | nil => rfl
  | cons e es ih => simp [ih]
@[simp] theorem emitAll_state (es : List Event) (s : State) : (emitAll es s).state = s.state := by
  induction es generalizing s with
  | nil => rfl
  | cons e es ih => simp [ih]
@[simp] theorem emitAll_errOpcode (es : List Event) (s : State) : (emitAll es s).errOpcode = s.errOpcode := by
  induction es generalizing s with
  | nil => rfl
  | cons e es ih => simp [ih]
@[simp] theorem emitAll_errNotReady (es : List Event) (s : State) : (emitAll es s).errNotReady = s.errNotReady := by
  induction es generalizing s with
  | nil => rfl
  | cons e es ih => simp [ih]
@[simp] theorem emitAll_errRange (es : List Event) (s : State) : (emitAll es s).errRange = s.errRange := by
  induction es generalizing s with
  | nil => rfl
  | cons e es ih => simp [ih]
@[simp] theorem emitAll_buf (es : List Event) (s : State) : (emitAll es s).buf = s.buf := by
  induction es generalizing s with
  | nil => rfl
  | cons e es ih => simp [ih]
@[simp] theorem emitAll_bufSeed (es : List Event) (s : State) : (emitAll es s).bufSeed = s.bufSeed := by
  induction es generalizing s with
  | nil => rfl
  | cons e es ih => simp [ih]
@[simp] theorem emitAll_seq (es : List Event) (s : State) : (emitAll es s).seq = s.seq := by
  induction es generalizing s with
  | nil => rfl
  | cons e es ih => simp [ih]
@[simp] theorem emitAll_asm (es : List Event) (s : State) : (emitAll es s).asm = s.asm := by
  induction es generalizing s with
  | nil => rfl
  | cons e es ih => simp [ih]
@[simp] theorem emitAll_inputs (es : List Event) (s : State) : (emitAll es s).inputs = s.inputs := by
  induction es generalizing s with
  | nil => rfl
  | cons e es ih => simp [ih]

@[simp] theorem emitAll_trace (es : List Event) (s : State) : (emitAll es s).trace = es.reverse ++ s.trace := by
  induction es generalizing s with
  | nil => simp
  | cons e es ih => simp [ih]

/-- Emitting a list appends exactly that list to the trace (00_scope.md R15). -/
@[simp] theorem emitAll_events (es : List Event) (s : State) : (emitAll es s).events = s.events ++ es := by
  induction es generalizing s with
  | nil => simp
  | cons e es ih => simp [ih]

/-- The pins after a list of events. -/
theorem emitAll_pins (es : List Event) (s : State) : (emitAll es s).pins = es.foldl Pins.apply s.pins := by
  induction es generalizing s with
  | nil => rfl
  | cons e es ih => simp [ih]

/-! ### One transfer and one lone nibble (40_bus_driver.md R136, R139, R141) -/

/-- The pins after chip `c` was sent something: its line low, register-select `rs`, last nibble `d` (R141). -/
def Pins.after (p : Pins) (c : Chip) (rs : Bool) (d : Nibble) : Pins :=
  match c with
  | .a => { rs := rs, enA := false, enB := p.enB, d := d }
  | .b => { rs := rs, enA := p.enA, enB := false, d := d }

/-- Chip `c` replaced. -/
def State.setLcd (s : State) (c : Chip) (x : LcdChip) : State :=
  match c with
  | .a => { s with lcdA := x }
  | .b => { s with lcdB := x }

theorem lo_shift (b : Byte) : lo (b >>> 4) = hi b := by
  simp only [lo, hi]; ext i hi; simp

/-- Everything a WriteByte does (R136): two samples of chip `c`, high nibble first. -/
theorem emitAll_writeByte (c : Chip) (m : RsMode) (b : Byte) (s : State) :
    emitAll (writeByteEvents c m b) s =
      { s.setLcd c (((s.lcd c).sample s.freeCtr (rsLevel m) (hi b)).sample (s.freeCtr + 1) (rsLevel m) (lo b)) with
        pins := s.pins.after c (rsLevel m) (lo b)
        trace := (writeByteEvents c m b).reverse ++ s.trace
        freeCtr := s.freeCtr + 2 } := by
  cases c <;>
    simp [writeByteEvents, setRegisterSelectEvents, setDataNibbleEvents, pulseEnableEvents, lo_shift, emit, fallingEdge,
      Pins.apply, Pins.en, Pins.after, State.setLcd, State.lcd, State.sampleChip]

/-- Everything a lone nibble does (R139): one sample of chip `c`, register-select as it stands. -/
theorem emitAll_loneNibble (c : Chip) (n : Nibble) (s : State) :
    emitAll (loneNibbleEvents c n) s =
      { s.setLcd c ((s.lcd c).sample s.freeCtr s.pins.rs n) with
        pins := s.pins.after c s.pins.rs n
        trace := (loneNibbleEvents c n).reverse ++ s.trace
        freeCtr := s.freeCtr + 1 } := by
  have h : lo (n.setWidth 8) = n := by
    simp only [lo]; ext i hi; simp [show i < 8 by omega, BitVec.getLsbD_eq_getElem hi]
  cases c <;>
    simp [loneNibbleEvents, setDataNibbleEvents, pulseEnableEvents, h, emit, fallingEdge,
      Pins.apply, Pins.en, Pins.after, State.setLcd, State.lcd, State.sampleChip]

/-! ### `runOps` -/

@[simp] theorem runOps_nil (s : State) : runOps [] s = s := rfl
@[simp] theorem runOps_cons (op : SeqOp) (ops : List SeqOp) (s : State) :
    runOps (op :: ops) s = runOps ops (runOp op s) := rfl
theorem runOps_append (p q : List SeqOp) (s : State) : runOps (p ++ q) s = runOps q (runOps p s) := by
  simp [runOps]

/-- The pin events of one operation. -/
def opEvents : SeqOp → List Event
  | .event e => [e]
  | .bus i => busEvents i
  | .store _ _ => []
  | .column _ => []
  | .cursor _ _ => []
  | .ready => []

@[simp] theorem runOp_events (op : SeqOp) (s : State) : (runOp op s).events = s.events ++ opEvents op := by
  cases op <;> simp [runOp, opEvents, State.events]

/-- Running operations appends exactly their events to the trace (20_memory.md R68). -/
@[simp] theorem runOps_events (ops : List SeqOp) (s : State) :
    (runOps ops s).events = s.events ++ ops.flatMap opEvents := by
  induction ops generalizing s with
  | nil => simp
  | cons op ops ih => simp [ih]

@[simp] theorem runOp_errOpcode (op : SeqOp) (s : State) : (runOp op s).errOpcode = s.errOpcode := by
  cases op <;> simp [runOp]
@[simp] theorem runOps_errOpcode (ops : List SeqOp) (s : State) : (runOps ops s).errOpcode = s.errOpcode := by
  induction ops generalizing s with
  | nil => rfl
  | cons op ops ih => simp [ih]
@[simp] theorem runOp_errNotReady (op : SeqOp) (s : State) : (runOp op s).errNotReady = s.errNotReady := by
  cases op <;> simp [runOp]
@[simp] theorem runOps_errNotReady (ops : List SeqOp) (s : State) : (runOps ops s).errNotReady = s.errNotReady := by
  induction ops generalizing s with
  | nil => rfl
  | cons op ops ih => simp [ih]
@[simp] theorem runOp_errRange (op : SeqOp) (s : State) : (runOp op s).errRange = s.errRange := by
  cases op <;> simp [runOp]
@[simp] theorem runOps_errRange (ops : List SeqOp) (s : State) : (runOps ops s).errRange = s.errRange := by
  induction ops generalizing s with
  | nil => rfl
  | cons op ops ih => simp [ih]
@[simp] theorem runOp_bufSeed (op : SeqOp) (s : State) : (runOp op s).bufSeed = s.bufSeed := by
  cases op <;> simp [runOp]
@[simp] theorem runOps_bufSeed (ops : List SeqOp) (s : State) : (runOps ops s).bufSeed = s.bufSeed := by
  induction ops generalizing s with
  | nil => rfl
  | cons op ops ih => simp [ih]
@[simp] theorem runOp_seq (op : SeqOp) (s : State) : (runOp op s).seq = s.seq := by
  cases op <;> simp [runOp]
@[simp] theorem runOps_seq (ops : List SeqOp) (s : State) : (runOps ops s).seq = s.seq := by
  induction ops generalizing s with
  | nil => rfl
  | cons op ops ih => simp [ih]
@[simp] theorem runOp_asm (op : SeqOp) (s : State) : (runOp op s).asm = s.asm := by
  cases op <;> simp [runOp]
@[simp] theorem runOps_asm (ops : List SeqOp) (s : State) : (runOps ops s).asm = s.asm := by
  induction ops generalizing s with
  | nil => rfl
  | cons op ops ih => simp [ih]
@[simp] theorem runOp_inputs (op : SeqOp) (s : State) : (runOp op s).inputs = s.inputs := by
  cases op <;> simp [runOp]
@[simp] theorem runOps_inputs (ops : List SeqOp) (s : State) : (runOps ops s).inputs = s.inputs := by
  induction ops generalizing s with
  | nil => rfl
  | cons op ops ih => simp [ih]

/-! ### The sequencer's queue, the assembly and the inputs take no part in an operation -/

/-- `s` with another queue, assembly and input list. -/
def State.withPort (s : State) (q : List SeqOp) (a : List Byte) (i : List Input) : State :=
  { s with seq := q, asm := a, inputs := i }

theorem emit_withPort (e : Event) (s : State) (q : List SeqOp) (a : List Byte) (i : List Input) :
    emit e (s.withPort q a i) = (emit e s).withPort q a i := by
  have h : fallingEdge (s.withPort q a i).pins e = fallingEdge s.pins e := rfl
  unfold emit
  rw [h]
  cases fallingEdge s.pins e with
  | none => rfl
  | some c => cases c <;> rfl

theorem emitAll_withPort (es : List Event) (s : State) (q : List SeqOp) (a : List Byte) (i : List Input) :
    emitAll es (s.withPort q a i) = (emitAll es s).withPort q a i := by
  induction es generalizing s with
  | nil => rfl
  | cons e es ih => simp [emit_withPort, ih]

theorem runOp_withPort (op : SeqOp) (s : State) (q : List SeqOp) (a : List Byte) (i : List Input) :
    runOp op (s.withPort q a i) = (runOp op s).withPort q a i := by
  cases op <;> first | rfl | exact emit_withPort _ _ _ _ _ | exact emitAll_withPort _ _ _ _ _

theorem runOps_withPort (ops : List SeqOp) (s : State) (q : List SeqOp) (a : List Byte) (i : List Input) :
    runOps ops (s.withPort q a i) = (runOps ops s).withPort q a i := by
  induction ops generalizing s with
  | nil => rfl
  | cons op ops ih => simp [runOp_withPort, ih]

/-! ### `perform` and `begin` -/

/-- All a performed plan can answer. -/
theorem perform_next {p : Plan} {s t : State} (h : perform p s = .next t) :
    (∃ ops, p = .run ops ∧ t = runOps ops s) ∨ (∃ c, p = .raise c ∧ t = takeFault c s) := by
  cases p with
  | run ops => exact .inl ⟨ops, rfl, by simpa [perform, eq_comm] using h⟩
  | raise c => exact .inr ⟨c, rfl, by simpa [perform, eq_comm] using h⟩
  | stop f => simp [perform] at h

/-- All a started plan can answer. -/
theorem begin_next {p : Plan} {s t : State} (h : begin p s = .next t) :
    (∃ ops, p = .run ops ∧ t = { s with seq := ops }) ∨ (∃ c, p = .raise c ∧ t = takeFault c s) := by
  cases p with
  | run ops => exact .inl ⟨ops, rfl, by simpa [begin, eq_comm] using h⟩
  | raise c => exact .inr ⟨c, rfl, by simpa [begin, eq_comm] using h⟩
  | stop f => simp [begin] at h

end Sys2Proof.Machine
end

