-- ==== Sys2Proof/Laws/Trace.lean ====
section
/-! SUPPORT. The projections of the trace over lists of events: samples, transfers, the bus hazards, durations. -/

namespace Sys2Proof.Machine

@[simp] theorem pinsAfter_nil (p : Pins) : pinsAfter p [] = p := rfl
@[simp] theorem pinsAfter_cons (p : Pins) (e : Event) (es : List Event) :
    pinsAfter p (e :: es) = pinsAfter (p.apply e) es := rfl
theorem pinsAfter_append (p : Pins) (es es' : List Event) :
    pinsAfter p (es ++ es') = pinsAfter (pinsAfter p es) es' := by
  simp [pinsAfter]

theorem emitAll_pinsAfter (es : List Event) (s : State) : (emitAll es s).pins = pinsAfter s.pins es := emitAll_pins es s

theorem runOp_pins (op : SeqOp) (s : State) : (runOp op s).pins = pinsAfter s.pins (opEvents op) := by
  cases op <;> simp [runOp, opEvents, emitAll_pinsAfter]

/-- The pins after a run are those its events leave (00_scope.md R15). -/
theorem runOps_pins (ops : List SeqOp) (s : State) :
    (runOps ops s).pins = pinsAfter s.pins (ops.flatMap opEvents) := by
  induction ops generalizing s with
  | nil => rfl
  | cons op ops ih => simp [ih, runOp_pins, pinsAfter_append]

theorem samples_append (p : Pins) (es es' : List Event) :
    samples p (es ++ es') = samples p es ++ samples (pinsAfter p es) es' := by
  induction es generalizing p with
  | nil => rfl
  | cons e es ih =>
    simp only [List.cons_append, samples, pinsAfter_cons]
    cases fallingEdge p e <;> simp [ih]

theorem stableBus_append (p : Pins) (es es' : List Event) :
    stableBus p (es ++ es') = (stableBus p es && stableBus (pinsAfter p es) es') := by
  induction es generalizing p with
  | nil => rfl
  | cons e es ih =>
    cases e with
    | en c b => cases b <;> simp [stableBus, ih, Bool.and_assoc]
    | _ => simp [stableBus, ih, Bool.and_assoc]

theorem duration_append (time : TimeParam → Nat) (es es' : List Event) :
    duration time (es ++ es') = duration time es + duration time es' := by
  induction es with
  | nil => simp [duration]
  | cons e es ih => cases e <;> simp [duration, ih, Nat.add_assoc]

theorem hi_append_lo (b : Byte) : hi b ++ lo b = b := by
  simp only [hi, lo]; ext i h; rw [BitVec.getElem_append]
  split
  · next h4 => simp [BitVec.getLsbD_eq_getElem h]
  · next h4 => simp [show 4 + (i - 4) = i by omega, BitVec.getLsbD_eq_getElem h]

/-- The two samples of a WriteByte, whatever the pins were (R136). -/
theorem samples_writeByte (p : Pins) (c : Chip) (m : RsMode) (b : Byte) :
    samples p (writeByteEvents c m b) = [⟨c, rsLevel m, hi b⟩, ⟨c, rsLevel m, lo b⟩] := by
  cases c <;> simp [writeByteEvents, setRegisterSelectEvents, setDataNibbleEvents, pulseEnableEvents, samples,
    fallingEdge, Pins.apply, Pins.en, lo_shift]

/-- The one sample of a lone nibble (R139). -/
theorem samples_loneNibble (p : Pins) (c : Chip) (n : Nibble) :
    samples p (loneNibbleEvents c n) = [⟨c, p.rs, lo (n.setWidth 8)⟩] := by
  cases c <;> simp [loneNibbleEvents, setDataNibbleEvents, pulseEnableEvents, samples, fallingEdge, Pins.apply, Pins.en]

/-- The events of a transfer. -/
def transferEvents : Transfer → List Event
  | .cmd c b => writeByteEvents c .command b
  | .dat c b => writeByteEvents c .data b

/-- The two samples of a transfer. -/
def Transfer.halves : Transfer → List Sample
  | .cmd c b => [⟨c, false, hi b⟩, ⟨c, false, lo b⟩]
  | .dat c b => [⟨c, true, hi b⟩, ⟨c, true, lo b⟩]

theorem samples_transfer (p : Pins) (x : Transfer) : samples p (transferEvents x) = x.halves := by
  cases x <;> simp [transferEvents, samples_writeByte, Transfer.halves, rsLevel]

/-- The samples of a list of transfers do not depend on the pins before. -/
theorem samples_flatMap (p : Pins) (xs : List Transfer) :
    samples p (xs.flatMap transferEvents) = xs.flatMap Transfer.halves := by
  induction xs generalizing p with
  | nil => rfl
  | cons x xs ih => rw [List.flatMap_cons, List.flatMap_cons, samples_append, samples_transfer, ih]

theorem pairSamples_halves (x : Transfer) (r : List Sample) : pairSamples (x.halves ++ r) = x :: pairSamples r := by
  cases x <;> simp [Transfer.halves, pairSamples, transferOf, hi_append_lo]

theorem pairSamples_flatMap (xs : List Transfer) : pairSamples (xs.flatMap Transfer.halves) = xs := by
  induction xs with
  | nil => rfl
  | cons x xs ih => rw [List.flatMap_cons, pairSamples_halves, ih]

/-- The transfers of a list of transfers are that list, whatever the pins were. -/
theorem transfers_flatMap (p : Pins) (xs : List Transfer) : transfers p (xs.flatMap transferEvents) = xs := by
  rw [transfers, samples_flatMap, pairSamples_flatMap]

/-- A transfer that cannot be taken for the first nibble of a cold start. -/
def Transfer.plain : Transfer → Bool
  | .cmd _ b => decide (hi b ≠ 0x3)
  | .dat _ _ => true

theorem pairChipSamples_halves {x : Transfer} (h : x.plain = true) (r : List Sample) :
    pairChipSamples 0 (x.halves ++ r) = x :: pairChipSamples 0 r := by
  cases x <;> simp_all [Transfer.halves, Transfer.plain, pairChipSamples, Sample.coldStart, transferOf, hi_append_lo]

theorem halves_filter (c : Chip) (x : Transfer) :
    (x.halves.filter fun y => decide (y.chip = c)) = if x.chip = c then x.halves else [] := by
  cases x with
  | cmd c' b => by_cases h : c' = c <;> simp [Transfer.halves, Transfer.chip, h]
  | dat c' b => by_cases h : c' = c <;> simp [Transfer.halves, Transfer.chip, h]

/-- Pairing one chip's samples gives that chip's transfers (00_scope.md R16). -/
theorem pairChipSamples_flatMap (c : Chip) {xs : List Transfer} (h : ∀ x ∈ xs, x.plain = true) :
    pairChipSamples 0 ((xs.flatMap Transfer.halves).filter fun y => decide (y.chip = c)) =
      xs.filter fun x => decide (x.chip = c) := by
  induction xs with
  | nil => rfl
  | cons x xs ih =>
    have ih := ih fun y hy => h y (by simp [hy])
    rw [List.flatMap_cons, List.filter_append, halves_filter]
    by_cases hc : x.chip = c
    · rw [if_pos hc, pairChipSamples_halves (h x (by simp)), ih]; simp [hc]
    · rw [if_neg hc, List.nil_append, ih]; simp [hc]

/-- The four lone nibbles of a cold start are skipped (00_scope.md R16, 40_bus_driver.md R139). -/
theorem pairChipSamples_coldStart (c : Chip) (x y z : Sample) (r : List Sample) :
    pairChipSamples 0 (⟨c, false, 0x3⟩ :: x :: y :: z :: r) = pairChipSamples 0 r := by
  simp [pairChipSamples, Sample.coldStart]

@[simp] theorem length_writeByteEvents (c : Chip) (m : RsMode) (b : Byte) : (writeByteEvents c m b).length = 14 := rfl
@[simp] theorem length_transferEvents (x : Transfer) : (transferEvents x).length = 14 := by cases x <;> rfl
theorem length_flatMap_transferEvents (xs : List Transfer) : (xs.flatMap transferEvents).length = 14 * xs.length := by
  induction xs with
  | nil => rfl
  | cons x xs ih => simp [ih]; omega

/-- `t_byte` (70_reset_and_hazards.md R237). -/
theorem duration_writeByte (time : TimeParam → Nat) (c : Chip) (m : RsMode) (b : Byte) :
    duration time (writeByteEvents c m b) = 2 * (time .tAs + time .tPw + time .tH) + time .tCmd := by
  simp [writeByteEvents, setRegisterSelectEvents, setDataNibbleEvents, pulseEnableEvents, duration]; omega

/-! ### Operations that respect the bus (70_reset_and_hazards.md R234) -/

/-- An operation a plan may hold: it drives no enable line by itself and does not end in the set-up wait. -/
def SeqOp.disciplined : SeqOp → Bool
  | .event (.rs _) => true
  | .event (.d _) => true
  | .event (.en _ _) => false
  | .event (.wait p) => decide (p ≠ .tAs)
  | _ => true

theorem timedPulses_writeByte (c : Chip) (m : RsMode) (b : Byte) (es : List Event) :
    timedPulses (writeByteEvents c m b ++ es) = timedPulses es := by
  simp [writeByteEvents, setRegisterSelectEvents, setDataNibbleEvents, pulseEnableEvents, timedPulses]

theorem timedPulses_loneNibble (c : Chip) (n : Nibble) (es : List Event) :
    timedPulses (loneNibbleEvents c n ++ es) = timedPulses es := by
  simp [loneNibbleEvents, setDataNibbleEvents, pulseEnableEvents, timedPulses]

theorem timedPulses_busEvents (i : Instr) (es : List Event) : timedPulses (busEvents i ++ es) = timedPulses es := by
  cases i <;>
    simp [busEvents, clearChipEvents, writeCommandEvents, busWriteCharEvents, List.append_assoc, timedPulses_writeByte,
      timedPulses_loneNibble, timedPulses]

theorem timedPulses_opEvents {op : SeqOp} (h : op.disciplined = true) (es : List Event) :
    timedPulses (opEvents op ++ es) = timedPulses es := by
  cases op with
  | event e =>
    cases e with
    | wait p => cases p <;> simp_all [SeqOp.disciplined, opEvents, timedPulses]
    | en c b => simp [SeqOp.disciplined] at h
    | _ => simp [opEvents, timedPulses]
  | bus i => exact timedPulses_busEvents i es
  | _ => simp [opEvents]

theorem stable_writeByte {p : Pins} (hp : p.idle = true) (c : Chip) (m : RsMode) (b : Byte) :
    stableBus p (writeByteEvents c m b) = true ∧ (pinsAfter p (writeByteEvents c m b)).idle = true := by
  simp only [Pins.idle, Bool.and_eq_true, Bool.not_eq_true'] at hp
  cases c <;> simp [writeByteEvents, setRegisterSelectEvents, setDataNibbleEvents, pulseEnableEvents, stableBus,
    Pins.apply, Pins.idle, hp]

theorem stable_loneNibble {p : Pins} (hp : p.idle = true) (c : Chip) (n : Nibble) :
    stableBus p (loneNibbleEvents c n) = true ∧ (pinsAfter p (loneNibbleEvents c n)).idle = true := by
  simp only [Pins.idle, Bool.and_eq_true, Bool.not_eq_true'] at hp
  cases c <;> simp [loneNibbleEvents, setDataNibbleEvents, pulseEnableEvents, stableBus, Pins.apply, Pins.idle, hp]

theorem stable_wait {p : Pins} (hp : p.idle = true) (w : TimeParam) :
    stableBus p [.wait w] = true ∧ (pinsAfter p [.wait w]).idle = true := by
  simpa [stableBus, Pins.apply] using hp

theorem stable_append {p : Pins} {es es' : List Event}
    (h : stableBus p es = true ∧ (pinsAfter p es).idle = true)
    (h' : (pinsAfter p es).idle = true →
      stableBus (pinsAfter p es) es' = true ∧ (pinsAfter (pinsAfter p es) es').idle = true) :
    stableBus p (es ++ es') = true ∧ (pinsAfter p (es ++ es')).idle = true := by
  rw [stableBus_append, pinsAfter_append, h.1, Bool.true_and]
  exact h' h.2

theorem stable_opEvents {p : Pins} (hp : p.idle = true) {op : SeqOp} (h : op.disciplined = true) :
    stableBus p (opEvents op) = true ∧ (pinsAfter p (opEvents op)).idle = true := by
  cases op with
  | event e =>
    cases e with
    | en c b => simp [SeqOp.disciplined] at h
    | _ => simp_all [opEvents, stableBus, Pins.apply, Pins.idle]
  | bus i =>
    cases i with
    | lcdClear c => exact stable_append (stable_writeByte hp c _ _) fun h => stable_wait h _
    | lcdColdstart8bit c => exact stable_loneNibble hp c _
    | lcdColdstart4bit c => exact stable_loneNibble hp c _
    | lcdDisplayOnNocursor c => exact stable_writeByte hp c _ _
    | lcdDisplayOnCursor c => exact stable_writeByte hp c _ _
    | lcdSetPosition c a => exact stable_writeByte hp c _ _
    | lcdFunctionSet c => exact stable_writeByte hp c _ _
    | lcdEntryMode c => exact stable_writeByte hp c _ _
    | lcdData c d => exact stable_writeByte hp c _ _
    | _ => exact ⟨rfl, hp⟩
  | _ => exact ⟨rfl, hp⟩

/-- Disciplined operations respect the bus from idle pins, and leave idle pins. -/
theorem disciplined_run {ops : List SeqOp} (h : ∀ op ∈ ops, op.disciplined = true) {p : Pins} (hp : p.idle = true) :
    stableBus p (ops.flatMap opEvents) = true ∧ (pinsAfter p (ops.flatMap opEvents)).idle = true ∧
      timedPulses (ops.flatMap opEvents) = true := by
  induction ops generalizing p with
  | nil => exact ⟨rfl, hp, rfl⟩
  | cons op ops ih =>
    have h0 := stable_opEvents hp (h op (by simp))
    obtain ⟨h1, h2, h3⟩ := ih (fun o ho => h o (by simp [ho])) h0.2
    refine ⟨?_, ?_, ?_⟩
    · rw [List.flatMap_cons, stableBus_append, h0.1, h1]; rfl
    · rw [List.flatMap_cons, pinsAfter_append]; exact h2
    · rw [List.flatMap_cons, timedPulses_opEvents (h op (by simp)), h3]

end Sys2Proof.Machine
end

