-- ==== Sys2Proof/Laws/Facade.lean ====
section
/-! SUPPORT. What the Facade's operations do, said once: lists of operations that only drive the bus, runs of stores, and
each internal operation of 41_facade.md. -/

namespace Sys2Proof.Machine

/-! ### The address translation (20_memory.md §3) -/

theorem idx_toNat {l : BitVec 2} {k : BitVec 6} (h : k.toNat ≤ 39) :
    (idx l k).toNat = l.toNat * 40 + k.toNat := by
  have := l.isLt
  simp only [idx, BitVec.toNat_add, BitVec.toNat_mul, BitVec.toNat_setWidth, show (40 : BitVec 8).toNat = 40 from rfl]
  omega

theorem idx_lt {l : BitVec 2} {k : BitVec 6} (h : k.toNat ≤ 39) : (idx l k).toNat < 160 := by
  have := l.isLt
  rw [idx_toNat h]; omega

theorem outOfRange_iff (l k : Byte) : outOfRange l k = true ↔ 3 < l.toNat ∨ 39 < k.toNat := by
  simp [outOfRange, BitVec.lt_def]

theorem outOfRange_false {l k : Byte} (hl : l.toNat ≤ 3) (hk : k.toNat ≤ 39) : outOfRange l k = false := by
  rw [Bool.eq_false_iff, ne_eq, outOfRange_iff]; omega

theorem lineOf_toNat {l : Byte} (h : l.toNat ≤ 3) : (lineOf l).toNat = l.toNat := by
  simp [lineOf]; omega

theorem colOf_toNat {k : Byte} (h : k.toNat ≤ 39) : (colOf k).toNat = k.toNat := by
  simp [colOf]; omega

theorem chipOf_eq (l : BitVec 2) : chipOf l = if l.toNat < 2 then .a else .b := by
  simp [chipOf, BitVec.lt_def]

/-! ### The cells of the shadow buffer (20_memory.md R52, R53) -/

/-- A cell that is listed holds what is listed. -/
theorem cell_of_read {s : State} {a : Nat} {v : Byte} (h : s.buf.read a = some v) : s.cell a = v := by
  simp [State.cell, h]

/-- A cell nothing has written since hardware reset holds a free value (10_state.md R37). -/
theorem cell_unwritten {s : State} {a : Nat} (h : s.buf.read a = none) : s.cell a = Config.freeCell s.bufSeed a := by
  simp [State.cell, h]

/-- Cells that are listed alike after the same reset hold the same. -/
theorem cell_congr {s t : State} {a : Nat} (hr : t.buf.read a = s.buf.read a) (hs : t.bufSeed = s.bufSeed) :
    t.cell a = s.cell a := by
  simp [State.cell, hr, hs]

@[simp] theorem setBuf_cell (s : State) (m : Memory) (a : Nat) :
    (s.setBuf m).cell a = (m.read a).getD (Config.freeCell s.bufSeed a) := rfl

theorem storeCell_cell (s : State) (i : BitVec 8) (v : Byte) (a : Nat) :
    (s.storeCell i v).cell a = if a = i.toNat then v else s.cell a := by
  simp only [State.cell, storeCell_buf, storeCell_bufSeed, read_write]; split <;> rfl

/-! ### Operations that only drive the bus -/

/-- An operation that writes nothing of the Facade. -/
def SeqOp.drives : SeqOp → Bool
  | .event _ => true
  | .bus _ => true
  | _ => false

theorem runOps_drives {ops : List SeqOp} (h : ∀ op ∈ ops, op.drives = true) (s : State) :
    (runOps ops s).line = s.line ∧ (runOps ops s).col = s.col ∧ (runOps ops s).chip = s.chip ∧
      (runOps ops s).state = s.state ∧ (runOps ops s).buf = s.buf := by
  induction ops generalizing s with
  | nil => simp
  | cons op ops ih =>
    have h0 := h op (by simp)
    obtain ⟨h1, h2, h3, h4, h5⟩ := ih (fun o ho => h o (by simp [ho])) (runOp op s)
    simp only [runOps_cons, h1, h2, h3, h4, h5]
    cases op <;> simp_all [SeqOp.drives, runOp]

/-! ### Runs of stores -/

/-- A run of stores writes consecutive cells and nothing else. -/
theorem runOps_storeAll (vs : List Byte) (i : Nat) (s : State) (h : i + vs.length ≤ 256) :
    runOps (storeAllOps i vs) s = s.setBuf (s.buf.writeAll i vs) := by
  induction vs generalizing i s with
  | nil => rfl
  | cons v vs ih =>
    simp only [List.length_cons] at h
    simp only [storeAllOps, runOps_cons, runOp, ih (i + 1) _ (by omega), Memory.writeAll]
    simp [State.storeCell, State.setBuf, Nat.mod_eq_of_lt (show i < 256 by omega)]

@[simp] theorem storeAll_events (vs : List Byte) (i : Nat) : (storeAllOps i vs).flatMap opEvents = [] := by
  induction vs generalizing i with
  | nil => rfl
  | cons v vs ih => simp [storeAllOps, ih, opEvents]

theorem storeAll_disciplined (vs : List Byte) (i : Nat) : ∀ op ∈ storeAllOps i vs, op.disciplined = true := by
  induction vs generalizing i with
  | nil => simp [storeAllOps]
  | cons v vs ih => simp only [storeAllOps, List.mem_cons, forall_eq_or_imp]; exact ⟨rfl, ih _⟩

/-- Blanking the buffer (R161, R162). -/
theorem runOps_blankAll (s : State) :
    runOps blankAllOps s = s.setBuf (s.buf.writeAll 0 (List.replicate 160 Config.blank)) :=
  runOps_storeAll _ _ _ (by rw [List.length_replicate]; omega)

theorem read_blankAll (m : Memory) (a : Nat) :
    (m.writeAll 0 (List.replicate 160 Config.blank)).read a = if a < 160 then some 0x20 else m.read a := by
  rw [read_writeAll, List.length_replicate, List.getElem?_replicate]
  by_cases h : a < 160
  · rw [if_pos (by omega), if_pos h, if_pos (by omega)]; rfl
  · rw [if_neg (by omega), if_neg h]

/-! ### SendPosition, and the data of one line -/

theorem sendPosition_events (cfg : Config) (l : BitVec 2) (k : BitVec 6) :
    (sendPositionOps cfg l k).flatMap opEvents = transferEvents (.cmd (chipOf l) (posCmd cfg l k)) := by
  simp [sendPositionOps, opEvents, busEvents, writeCommandEvents, transferEvents, posCmd]

theorem sendPosition_drives (cfg : Config) (l : BitVec 2) (k : BitVec 6) :
    ∀ op ∈ sendPositionOps cfg l k, op.drives = true := by simp [sendPositionOps, SeqOp.drives]

theorem dataOps_events (c : Chip) (vs : List Byte) :
    (vs.map fun v => SeqOp.bus (.lcdData c v)).flatMap opEvents = (vs.map (Transfer.dat c)).flatMap transferEvents := by
  induction vs with
  | nil => rfl
  | cons v vs ih => simp [ih, opEvents, busEvents, busWriteCharEvents, transferEvents]

theorem sendLine_events (cfg : Config) (l : BitVec 2) (vs : List Byte) :
    (sendLineOps cfg l vs).flatMap opEvents =
      (Transfer.cmd (chipOf l) (posCmd cfg l 0) :: vs.map (Transfer.dat (chipOf l))).flatMap transferEvents := by
  simp only [sendLineOps, List.flatMap_append, sendPosition_events, dataOps_events, List.flatMap_cons]

theorem sendLine_drives (cfg : Config) (l : BitVec 2) (vs : List Byte) :
    ∀ op ∈ sendLineOps cfg l vs, op.drives = true := by
  intro op h
  simp only [sendLineOps, List.mem_append, List.mem_map] at h
  obtain h | ⟨v, -, rfl⟩ := h
  · exact sendPosition_drives cfg l 0 op h
  · rfl

theorem sendLine_disciplined (cfg : Config) (l : BitVec 2) (vs : List Byte) :
    ∀ op ∈ sendLineOps cfg l vs, op.disciplined = true := by
  intro op h
  simp only [sendLineOps, sendPositionOps, List.mem_append, List.mem_map, List.mem_singleton] at h
  obtain rfl | ⟨v, -, rfl⟩ := h <;> rfl

/-! ### RollUp (R166) -/

/-- What the scroll gives: what cells 40..159 hold, then forty blanks. -/
theorem scrolledCells_spec (s : State) :
    (scrolledCells s).length = 160 ∧ (∀ a < 120, (scrolledCells s)[a]? = some (s.cell (a + 40))) ∧
      ∀ a, 120 ≤ a → a < 160 → (scrolledCells s)[a]? = some 0x20 := by
  have hl : ((List.range' 40 120).map s.cell).length = 120 := by simp
  refine ⟨by simp [scrolledCells], fun a ha => ?_, fun a ha ha' => ?_⟩
  · rw [scrolledCells, List.getElem?_append_left (by omega), List.getElem?_map, List.getElem?_range' (by omega)]
    simp [Nat.add_comm]
  · rw [scrolledCells, List.getElem?_append_right (by omega), hl, List.getElem?_replicate, if_pos (by omega)]; rfl

/-- The transfers of a roll-up. -/
def rollUpTransfers (cfg : Config) (cells : List Byte) : List Transfer :=
  .cmd .a (posCmd cfg 0 0) :: (cells.take 40).map (.dat .a) ++
  .cmd .a (posCmd cfg 1 0) :: ((cells.drop 40).take 40).map (.dat .a) ++
  .cmd .b (posCmd cfg 2 0) :: ((cells.drop 80).take 40).map (.dat .b) ++
  .cmd .b (posCmd cfg 3 0) :: ((cells.drop 120).take 40).map (.dat .b) ++ [.cmd .b (posCmd cfg 3 0)]

theorem rollUp_events (cfg : Config) (cells : List Byte) :
    (rollUpOps cfg cells).flatMap opEvents = (rollUpTransfers cfg cells).flatMap transferEvents := by
  simp only [rollUpOps, List.flatMap_append, storeAll_events, sendLine_events, sendPosition_events, rollUpTransfers,
    List.flatMap_cons, show chipOf 0 = .a from rfl, show chipOf 1 = .a from rfl, show chipOf 2 = .b from rfl,
    show chipOf 3 = .b from rfl, List.flatMap_nil, opEvents, List.nil_append, List.append_nil, List.cons_append,
    List.append_assoc]

/-- What a roll-up does to the Facade's state. -/
theorem runOps_rollUp (cfg : Config) {cells : List Byte} (h : cells.length = 160) (s : State) :
    (runOps (rollUpOps cfg cells) s).line = 3 ∧ (runOps (rollUpOps cfg cells) s).col = 0 ∧
      (runOps (rollUpOps cfg cells) s).chip = .b ∧ (runOps (rollUpOps cfg cells) s).state = s.state ∧
      (runOps (rollUpOps cfg cells) s).buf = s.buf.writeAll 0 cells := by
  have hd : ∀ op ∈ sendLineOps cfg 0 (cells.take 40) ++ sendLineOps cfg 1 ((cells.drop 40).take 40) ++
      sendLineOps cfg 2 ((cells.drop 80).take 40) ++ sendLineOps cfg 3 ((cells.drop 120).take 40) ++
      sendPositionOps cfg 3 0, op.drives = true := by
    intro op hop
    simp only [List.mem_append] at hop
    obtain (((h | h) | h) | h) | h := hop
    · exact sendLine_drives _ _ _ _ h
    · exact sendLine_drives _ _ _ _ h
    · exact sendLine_drives _ _ _ _ h
    · exact sendLine_drives _ _ _ _ h
    · exact sendPosition_drives _ _ _ _ h
  have he : rollUpOps cfg cells = storeAllOps 0 cells ++ ((sendLineOps cfg 0 (cells.take 40) ++
      sendLineOps cfg 1 ((cells.drop 40).take 40) ++ sendLineOps cfg 2 ((cells.drop 80).take 40) ++
      sendLineOps cfg 3 ((cells.drop 120).take 40) ++ sendPositionOps cfg 3 0) ++ [.cursor 3 0]) := by
    simp only [rollUpOps, List.append_assoc]
  obtain ⟨-, -, -, h4, h5⟩ := runOps_drives hd (s.setBuf (s.buf.writeAll 0 cells))
  rw [he, runOps_append, runOps_storeAll _ _ _ (by omega), runOps_append]
  refine ⟨rfl, rfl, rfl, ?_, ?_⟩
  · simpa [runOp] using h4
  · simpa [runOp] using h5

theorem rollUp_disciplined (cfg : Config) (cells : List Byte) : ∀ op ∈ rollUpOps cfg cells, op.disciplined = true := by
  intro op hop
  simp only [rollUpOps, sendPositionOps, List.mem_append, List.mem_singleton] at hop
  obtain (((((h | h) | h) | h) | h) | rfl) | rfl := hop
  · exact storeAll_disciplined _ _ _ h
  · exact sendLine_disciplined _ _ _ _ h
  · exact sendLine_disciplined _ _ _ _ h
  · exact sendLine_disciplined _ _ _ _ h
  · exact sendLine_disciplined _ _ _ _ h
  · rfl
  · rfl

/-! ### Advance and PutChar (R165, R170): their three paths -/

theorem advance_within (cfg : Config) {s : State} (h : s.col.toNat < 39) : advanceOps cfg s = [.column (s.col + 1)] := by
  have h2 : s.col < 39 := by simpa [BitVec.lt_def] using h
  unfold advanceOps; rw [if_pos h2]

theorem advance_wrap (cfg : Config) {s : State} (h : s.col = 39) (hl : s.line.toNat < 3) :
    advanceOps cfg s = sendPositionOps cfg (s.line + 1) 0 ++ [.cursor (s.line + 1) 0] := by
  have h2 : s.line < 3 := by simpa [BitVec.lt_def] using hl
  have h3 : ¬ s.col < 39 := by rw [h]; decide
  unfold advanceOps; rw [if_neg h3, if_pos h2]

theorem advance_roll (cfg : Config) {s : State} (h : s.col = 39) (hl : s.line = 3) :
    advanceOps cfg s = rollUpOps cfg (scrolledCells s) := by
  have h3 : ¬ s.col < 39 := by rw [h]; decide
  have h2 : ¬ s.line < 3 := by rw [hl]; decide
  unfold advanceOps; rw [if_neg h3, if_neg h2]

/-- With the cursor on a cell: the data byte, the store, then Advance from the buffer with the character in it. -/
theorem putChar_eq (cfg : Config) (ch : Byte) {s : State} (h : s.col.toNat ≤ 39) :
    putCharOps cfg ch s = .ok (.bus (.lcdData s.chip ch) :: .store (idx s.line s.col) ch ::
      advanceOps cfg (s.storeCell (idx s.line s.col) ch)) := by
  have h1 : ¬ s.col > 39 := by simp [BitVec.lt_def]; omega
  unfold putCharOps; rw [if_neg h1]

/-- Columns 0..38: `col <- col + 1`. -/
theorem putChar_within (cfg : Config) (ch : Byte) (s : State) (h : s.col.toNat < 39) :
    putCharOps cfg ch s =
      .ok [.bus (.lcdData s.chip ch), .store (idx s.line s.col) ch, .column (s.col + 1)] := by
  rw [putChar_eq cfg ch (by omega), advance_within cfg (by exact h)]; rfl

/-- Column 39 of lines 0, 1, 2: the next line. -/
theorem putChar_wrap (cfg : Config) (ch : Byte) (s : State) (h : s.col = 39) (hl : s.line.toNat < 3) :
    putCharOps cfg ch s =
      .ok (.bus (.lcdData s.chip ch) :: .store (idx s.line s.col) ch ::
        (sendPositionOps cfg (s.line + 1) 0 ++ [.cursor (s.line + 1) 0])) := by
  rw [putChar_eq cfg ch (by simp [h]), advance_wrap cfg (by exact h) (by exact hl)]; rfl

/-- (3, 39): the roll-up, of the buffer with the character in it. -/
theorem putChar_roll (cfg : Config) (ch : Byte) (s : State) (h : s.col = 39) (hl : s.line = 3) :
    putCharOps cfg ch s =
      .ok (.bus (.lcdData s.chip ch) :: .store (idx s.line s.col) ch ::
        rollUpOps cfg (scrolledCells (s.storeCell (idx s.line s.col) ch))) := by
  rw [putChar_eq cfg ch (by simp [h]), advance_roll cfg (by exact h) (by exact hl)]

/-- Where the cursor of a cell stands: within a line, at the end of one of the first three, or at the last cell. -/
theorem cursor_cases (s : State) (h : s.col.toNat ≤ 39) :
    s.col.toNat < 39 ∨ (s.col = 39 ∧ s.line.toNat < 3) ∨ (s.col = 39 ∧ s.line = 3) := by
  have := s.line.isLt
  by_cases hk : s.col.toNat < 39
  · exact .inl hk
  · have h39 : s.col = 39 := BitVec.eq_of_toNat_eq (by simp; omega)
    by_cases hl : s.line.toNat < 3
    · exact .inr (.inl ⟨h39, hl⟩)
    · exact .inr (.inr ⟨h39, BitVec.eq_of_toNat_eq (by simp; omega)⟩)

/-- PutChar has operations when the cursor is on a cell, whatever the cells hold. -/
theorem putChar_ok (cfg : Config) (ch : Byte) (s : State) (hk : s.col.toNat ≤ 39) :
    ∃ ops, putCharOps cfg ch s = .ok ops := ⟨_, putChar_eq cfg ch hk⟩

/-- Outside the forty columns there is no cell (R60; log 14). -/
theorem putChar_error (cfg : Config) (ch : Byte) (s : State) (hk : 39 < s.col.toNat) :
    putCharOps cfg ch s = .error .cursorOutOfRange := by
  have : s.col > 39 := by simpa [BitVec.lt_def] using hk
  unfold putCharOps; rw [if_pos this]

/-- All `putCharOps` can answer, and when (R165, R170). -/
theorem putChar_cases {cfg : Config} {ch : Byte} {s : State} {ops : List SeqOp} (h : putCharOps cfg ch s = .ok ops) :
    s.col.toNat ≤ 39 ∧ ∃ more, ops = .bus (.lcdData s.chip ch) :: .store (idx s.line s.col) ch :: more ∧
      ((s.col.toNat < 39 ∧ more = [.column (s.col + 1)]) ∨
       (s.col = 39 ∧ s.line.toNat < 3 ∧ more = sendPositionOps cfg (s.line + 1) 0 ++ [.cursor (s.line + 1) 0]) ∨
       (s.col = 39 ∧ s.line = 3 ∧
          more = rollUpOps cfg (scrolledCells (s.storeCell (idx s.line s.col) ch)))) := by
  by_cases hk : s.col.toNat ≤ 39
  · refine ⟨hk, ?_⟩
    rcases cursor_cases s hk with h' | ⟨h', hl⟩ | ⟨h', hl⟩
    · rw [putChar_within cfg ch s h'] at h; cases h
      exact ⟨_, rfl, .inl ⟨h', rfl⟩⟩
    · rw [putChar_wrap cfg ch s h' hl] at h; cases h
      exact ⟨_, rfl, .inr (.inl ⟨h', hl, rfl⟩)⟩
    · rw [putChar_roll cfg ch s h' hl] at h; cases h
      exact ⟨_, rfl, .inr (.inr ⟨h', hl, rfl⟩)⟩
  · rw [putChar_error cfg ch s (by omega)] at h; cases h

theorem putChar_disciplined {cfg : Config} {ch : Byte} {s : State} {ops : List SeqOp}
    (h : putCharOps cfg ch s = .ok ops) : ∀ op ∈ ops, op.disciplined = true := by
  obtain ⟨-, more, rfl, hm⟩ := putChar_cases h
  intro op hop
  simp only [List.mem_cons] at hop
  obtain rfl | rfl | hop := hop
  · rfl
  · rfl
  · obtain ⟨-, rfl⟩ | ⟨-, -, rfl⟩ | ⟨-, -, rfl⟩ := hm
    · simp only [List.mem_singleton] at hop; subst hop; rfl
    · simp only [sendPositionOps, List.mem_append, List.mem_singleton] at hop
      obtain rfl | rfl := hop <;> rfl
    · exact rollUp_disciplined _ _ _ hop

/-! ### The programs of INIT, CLEAR and SETCURSOR (R161, R162, R163) -/

/-- INIT in three parts: bus operations, the stores, then the position command and the registers. -/
theorem initPlan_eq (cfg : Config) :
    initPlan cfg = .run ((.event (.wait .tPoweron) :: initializeOps cfg .a ++ initializeOps cfg .b) ++
      (blankAllOps ++ (sendPositionOps cfg 0 0 ++ [.cursor 0 0, .ready]))) := by
  simp [initPlan]

theorem initialize_drives (cfg : Config) (c : Chip) : ∀ op ∈ initializeOps cfg c, op.drives = true := by
  simp [initializeOps, SeqOp.drives]

theorem initialize_disciplined (cfg : Config) (c : Chip) : ∀ op ∈ initializeOps cfg c, op.disciplined = true := by
  simp [initializeOps, SeqOp.disciplined]

/-- Bus operations, blanking, the position command for (0, 0): what INIT and CLEAR share, on the Facade's state. -/
theorem runOps_blankHome (cfg : Config) {pre : List SeqOp} (h : ∀ op ∈ pre, op.drives = true) (s : State) :
    let t := runOps (pre ++ (blankAllOps ++ (sendPositionOps cfg 0 0 ++ [.cursor 0 0]))) s
    t.line = 0 ∧ t.col = 0 ∧ t.chip = .a ∧ t.state = s.state ∧
      t.buf = s.buf.writeAll 0 (List.replicate 160 Config.blank) := by
  obtain ⟨-, -, -, h4, h5⟩ := runOps_drives h s
  obtain ⟨-, -, -, g4, g5⟩ := runOps_drives (sendPosition_drives cfg 0 0)
    ((runOps pre s).setBuf ((runOps pre s).buf.writeAll 0 (List.replicate 160 Config.blank)))
  simp only [runOps_append, runOps_blankAll, runOps_cons, runOps_nil, runOp]
  refine ⟨rfl, rfl, rfl, ?_, ?_⟩
  · simpa [h4] using g4
  · simpa [h5] using g5

theorem blankHome_events (cfg : Config) (pre : List SeqOp) :
    (pre ++ (blankAllOps ++ (sendPositionOps cfg 0 0 ++ [SeqOp.cursor 0 0]))).flatMap opEvents =
      pre.flatMap opEvents ++ transferEvents (.cmd .a (posCmd cfg 0 0)) := by
  simp only [List.flatMap_append, blankAllOps, storeAll_events, sendPosition_events, List.nil_append,
    List.flatMap_cons, List.flatMap_nil, opEvents, List.append_nil, show chipOf 0 = .a from rfl]

/-- CLEAR in state Ready. -/
theorem clearPlan_eq (cfg : Config) {s : State} (h : s.state = .ready) :
    clearPlan cfg s = .run ([.bus (.lcdClear .a), .bus (.lcdClear .b)] ++
      (blankAllOps ++ (sendPositionOps cfg 0 0 ++ [.cursor 0 0]))) := by
  simp [clearPlan, h]

/-- SETCURSOR in state Ready with a legal position. -/
theorem setcursorPlan_eq (cfg : Config) {l k : Byte} {s : State} (h : s.state = .ready) (hl : l.toNat ≤ 3)
    (hk : k.toNat ≤ 39) : setcursorPlan cfg l k s = .run (moveToOps cfg l k) := by
  simp [setcursorPlan, h, outOfRange_false hl hk]

/-- Moving the cursor: the registers, and one position command. -/
theorem runOps_moveTo (cfg : Config) (l k : Byte) (s : State) :
    let t := runOps (moveToOps cfg l k) s
    t.line = lineOf l ∧ t.col = colOf k ∧ t.chip = chipOf (lineOf l) ∧ t.state = s.state ∧ t.buf = s.buf := by
  have h := runOps_drives (sendPosition_drives cfg (lineOf l) (colOf k)) s
  simp only [moveToOps, runOps_append, runOps_cons, runOps_nil, runOp]
  simp [h]

theorem moveTo_events (cfg : Config) (l k : Byte) :
    (moveToOps cfg l k).flatMap opEvents = transferEvents (.cmd (chipOf (lineOf l)) (posCmd cfg (lineOf l) (colOf k))) := by
  simp only [moveToOps, List.flatMap_append, sendPosition_events]
  simp [opEvents]

/-- Bus operations, blanking, the position command for (0, 0), Ready last: INIT on the Facade's state (R161). -/
theorem runOps_blankHomeReady (cfg : Config) {pre : List SeqOp} (h : ∀ op ∈ pre, op.drives = true) (s : State) :
    let t := runOps (pre ++ (blankAllOps ++ (sendPositionOps cfg 0 0 ++ [.cursor 0 0, .ready]))) s
    t.line = 0 ∧ t.col = 0 ∧ t.chip = .a ∧ t.state = .ready ∧
      t.buf = s.buf.writeAll 0 (List.replicate 160 Config.blank) := by
  have e : ∀ p q : List SeqOp, p ++ (blankAllOps ++ (q ++ [.cursor 0 0, .ready])) =
      (p ++ (blankAllOps ++ (q ++ [.cursor 0 0]))) ++ [.ready] := by simp
  have := runOps_blankHome cfg h s
  rw [e, runOps_append]
  simp only [runOps_cons, runOps_nil, runOp]
  exact ⟨this.1, this.2.1, this.2.2.1, rfl, this.2.2.2.2⟩

theorem blankHomeReady_events (cfg : Config) (pre : List SeqOp) :
    (pre ++ (blankAllOps ++ (sendPositionOps cfg 0 0 ++ [SeqOp.cursor 0 0, SeqOp.ready]))).flatMap opEvents =
      pre.flatMap opEvents ++ transferEvents (.cmd .a (posCmd cfg 0 0)) := by
  simp only [List.flatMap_append, blankAllOps, storeAll_events, sendPosition_events, List.nil_append,
    List.flatMap_cons, List.flatMap_nil, opEvents, List.append_nil, show chipOf 0 = .a from rfl]

/-- The transfers of CLEAR (R162), from any levels. -/
theorem clear_transfers (p : Pins) (b : Byte) :
    transfers p (clearChipEvents .a ++ clearChipEvents .b ++ transferEvents (.cmd .a b)) =
      [.cmd .a 0x01, .cmd .b 0x01, .cmd .a b] := by
  rw [← transfers_flatMap p [.cmd .a 0x01, .cmd .b 0x01, .cmd .a b]]
  unfold transfers
  simp only [List.flatMap_cons, List.flatMap_nil, List.append_nil, samples_append, clearChipEvents,
    writeCommandEvents, transferEvents, samples_writeByte, samples, fallingEdge, List.append_assoc, List.nil_append]

/-- The position command with the default ROW_BASE (R59). -/
theorem posCmd_default (l : BitVec 2) (k : BitVec 6) (h : k.toNat ≤ 39) :
    posCmd Config.default l k = BitVec.ofNat 8 (0x80 + (if l.toNat % 2 = 0 then 0 else 0x40) + k.toNat) := by
  have hl : rowBase Config.default (rowOf l) = if l.toNat % 2 = 0 then 0 else 0x40 := by
    revert l; decide
  have : ∀ (b : Bool) (k : BitVec 6), k.toNat ≤ 39 →
      setPositionByte ((if b then 0 else 0x40) + k.setWidth 7) =
        BitVec.ofNat 8 (0x80 + (if b then 0 else 0x40) + k.toNat) := by decide
  simpa [posCmd, ctrlAddr, hl] using this (decide (l.toNat % 2 = 0)) k h

end Sys2Proof.Machine
end

