-- ==== Sys2Proof/Laws/Exec.lean ====
section
/-! SUPPORT. What an instruction and a step can do, said once: the inversion lemmas that statements over all instructions
and over all steps rest on. -/

namespace Sys2Proof.Machine

/-! ### Instructions -/

/-- Every instruction is its plan, carried out. -/
theorem exec_eq_perform (i : Instr) (s : State) : exec i s = perform (plan Config.default i s) s := by
  cases i <;> rfl

/-- `exec` is the block with R9's defaults. -/
theorem exec_eq_execWith : exec = execWith Config.default := by
  funext i s; exact exec_eq_perform i s

/-- All an instruction can answer when it answers a next state (60_exceptions.md R204, R206), for every configuration. -/
theorem execWith_next {cfg : Config} {i : Instr} {s t : State} (h : execWith cfg i s = .next t) :
    (∃ ops, plan cfg i s = .run ops ∧ t = runOps ops s) ∨ (∃ c, plan cfg i s = .raise c ∧ t = s.setFlag c) :=
  perform_next h

/-- The same of `exec`. -/
theorem exec_next {i : Instr} {s t : State} (h : exec i s = .next t) :
    (∃ ops, plan Config.default i s = .run ops ∧ t = runOps ops s) ∨
      (∃ c, plan Config.default i s = .raise c ∧ t = s.setFlag c) :=
  execWith_next (exec_eq_execWith ▸ h)

theorem putText_disciplined {cfg : Config} {text : List Byte} {s : State} {ops : List SeqOp}
    (h : putTextOps cfg text s = .ok ops) : ∀ op ∈ ops, op.disciplined = true := by
  induction text generalizing s ops with
  | nil => cases h; simp
  | cons ch rest ih =>
    simp only [putTextOps] at h
    split at h
    · cases h
    · next ops' h' =>
      split at h
      · cases h
      · next more hm =>
        cases h
        intro op hop
        rcases List.mem_append.mp hop with hop | hop
        · exact putChar_disciplined h' op hop
        · exact ih hm op hop

theorem moveTo_disciplined (cfg : Config) (l k : Byte) : ∀ op ∈ moveToOps cfg l k, op.disciplined = true := by
  simp [moveToOps, sendPositionOps, SeqOp.disciplined]

theorem blankAll_disciplined : ∀ op ∈ blankAllOps, op.disciplined = true := storeAll_disciplined _ _

/-- What SETCURSOR, WRITECHAR, WRITEMESSAGE run, when they run (R163, R164, R167, R206). -/
theorem setcursorPlan_run {cfg : Config} {l k : Byte} {s : State} {ops : List SeqOp}
    (h : setcursorPlan cfg l k s = .run ops) :
    s.state = .ready ∧ l.toNat ≤ 3 ∧ k.toNat ≤ 39 ∧ ops = moveToOps cfg l k := by
  unfold setcursorPlan at h
  split at h
  · cases h
  · next h1 =>
    split at h
    · cases h
    · next h2 =>
      have := mt (outOfRange_iff l k).2 h2
      cases h
      exact ⟨by simpa using h1, by omega, by omega, rfl⟩

theorem writecharPlan_run {cfg : Config} {ch : Byte} {s : State} {ops : List SeqOp}
    (h : writecharPlan cfg ch s = .run ops) : s.state = .ready ∧ putCharOps cfg ch s = .ok ops := by
  unfold writecharPlan at h
  split at h
  · cases h
  · next h1 =>
    refine ⟨by simpa using h1, ?_⟩
    cases hp : putCharOps cfg ch s with
    | ok o => rw [hp] at h; cases h; rfl
    | error f => rw [hp] at h; cases h

theorem writemessagePlan_run {cfg : Config} {l k : Byte} {text : List Byte} {s : State} {ops : List SeqOp}
    (h : writemessagePlan cfg l k text s = .run ops) :
    s.state = .ready ∧ l.toNat ≤ 3 ∧ k.toNat ≤ 39 ∧
      ∃ more, putTextOps cfg text (runOps (moveToOps cfg l k) s) = .ok more ∧ ops = moveToOps cfg l k ++ more := by
  unfold writemessagePlan at h
  split at h
  · cases h
  · next h1 =>
    split at h
    · cases h
    · next h2 =>
      have := mt (outOfRange_iff l k).2 h2
      refine ⟨by simpa using h1, by omega, by omega, ?_⟩
      split at h
      · next more hm => cases h; exact ⟨more, hm, rfl⟩
      · cases h

theorem clearPlan_run {cfg : Config} {s : State} {ops : List SeqOp} (h : clearPlan cfg s = .run ops) :
    s.state = .ready ∧ ops = [.bus (.lcdClear .a), .bus (.lcdClear .b)] ++
      (blankAllOps ++ (sendPositionOps cfg 0 0 ++ [.cursor 0 0])) := by
  by_cases hs : s.state = .ready
  · rw [clearPlan_eq cfg hs] at h; cases h; exact ⟨hs, rfl⟩
  · unfold clearPlan at h; rw [if_pos hs] at h; cases h

/-- Every operation of every plan respects the bus (70_reset_and_hazards.md R234). -/
theorem plan_disciplined {cfg : Config} {i : Instr} {s : State} {ops : List SeqOp} (h : plan cfg i s = .run ops) :
    ∀ op ∈ ops, op.disciplined = true := by
  cases i with
  | init =>
    have e := (initPlan_eq cfg).symm.trans h
    cases e
    have h1 := initialize_disciplined cfg .a
    have h2 := initialize_disciplined cfg .b
    have h3 := blankAll_disciplined
    intro op hop
    simp only [sendPositionOps, List.mem_append, List.mem_cons, List.not_mem_nil, or_false, List.cons_append, List.nil_append] at hop
    rcases hop with rfl | (hop | hop) | hop | rfl | rfl | rfl
    · rfl
    · exact h1 op hop
    · exact h2 op hop
    · exact h3 op hop
    · rfl
    · rfl
    · rfl
  | clear =>
    obtain ⟨-, rfl⟩ := clearPlan_run h
    intro op hop
    simp only [sendPositionOps, List.mem_append, List.mem_cons, List.not_mem_nil, or_false] at hop
    rcases hop with (rfl | rfl) | hop | rfl | rfl
    · rfl
    · rfl
    · exact blankAll_disciplined op hop
    · rfl
    · rfl
  | setcursor l k =>
    obtain ⟨-, -, -, rfl⟩ := setcursorPlan_run h
    exact moveTo_disciplined cfg l k
  | writechar ch => exact putChar_disciplined (writecharPlan_run h).2
  | writemessage l k text =>
    obtain ⟨-, -, -, more, hm, rfl⟩ := writemessagePlan_run h
    intro op hop
    rcases List.mem_append.mp hop with hop | hop
    · exact moveTo_disciplined cfg l k op hop
    · exact putText_disciplined hm op hop
  | reserved op => cases h
  | _ => cases h; simp [SeqOp.disciplined]

/-- A run never leaves state Ready (10_state.md R25). -/
theorem runOps_ready {ops : List SeqOp} {s : State} (h : s.state = .ready) : (runOps ops s).state = .ready := by
  induction ops generalizing s with
  | nil => exact h
  | cons op ops ih => exact ih (by cases op <;> simp [runOp, h])

/-- A run without the last action of INIT leaves the state. -/
theorem runOps_state {ops : List SeqOp} (h : SeqOp.ready ∉ ops) (s : State) : (runOps ops s).state = s.state := by
  induction ops generalizing s with
  | nil => rfl
  | cons op ops ih =>
    simp only [List.mem_cons, not_or] at h
    rw [runOps_cons, ih h.2]
    cases op <;> simp_all [runOp]

/-! ### The statements' words -/

theorem emitted_runOps (ops : List SeqOp) (s : State) : emitted s (runOps ops s) (ops.flatMap opEvents) := by
  simp [emitted]

theorem emitted_unique {s t : State} {es es' : List Event} (h : emitted s t es) (h' : emitted s t es') : es = es' := by
  unfold emitted at h h'; rw [h] at h'; simpa using h'

theorem sameFlags_runOps (ops : List SeqOp) (s : State) : sameFlags s (runOps ops s) := by simp [sameFlags]

/-! ### Steps -/

theorem fetchBusy_noReset (op : SeqOp) (ops : List SeqOp) (s : State) (h : rstNext s.inputs = false) :
    fetchBusy op ops s = .settled (runOp op { s with seq := ops }) := by
  unfold fetchBusy; split <;> simp_all [rstNext]

@[simp] theorem carryOut_settled (ex : Instr → State → Host.Outcome State Fault Refusal) (cfg : Config) (t : State) :
    (Fetched.settled t).carryOut ex cfg = .next t := rfl
@[simp] theorem carryOut_run (ex : Instr → State → Host.Outcome State Fault Refusal) (cfg : Config) (i : Instr) (t : State) :
    (Fetched.run i t).carryOut ex cfg = ex i t := rfl
@[simp] theorem carryOut_start (ex : Instr → State → Host.Outcome State Fault Refusal) (cfg : Config) (i : Instr)
    (t : State) : (Fetched.start i t).carryOut ex cfg = begin (plan cfg i t) t := rfl

/-- All a step can do when it answers a next state, for any meaning of the instructions and every configuration. -/
theorem carryOut_cases {ex : Instr → State → Host.Outcome State Fault Refusal} {cfg : Config} {s t : State}
    (h : (fetch s).carryOut ex cfg = .next t) :
    (s.seq = [] ∧ s.inputs = [] ∧ t = s) ∨
    (∃ b rest, s.seq = [] ∧ s.inputs = .byte b :: rest ∧ (∃ e, decodeHost (s.asm ++ [b]) = .error e) ∧
      t = { s with asm := s.asm ++ [b], inputs := rest }) ∨
    (∃ b rest i left, s.seq = [] ∧ s.inputs = .byte b :: rest ∧ decodeHost (s.asm ++ [b]) = .ok (i, left) ∧
      rstNext rest = false ∧ ex i { s with asm := left, inputs := rest } = .next t) ∨
    (∃ b rest i left, s.seq = [] ∧ s.inputs = .byte b :: rest ∧ decodeHost (s.asm ++ [b]) = .ok (i, left) ∧
      rstNext rest = true ∧
      begin (plan cfg i { s with asm := left, inputs := rest }) { s with asm := left, inputs := rest } =
        .next t) ∨
    (∃ n rest, s.seq = [] ∧ s.inputs = .rst n :: rest ∧ t = hardReset s rest) ∨
    (∃ op ops rest, s.seq = op :: ops ∧ s.inputs = .rst 0 :: rest ∧ t = cutReset s rest) ∨
    (∃ op ops n rest, s.seq = op :: ops ∧ s.inputs = .rst (n + 1) :: rest ∧
      t = runOp op { s with seq := ops, inputs := .rst n :: rest }) ∨
    (∃ op ops, s.seq = op :: ops ∧ rstNext s.inputs = false ∧ t = runOp op { s with seq := ops }) := by
  obtain hs | ⟨op, ops, hs⟩ : s.seq = [] ∨ ∃ op ops, s.seq = op :: ops := by cases s.seq <;> simp
  · obtain hi | ⟨n, rest, hi⟩ | ⟨b, rest, hi⟩ :
        s.inputs = [] ∨ (∃ n rest, s.inputs = .rst n :: rest) ∨ ∃ b rest, s.inputs = .byte b :: rest := by
      rcases s.inputs with _ | ⟨_ | _, _⟩ <;> simp
    · simp only [Fetched.carryOut, fetch, hs, fetchIdle, hi] at h
      cases h
      exact .inl ⟨hs, hi, rfl⟩
    · simp only [Fetched.carryOut, fetch, hs, fetchIdle, hi] at h
      cases h
      exact .inr (.inr (.inr (.inr (.inl ⟨n, rest, hs, hi, rfl⟩))))
    · cases hd : decodeHost (s.asm ++ [b]) with
      | error e =>
        simp only [Fetched.carryOut, fetch, hs, fetchIdle, hi, acceptByte, hd] at h
        cases h
        exact .inr (.inl ⟨b, rest, hs, hi, ⟨e, hd⟩, by rw [hs]⟩)
      | ok x =>
        obtain ⟨i, left⟩ := x
        cases hr : rstNext rest with
        | false =>
          simp only [Fetched.carryOut, fetch, hs, fetchIdle, hi, acceptByte, hd, hr, Bool.false_eq_true, if_false] at h
          exact .inr (.inr (.inl ⟨b, rest, i, left, hs, hi, hd, hr, by rw [hs]; exact h⟩))
        | true =>
          simp only [Fetched.carryOut, fetch, hs, fetchIdle, hi, acceptByte, hd, hr, if_true] at h
          exact .inr (.inr (.inr (.inl ⟨b, rest, i, left, hs, hi, hd, hr, by rw [hs]; exact h⟩)))
  · cases hr : rstNext s.inputs with
    | false =>
      simp only [Fetched.carryOut, fetch, hs, fetchBusy_noReset op ops s hr] at h
      cases h
      exact .inr (.inr (.inr (.inr (.inr (.inr (.inr ⟨op, ops, hs, rfl, rfl⟩))))))
    | true =>
      obtain ⟨n, rest, hi⟩ : ∃ n rest, s.inputs = .rst n :: rest := by
        rcases hi : s.inputs with _ | ⟨_ | _, _⟩ <;> simp_all [rstNext]
      cases n with
      | zero =>
        simp only [Fetched.carryOut, fetch, hs, fetchBusy, hi] at h
        cases h
        exact .inr (.inr (.inr (.inr (.inr (.inl ⟨op, ops, rest, hs, hi, rfl⟩)))))
      | succ n =>
        simp only [Fetched.carryOut, fetch, hs, fetchBusy, hi] at h
        cases h
        exact .inr (.inr (.inr (.inr (.inr (.inr (.inl ⟨op, ops, n, rest, hs, hi, rfl⟩))))))

/-- `step` is the block with R9's defaults. -/
theorem step_eq_stepWith : step = stepWith Config.default := by
  funext s; simp only [step, stepWith, exec_eq_execWith]

/-- Operations after a run of operations: the queue, the assembly and the inputs do not matter to the rest. -/
theorem settle_runOp (op : SeqOp) (ops : List SeqOp) (s : State) (i : List Input) (h : s.seq = op :: ops) :
    (runOp op { s with seq := ops, inputs := i }).settle = { s.settle with inputs := i } := by
  have e : runOp op { s with seq := ops, inputs := i } = (runOp op { s with seq := [] }).withPort ops s.asm i := by
    have := runOp_withPort op { s with seq := [] } ops s.asm i
    simpa [State.withPort] using this
  have e' : s.settle = runOps ops (runOp op { s with seq := [] }) := by simp [State.settle, h]
  have e'' := runOps_withPort ops (runOp op { s with seq := [] }) [] s.asm i
  rw [e, e']
  simp only [State.settle, State.withPort] at e'' ⊢
  rw [e'']
  simp

end Sys2Proof.Machine
end

