-- ==== Sys2Proof/Laws/Lcd.lean ====
section
/-! SUPPORT. What one chip does (20_memory.md R73), said once: a sample, a byte, the four nibbles of the cold start; and
that no operation breaks a memory's canonical form. -/

namespace Sys2Proof.Machine

/-! ### The canonical form -/

theorem execute_wf {x : LcdChip} (hx : x.ddram.wf = true) (n : Nat) (rs : Bool) (h l : Nibble) :
    (x.execute n rs h l).ddram.wf = true := by
  unfold LcdChip.execute LcdChip.data LcdChip.command
  split_ifs <;> first | exact hx | exact wf_write hx _ _ | exact clearedDdram_wf

theorem sample_wf {x : LcdChip} (hx : x.ddram.wf = true) (n : Nat) (rs : Bool) (d : Nibble) :
    (x.sample n rs d).ddram.wf = true := by
  unfold LcdChip.sample
  split_ifs
  · exact execute_wf hx _ _ _ _
  · exact execute_wf (x := { x with regs := { x.regs with phase := false } }) hx _ _ _ _
  · exact hx

/-- The three memories of a state are in canonical form. -/
def State.canonical (s : State) : Prop := s.buf.wf = true ∧ s.lcdA.ddram.wf = true ∧ s.lcdB.ddram.wf = true

theorem emit_canonical {s : State} (h : s.canonical) (e : Event) : (emit e s).canonical := by
  unfold emit
  cases fallingEdge s.pins e with
  | none => exact h
  | some c =>
    cases c
    · exact ⟨h.1, sample_wf h.2.1 _ _ _, h.2.2⟩
    · exact ⟨h.1, h.2.1, sample_wf h.2.2 _ _ _⟩

theorem emitAll_canonical {s : State} (h : s.canonical) (es : List Event) : (emitAll es s).canonical := by
  induction es generalizing s with
  | nil => exact h
  | cons e es ih => exact ih (emit_canonical h e)

theorem runOp_canonical {s : State} (h : s.canonical) (op : SeqOp) : (runOp op s).canonical := by
  cases op with
  | event e => exact emit_canonical h e
  | bus i => exact emitAll_canonical h _
  | store i v => exact ⟨wf_write h.1 _ _, h.2⟩
  | column k => exact h
  | cursor l k => exact h
  | ready => exact h

/-- Every run of operations keeps the canonical form of the three memories. -/
theorem runOps_canonical {s : State} (h : s.canonical) (ops : List SeqOp) : (runOps ops s).canonical := by
  induction ops generalizing s with
  | nil => exact h
  | cons op ops ih => exact ih (runOp_canonical h op)

/-! ### Which chip an operation changes -/

theorem lcd_writeByte (c c' : Chip) (m : RsMode) (b : Byte) (s : State) :
    (emitAll (writeByteEvents c m b) s).lcd c' =
      if c' = c then ((s.lcd c).sample s.freeCtr (rsLevel m) (hi b)).sample (s.freeCtr + 1) (rsLevel m) (lo b)
      else s.lcd c' := by
  rw [emitAll_writeByte]; cases c <;> cases c' <;> simp [State.lcd, State.setLcd]

theorem lcd_loneNibble (c c' : Chip) (n : Nibble) (s : State) :
    (emitAll (loneNibbleEvents c n) s).lcd c' = if c' = c then (s.lcd c).sample s.freeCtr s.pins.rs n else s.lcd c' := by
  rw [emitAll_loneNibble]; cases c <;> cases c' <;> simp [State.lcd, State.setLcd]

@[simp] theorem lcd_wait (w : TimeParam) (c : Chip) (s : State) : (emit (.wait w) s).lcd c = s.lcd c := by
  cases c <;> rfl
@[simp] theorem lcd_rs (b : Bool) (c : Chip) (s : State) : (emit (.rs b) s).lcd c = s.lcd c := by cases c <;> rfl
@[simp] theorem lcd_d (n : Nibble) (c : Chip) (s : State) : (emit (.d n) s).lcd c = s.lcd c := by cases c <;> rfl
@[simp] theorem lcd_setBuf (s : State) (m : Memory) (c : Chip) : (s.setBuf m).lcd c = s.lcd c := by cases c <;> rfl

/-! ### What a chip does with a byte -/

/-- A chip in step executes the byte it is sent. -/
theorem sample_byte {x : LcdChip} (hx : x.inStep) (n : Nat) (rs : Bool) (h l : Nibble) :
    (x.sample n rs h).sample (n + 1) rs l =
      LcdChip.execute (n + 1) rs h l { x with regs := { x.regs with latch := h } } := by
  obtain ⟨h1, h2, -⟩ := hx
  simp [LcdChip.sample, h1, h2]

/-- A position command sets the address (30_encoding.md R100). -/
theorem command_setPosition (n : Nat) (a : BitVec 7) (x : LcdChip) :
    LcdChip.command n (hi (setPositionByte a)) (lo (setPositionByte a)) x = { x with regs := { x.regs with ac := a } } := by
  have : ∀ a : BitVec 7, (hi (setPositionByte a)).getLsbD 3 = true ∧
      (hi (setPositionByte a) ++ lo (setPositionByte a)).setWidth 7 = a := by decide
  simp only [LcdChip.command, this, if_true]

/-- What a cleared display RAM reads as. -/
theorem read_clearedDdram (a : Nat) :
    clearedDdram.read a = if a ≤ 0x27 ∨ 0x40 ≤ a ∧ a ≤ 0x67 then some 0x20 else none := by
  by_cases h : a < 128
  · have : ∀ a < 128, clearedDdram.read a = if a ≤ 0x27 ∨ 0x40 ≤ a ∧ a ≤ 0x67 then some 0x20 else none := by
      decide
    exact this a h
  · rw [if_neg (by omega)]
    have : ∀ m : Memory, (∀ c ∈ m, c.1 < 128) → m.read a = none := by
      intro m
      induction m with
      | nil => intro _; rfl
      | cons x m ih =>
        intro hm
        have := hm x (by simp)
        simp only [Memory.read]
        rw [if_neg (by omega)]
        exact ih fun c hc => hm c (by simp [hc])
    exact this _ (by decide)

/-- A command of a chip between two bytes leaves it between two bytes. -/
theorem command_phase {x : LcdChip} (hp : x.regs.phase = false) (n : Nat) (h l : Nibble) :
    (LcdChip.command n h l x).regs.phase = false := by
  unfold LcdChip.command
  split_ifs <;> first | exact hp | rfl

/-- The last three nibbles of the cold start bring a chip between two bytes into 4-bit mode. -/
theorem coldStart_three {x : LcdChip} (hp : x.regs.phase = false) (n2 n3 n4 : Nat) :
    let y := ((x.sample n2 false 3).sample n3 false 3).sample n4 false 2
    y.regs.mode8 = false ∧ y.regs.phase = false := by
  obtain ⟨⟨m, p, l, ac, i, sh, d, cs, bl, tl, f⟩, dd⟩ := x
  cases hp
  cases m <;> simp [LcdChip.sample, LcdChip.execute, LcdChip.command]

/-- Whatever a chip was doing, the four nibbles of the cold start bring it into 4-bit mode between two bytes
(40_bus_driver.md R139). -/
theorem coldStart_four (x : LcdChip) (n1 n2 n3 n4 : Nat) :
    let y := (((x.sample n1 false 3).sample n2 false 3).sample n3 false 3).sample n4 false 2
    y.regs.mode8 = false ∧ y.regs.phase = false := by
  by_cases h : x.regs.mode8 = false ∧ x.regs.phase = false
  · obtain ⟨⟨m, p, l, ac, i, sh, d, cs, bl, tl, f⟩, dd⟩ := x
    obtain ⟨h1, h2⟩ := h
    cases h1; cases h2
    simp [LcdChip.sample, LcdChip.execute, LcdChip.command]
  · by_cases hm : x.regs.mode8 = true
    · have e : x.sample n1 false 3 = LcdChip.command n1 3 (Config.freeNibble n1) x := by
        simp [LcdChip.sample, hm, LcdChip.execute]
      exact coldStart_three (by rw [e]; simp [LcdChip.command]) _ _ _
    · have hp : x.regs.phase = true := by
        by_contra h'; exact h ⟨by simpa using hm, by simpa using h'⟩
      have e : x.sample n1 false 3 =
          LcdChip.command n1 x.regs.latch 3 { x with regs := { x.regs with phase := false } } := by
        simp [LcdChip.sample, hm, hp, LcdChip.execute]
      exact coldStart_three (by rw [e]; exact command_phase rfl _ _ _) _ _ _

end Sys2Proof.Machine
end

