-- ==== Sys2Proof/Laws/PerInstr.lean ====
section
/-! SUPPORT. Statements about every instruction as syntax, one lemma per constructor. -/

namespace Sys2Proof.Laws.EncodedSize

/-- The size of an instruction's code, with its operands: 30_encoding.md R94 for the host rows (R95 for a reserved byte);
one byte or one nibble on the bus for the LCD rows (R99, R102). -/
def Statement (i : Instr) : Prop :=
  i.wf = true →
    match encode i with
    | .host bytes => bytes.length ≤ maxCommandBytes ∧ bytes.length = (match i with
        | .setcursor _ _ => 3
        | .writechar _ => 2
        | .writemessage _ _ text => 4 + text.length
        | _ => 1)
    | .bus8 c m b => decodeBus8 c m b = .ok i
    | .bus4 c n => decodeBus4 c n = .ok i

theorem init : Statement .init := fun _ => ⟨by decide, rfl⟩
theorem clear : Statement .clear := fun _ => ⟨by decide, rfl⟩
theorem setcursor (l k : Byte) : Statement (.setcursor l k) := fun _ => ⟨by simp [maxCommandBytes], rfl⟩
theorem writechar (ch : Byte) : Statement (.writechar ch) := fun _ => ⟨by simp [maxCommandBytes], rfl⟩
theorem writemessage (l k : Byte) (text : List Byte) : Statement (.writemessage l k text) := by
  intro h
  simp only [Instr.wf, decide_eq_true_eq] at h
  simp only [encode, maxCommandBytes, List.length_cons]
  omega
theorem reserved (op : Byte) : Statement (.reserved op) := fun _ => ⟨by simp [maxCommandBytes], rfl⟩
theorem lcdClear (c : Chip) : Statement (.lcdClear c) := fun _ => rfl
theorem lcdDisplayOnNocursor (c : Chip) : Statement (.lcdDisplayOnNocursor c) := fun _ => rfl
theorem lcdDisplayOnCursor (c : Chip) : Statement (.lcdDisplayOnCursor c) := fun _ => rfl
theorem lcdSetPosition (c : Chip) (addr : BitVec 7) : Statement (.lcdSetPosition c addr) := by
  intro _
  have h : ∀ a : BitVec 7, setPositionByte a ≠ 0x01 ∧ setPositionByte a ≠ 0x0C ∧ setPositionByte a ≠ 0x0E ∧
      (setPositionByte a).getLsbD 7 = true ∧ (setPositionByte a).setWidth 7 = a := by decide
  obtain ⟨h1, h2, h3, h4, h5⟩ := h addr
  simp only [encode, decodeBus8, h1, h2, h3, h4, h5, if_false, if_true]
theorem lcdFunctionSet (c : Chip) : Statement (.lcdFunctionSet c) := fun _ => rfl
theorem lcdEntryMode (c : Chip) : Statement (.lcdEntryMode c) := fun _ => rfl
theorem lcdData (c : Chip) (d : Byte) : Statement (.lcdData c d) := fun _ => rfl
theorem lcdColdstart8bit (c : Chip) : Statement (.lcdColdstart8bit c) := fun _ => rfl
theorem lcdColdstart4bit (c : Chip) : Statement (.lcdColdstart4bit c) := fun _ => rfl

end Sys2Proof.Laws.EncodedSize
end

