-- ==== Sys2Proof/Tests/Slice0.lean ====
section
/-! SUPPORT. Tests: well-formedness, words written out from the encodings, one step on a small state against the vectors
of 95_test_vectors.md, and for every statement with hypotheses a state and operands that meet them. -/

namespace Sys2Proof.Tests

open Sys2Proof Sys2Proof.Machine

set_option maxRecDepth 20000

/-! ### Well-formedness -/

theorem test_wf_text_255 : Instr.wf (.writemessage 0 0 (List.replicate 255 0x20)) = true := by decide
theorem test_wf_refuses_text_256 : Instr.wf (.writemessage 0 0 (List.replicate 256 0x20)) = false := by decide
theorem test_wf_refuses_reserved_opcode : (Instr.wf (.reserved 0x10) || Instr.wf (.reserved 0x11) ||
    Instr.wf (.reserved 0x12) || Instr.wf (.reserved 0x13) || Instr.wf (.reserved 0x14)) = false := by decide
theorem test_wf_reserved_neighbours : (Instr.wf (.reserved 0x0F) && Instr.wf (.reserved 0x15)) = true := by decide
theorem test_config_wf : (Config.default.wf && !Config.wf { rowBase0 := 0x00, rowBase1 := 0x27, cursorOn := false } &&
    !Config.wf { rowBase0 := 0x00, rowBase1 := 0x59, cursorOn := false }) = true := by decide
/-- R9: T_PW, T_CMD, T_INIT1, T_INIT2 and F_CLK are above 0, each refused at 0; T_AS may be 0. -/
theorem test_timing_wf : (Timing.wf { Timing.default 1 with tAs := 0 } && !Timing.wf (Timing.default 0) &&
    !Timing.wf { Timing.default 1 with tPw := 0 } && !Timing.wf { Timing.default 1 with tCmd := 0 } &&
    !Timing.wf { Timing.default 1 with tInit1 := 0 } && !Timing.wf { Timing.default 1 with tInit2 := 0 }) = true := by
  decide
/-- `ceil(T * F_CLK)` (R9): 450 ns at 1 MHz is one cycle, 50 us is fifty. -/
theorem test_waitCycles : (Timing.default 1000000).waitCycles .tPw = 1 ∧ (Timing.default 1000000).waitCycles .tCmd = 50 := by
  decide

/-! ### Decoding: words written out bit by bit from 30_encoding.md R91, R92, R99, R102 -/

theorem test_decode_init : decode (.host [0b00010000]) = .ok .init := by decide
theorem test_decode_clear : decode (.host [0b00010001]) = .ok .clear := by decide
theorem test_decode_setcursor : decode (.host [0b00010010, 0b00000010, 0b00001010]) = .ok (.setcursor 2 10) := by decide
theorem test_decode_writechar : decode (.host [0b00010011, 0b01000001]) = .ok (.writechar 0x41) := by decide
theorem test_decode_writemessage :
    decode (.host [0b00010100, 0b00000000, 0b00000000, 0b00000010, 0b01001000, 0b01101001]) =
      .ok (.writemessage 0 0 [0x48, 0x69]) := by decide
theorem test_decode_reserved : decode (.host [0b00001111]) = .ok (.reserved 0x0F) := by decide
theorem test_decode_lcd_clear : decode (.bus8 .a .command 0b00000001) = .ok (.lcdClear .a) := by decide
theorem test_decode_display_on_nocursor :
    decode (.bus8 .b .command 0b00001100) = .ok (.lcdDisplayOnNocursor .b) := by decide
theorem test_decode_display_on_cursor : decode (.bus8 .a .command 0b00001110) = .ok (.lcdDisplayOnCursor .a) := by decide
theorem test_decode_set_position : decode (.bus8 .b .command 0b11000101) = .ok (.lcdSetPosition .b 0b1000101) := by decide
theorem test_decode_function_set : decode (.bus8 .a .command 0b00101000) = .ok (.lcdFunctionSet .a) := by decide
theorem test_decode_entry_mode : decode (.bus8 .b .command 0b00000110) = .ok (.lcdEntryMode .b) := by decide
theorem test_decode_data : decode (.bus8 .b .data 0b10100101) = .ok (.lcdData .b 0xA5) := by decide
theorem test_decode_coldstart_8bit : decode (.bus4 .a 0b0011) = .ok (.lcdColdstart8bit .a) := by decide
theorem test_decode_coldstart_4bit : decode (.bus4 .b 0b0010) = .ok (.lcdColdstart4bit .b) := by decide

/-- R96: an incomplete command, bytes left over, a byte and a nibble that are never sent (U17, R102). -/
theorem test_decode_rejects :
    decode (.host []) = .error .empty ∧ decode (.host [0x14, 0, 0, 2, 0x48]) = .error .incomplete ∧
      decode (.host [0x10, 0x10]) = .error .trailing ∧ decode (.bus8 .a .command 0x02) = .error (.notSentByte 0x02) ∧
      decode (.bus4 .a 0x1) = .error (.notColdstart 0x1) := by decide

/-- V-X15: after a reserved byte the next byte is again an opcode; V-X17: text bytes are data. -/
theorem test_decode_stream :
    decodeStream [0x15, 0x10, 0x14, 0, 0, 3, 0x10, 0x11, 0x12, 0x13] =
      ⟨[.reserved 0x15, .init, .writemessage 0 0 [0x10, 0x11, 0x12]], [0x13]⟩ := by decide

/-- Words of spec/opcode_table.json, numbered as the table numbers them. -/
theorem test_table_words :
    decodeTableWord 8 0x10 = some .init ∧ decodeTableWord 24 0x0A0212 = some (.setcursor 2 10) ∧
      decodeTableWord 32 0x00000014 = some (.writemessage 0 0 []) ∧ decodeTableWord 8 0x00 = some (.reserved 0x00) ∧
      decodeTableWord 8 0xC5 = some (.lcdSetPosition .a 0x45) ∧ decodeTableWord 8 0x03 = some (.lcdColdstart8bit .a) := by
  decide

/-! ### States -/

/-- 160 cells of BLANK. -/
def blanks : Memory := (List.range 160).map fun a => (a, 0x20)

/-- A chip as INIT leaves it (20_memory.md R73, R74). -/
def clearedChip : LcdChip :=
  { regs := { mode8 := false, phase := false, latch := 0, ac := 0, incr := true, shiftOnWrite := false,
              displayOn := true, cursorShown := false, blink := false, twoLine := true, font5x10 := false }
    ddram := clearedDdram }

/-- Ready, the cursor at (0, 0), the buffer and both displays blank (95_test_vectors.md, "Ready-home"). -/
def home : State :=
  { State.reset with state := .ready, buf := blanks, lcdA := clearedChip, lcdB := clearedChip }

/-- Ready-home with the cursor elsewhere. -/
def homeAt (l : BitVec 2) (k : BitVec 6) : State := { home with line := l, col := k, chip := chipOf l }

/-- Ready-home with bytes at the port. -/
def homeWith (inputs : List Input) : State := { home with inputs := inputs }

/-- The transfers of an outcome from the state before it. -/
def sent (s : State) (o : Host.Outcome State Fault Refusal) : Option (List Transfer) :=
  (nextOf o).map fun t => transfers s.pins (t.events.drop s.events.length)

/-- Cursor and chip after an outcome. -/
def cursorAfter (o : Host.Outcome State Fault Refusal) : Option (BitVec 2 × BitVec 6 × Chip) :=
  (nextOf o).map fun t => (t.line, t.col, t.chip)

/-! ### One step or one instruction, against 95_test_vectors.md -/

/-- V-F1: 187 events, cursor (0, 0), Ready. -/
theorem test_init : (nextOf (exec .init State.reset)).map (fun t => (t.state, t.events.length, t.cell 159)) =
    some (.ready, 187, 0x20) := by decide
/-- V-F1: the chips after INIT, by R73. -/
theorem test_init_chips : (nextOf (exec .init State.reset)).map (fun t => (t.lcdA.regs.mode8, t.lcdB.regs.twoLine,
    t.lcdB.regs.displayOn, t.lcdA.regs.incr)) = some (false, true, true, true) := by decide
/-- R139, R16: the transfers of each chip after the four lone nibbles of its Initialize, from power-on. -/
theorem test_init_transfers : (nextOf (exec .init State.reset)).map (fun t =>
      (chipTransfers .a State.reset.pins t.events, chipTransfers .b State.reset.pins t.events)) =
    some ([.cmd .a 0x28, .cmd .a 0x0C, .cmd .a 0x06, .cmd .a 0x01, .cmd .a 0x80],
      [.cmd .b 0x28, .cmd .b 0x0C, .cmd .b 0x06, .cmd .b 0x01]) := by decide
/-- R9, R139: a block built with DISPLAY_ON_CMD = 0x0E and the two rows exchanged. -/
theorem test_init_configured :
    (nextOf (execWith { rowBase0 := 0x40, rowBase1 := 0x00, cursorOn := true } .init State.reset)).map
      (fun t => (chipTransfers .a State.reset.pins t.events, t.lcdB.regs.cursorShown)) =
    some ([.cmd .a 0x28, .cmd .a 0x0E, .cmd .a 0x06, .cmd .a 0x01, .cmd .a 0xC0], true) := by decide
/-- V-F23. -/
theorem test_clear : (sent (homeAt 2 18) (exec .clear (homeAt 2 18)), cursorAfter (exec .clear (homeAt 2 18))) =
    (some [.cmd .a 0x01, .cmd .b 0x01, .cmd .a 0x80], some (0, 0, .a)) := by decide
/-- V-F10. -/
theorem test_setcursor : (sent home (exec (.setcursor 3 39) home), cursorAfter (exec (.setcursor 3 39) home)) =
    (some [.cmd .b 0xE7], some (3, 39, .b)) := by decide
/-- V-X10, V-X7: the check is on the whole byte, line before column. -/
theorem test_setcursor_range :
    (nextOf (exec (.setcursor 4 39) home)).map (·.errRange) = some true ∧
      (nextOf (exec (.setcursor 0 40) home)).map (·.errRange) = some true := by decide
/-- V-F16. -/
theorem test_writechar_chip_boundary :
    (sent (homeAt 1 39) (exec (.writechar 0x5A) (homeAt 1 39)), cursorAfter (exec (.writechar 0x5A) (homeAt 1 39))) =
      (some [.dat .a 0x5A, .cmd .b 0x80], some (2, 0, .b)) := by decide
/-- V-F19: 2324 events, buf[119] = 0x5A, buf[159] = 0x20, cursor (3, 0). -/
theorem test_writechar_rollup :
    (nextOf (exec (.writechar 0x5A) (homeAt 3 39))).map
      (fun t => (t.events.length, t.cell 119, t.cell 159, t.line, t.col)) =
      some (2324, 0x5A, 0x20, 3, 0) := by decide
/-- R166, R37: the roll-up goes on over cells nothing has written since reset. -/
theorem test_rollup_unwritten :
    (nextOf (exec (.writechar 0x5A) { homeAt 3 39 with buf := [] })).map
      (fun t => (t.events.length, t.cell 119, t.cell 159, t.line, t.col)) =
      some (2324, 0x5A, 0x20, 3, 0) := by decide
/-- V-F21. -/
theorem test_writemessage :
    sent home (exec (.writemessage 1 38 [0x78, 0x79, 0x7A]) home) =
      some [.cmd .a 0xE6, .dat .a 0x78, .dat .a 0x79, .cmd .b 0x80, .dat .b 0x7A] := by decide
/-- V-X4: before INIT the whole message is dropped. -/
theorem test_writemessage_not_ready :
    nextOf (exec (.writemessage 4 0 [0x61, 0x62]) State.reset) = some { State.reset with errNotReady := true } := by decide
/-- V-X5. -/
theorem test_reserved : nextOf (exec (.reserved 0x00) State.reset) = some { State.reset with errOpcode := true } := by decide
/-- V-B9: the events of ClearChip(B) end in the two waits. -/
theorem test_lcd_clear : (nextOf (exec (.lcdClear .b) home)).map (fun t => (t.events.length, t.trace.take 2)) =
    some (15, [.wait .tClear, .wait .tCmd]) := by decide
/-- R99, R73: the cursor bit of 0x0E and 0x0C. -/
theorem test_lcd_display_on :
    (nextOf (exec (.lcdDisplayOnCursor .a) home)).map (·.lcdA.regs.cursorShown) = some true ∧
      (nextOf (exec (.lcdDisplayOnNocursor .a) home)).map (·.lcdA.regs.cursorShown) = some false := by decide
/-- V-B4: WriteByte(B, COMMAND, 0xC0), all 14 events. -/
theorem test_lcd_set_position : (nextOf (exec (.lcdSetPosition .b 0x40) home)).map (·.events) =
    some [.rs false, .d 0xC, .wait .tAs, .en .b true, .wait .tPw, .en .b false, .wait .tH,
      .d 0x0, .wait .tAs, .en .b true, .wait .tPw, .en .b false, .wait .tH, .wait .tCmd] := by decide
/-- R101, R73: 0x28 is 4-bit, two lines, 5x8. -/
theorem test_lcd_function_set : (nextOf (exec (.lcdFunctionSet .b) home)).map (fun t => samples home.pins t.events) =
    some [⟨.b, false, 0x2⟩, ⟨.b, false, 0x8⟩] := by decide
/-- V-B8, events 60 to 73: the samples of 0x06. -/
theorem test_lcd_entry_mode : (nextOf (exec (.lcdEntryMode .a) home)).map (fun t => samples home.pins t.events) =
    some [⟨.a, false, 0x0⟩, ⟨.a, false, 0x6⟩] := by decide
/-- V-B7: high nibble first. -/
theorem test_lcd_data : (nextOf (exec (.lcdData .b 0xA5) home)).map (fun t => samples home.pins t.events) =
    some [⟨.b, true, 0xA⟩, ⟨.b, true, 0x5⟩] := by decide
/-- R139, V-B8: one lone nibble is one pulse. -/
theorem test_lcd_coldstart : (nextOf (exec (.lcdColdstart8bit .a) home)).map (fun t => samples home.pins t.events) =
      some [⟨.a, false, 0x3⟩] ∧
    (nextOf (exec (.lcdColdstart4bit .b) home)).map (fun t => samples home.pins t.events) =
      some [⟨.b, false, 0x2⟩] := by decide

/-- R106, R97: one byte a step; the last one runs the command. -/
theorem test_step_bytes :
    (nextOf (step (homeWith [.byte 0x12, .byte 1, .byte 7]))).map (fun t => (t.asm, t.inputs, t.trace)) =
      some ([0x12], [.byte 1, .byte 7], []) ∧
    cursorAfter (step { homeWith [.byte 7] with asm := [0x12, 1] }) = some (1, 7, .a) := by decide

/-- What the host places for a table word is what the next step runs: a host row and an LCD row. -/
theorem test_fetch_word :
    (nextOf (step (State.reset.withFetchWord 8 0x11))).map (·.errNotReady) = some true ∧
      (nextOf (step (State.reset.withFetchWord 8 0x01))).map (fun t => samples State.reset.pins t.events) =
        some [⟨.a, false, 0x0⟩, ⟨.a, false, 0x1⟩] := by decide

/-- R231, R236: a reset after one operation of a CLEAR. -/
theorem test_reset_cuts :
    (nextOf (step (homeWith [.byte 0x11, .rst 0, .byte 0x10]))).map (fun t => (t.busy, t.cmdReady)) = some (true, false) ∧
      (nextOf (step { homeWith [.rst 0, .byte 0x10] with seq := [.bus (.lcdClear .b)] })).map
        (fun t => (t.state, t.seq, t.inputs)) = some (.uninitialized, [], [.byte 0x10]) := by decide

/-! ### States that meet the hypotheses of the statements -/

/-- CLEAR before any operation, or after some, is in progress. -/
def busyClear (inputs : List Input) : State :=
  { homeWith inputs with seq := [.bus (.lcdClear .b), .store 0 0x20, .cursor 0 0] }

theorem witness_HardwareResetFromAnyState :
    ((homeWith [.rst 3, .byte 1]).inputs = .rst 3 :: [.byte 1] ∧ (homeWith [.rst 3, .byte 1]).seq = []) ∧
      ((busyClear [.rst 0]).inputs = .rst 0 :: [] ∧ (0 : Nat) = 0) := by decide

theorem witness_HardwareResetLeavesAnyBuffer :
    ((homeWith [.rst 3]).inputs = .rst 3 :: [] ∧ (homeWith [.rst 3]).seq = []) ∧
      ((busyClear [.rst 0]).inputs = .rst 0 :: [] ∧ (0 : Nat) = 0) ∧ 159 < 160 ∧
      (nextOf (step (homeWith [.byte 0x11]))).isSome = true ∧ (homeWith [.byte 0x11]).rstNow = false := by decide

theorem witness_HardwareResetAndTheChips :
    ((homeWith [.rst 3]).inputs = .rst 3 :: [] ∧ (homeWith [.rst 3]).seq = []) ∧
      ((busyClear [.rst 0]).inputs = .rst 0 :: [] ∧ (busyClear [.rst 0]).seq ≠ []) := by decide

theorem witness_DecodingAStreamFollowsItsEquations :
    (2 : Byte).toNat ≤ [0x48, 0x69].length ∧ isHostOpcode 0x0F = false ∧ isHostOpcode 0x15 = false ∧
      decodeHost [0x14, 0, 0, 1] = .error .incomplete ∧ ([] : List Byte).length < (1 : Byte).toNat := by decide

theorem witness_DecodingAnEncodedInstructionGivesItBack :
    Instr.wf (.writemessage 3 39 (List.replicate 255 0xFF)) = true ∧ Instr.wf (.reserved 0xFF) = true ∧
      Instr.wf (.lcdSetPosition .b 0x7F) = true := by decide

theorem witness_EncodingADecodedWordGivesItBack :
    decodeHost [0x13, 0xFF, 0x10] = .ok (.writechar 0xFF, [0x10]) ∧
      decodeBus8 .b .command 0xFF = .ok (.lcdSetPosition .b 0x7F) ∧ decodeBus4 .a 0x2 = .ok (.lcdColdstart4bit .a) := by
  decide

/-- The shortest and the longest command. -/
theorem witness_CommandLengths :
    decodeHost [0x10, 0x11] = .ok (.init, [0x11]) ∧
      decodeHost (0x14 :: 0 :: 0 :: 255 :: List.replicate 255 0x20) =
        .ok (.writemessage 0 0 (List.replicate 255 0x20), []) := by decide

theorem witness_AssemblyViewsAreRight :
    (asmTextLeft [0x14, 0, 0, 2, 0x48] = some 1 ∧ decodeHost [0x14, 0, 0, 2, 0x48] = .error .incomplete ∧
      ([0x69] : List Byte).length = 1) ∧
    asmDiscarding .uninitialized (0x14 :: 0 :: 0 :: []) = true ∧ asmDiscarding .ready (0x14 :: 3 :: 40 :: [1]) = true := by
  decide

theorem witness_StepRunsTheDecodedCommand :
    let s := { homeWith [.byte 39, .byte 0x10] with asm := [0x12, 3] }
    s.seq = [] ∧ s.inputs = .byte 39 :: [.byte 0x10] ∧ rstNext [.byte 0x10] = false ∧
      decodeHost (s.asm ++ [39]) = .ok (.setcursor 3 39, []) := by decide

theorem witness_IncompleteCommandWaits :
    (let s := { homeWith [.byte 3] with asm := [0x12] }
     s.seq = [] ∧ s.inputs = .byte 3 :: [] ∧ decodeHost (s.asm ++ [3]) = .error .incomplete) ∧
    home.seq = [] ∧ home.inputs = [] := by decide

theorem witness_BusyStepRunsTheSequencer :
    (busyClear [.byte 1]).seq = .bus (.lcdClear .b) :: [.store 0 0x20, .cursor 0 0] ∧
      rstNext (busyClear [.byte 1]).inputs = false ∧
      (SeqOp.bus (.lcdClear .b) = .bus (.lcdClear .b) ∧ ∀ bytes, encode (.lcdClear .b) ≠ .host bytes) := by
  refine ⟨rfl, rfl, rfl, fun _ h => by cases h⟩

/-- The reset due after one more operation. -/
theorem witness_BusyStepCountsDownToTheReset :
    (busyClear [.rst 1]).seq = .bus (.lcdClear .b) :: [.store 0 0x20, .cursor 0 0] ∧
      (busyClear [.rst 1]).inputs = .rst (0 + 1) :: [] ∧
      (SeqOp.bus (.lcdClear .b) = .bus (.lcdClear .b) ∧ ∀ bytes, encode (.lcdClear .b) ≠ .host bytes) :=
  ⟨rfl, rfl, rfl, fun _ h => by cases h⟩

theorem witness_DefaultMachineIsOneOfAllConfigurations :
    (busyClear []).seq ≠ [] ∧ home.inputs = [] ∧ (homeWith [.rst 3]).inputs = .rst 3 :: [] ∧
      (let s := { homeWith [.byte 3] with asm := [0x12] }
       s.inputs = .byte 3 :: [] ∧ decodeHost (s.asm ++ [3]) = .error .incomplete) ∧
      ∀ bytes, encode (.lcdData .a 0x10) ≠ .host bytes :=
  ⟨by decide, rfl, rfl, by decide, fun _ h => by cases h⟩

theorem witness_SteppedCommandEndsWhereTheWholeOneDoes :
    home.seq = [] ∧ rstNext home.inputs = false ∧
      plan Config.default (.setcursor 3 39) home = .run (moveToOps Config.default 3 39) := by decide

theorem witness_CommandBeforeAResetIsStarted :
    let s := { homeWith [.byte 39, .rst 1] with asm := [0x12, 3] }
    let r := { homeWith [.byte 40, .rst 1] with asm := [0x12, 3] }
    (s.seq = [] ∧ s.inputs = .byte 39 :: .rst 1 :: [] ∧ decodeHost (s.asm ++ [39]) = .ok (.setcursor 3 39, []) ∧
      plan Config.default (.setcursor 3 39) { s with asm := [], inputs := .rst 1 :: [] } =
        .run (moveToOps Config.default 3 39)) ∧
    (r.seq = [] ∧ r.inputs = .byte 40 :: .rst 1 :: [] ∧ decodeHost (r.asm ++ [40]) = .ok (.setcursor 3 40, []) ∧
      plan Config.default (.setcursor 3 40) { r with asm := [], inputs := .rst 1 :: [] } = .raise .errRange) := by decide

theorem witness_InitBecomesReadyLast :
    (match initPlan Config.default with
      | .run ops => decide (0 < ops.length)
      | _ => false) = true := by decide

/-- For ClearResult, ClearTwiceEndsInTheSameState, SetcursorResult (first clause, its corner) and EmptyMessage. -/
theorem witness_ClearResult : home.state = .ready ∧ State.reset.state = .uninitialized := by decide

theorem witness_ClearTwiceEndsInTheSameState : home.state = .ready ∧ home.lcdA.inStep ∧ home.lcdB.inStep := by
  refine ⟨rfl, ⟨rfl, rfl, rfl⟩, ⟨rfl, rfl, rfl⟩⟩

/-- Chips in step, and an address with a cell, for the display clauses of SetcursorResult, WritecharWithinALine and
WritecharWrapsToTheNextLine. -/
theorem witness_displayWrite : (homeAt 2 39).lcdA.inStep ∧ (homeAt 2 39).lcdB.inStep ∧
    hasCell ((homeAt 2 39).lcd (homeAt 2 39).chip).regs.ac = true := ⟨⟨rfl, rfl, rfl⟩, ⟨rfl, rfl, rfl⟩, by decide⟩

theorem witness_SetcursorResult :
    (home.state = .ready ∧ (3 : Byte).toNat ≤ 3 ∧ (39 : Byte).toNat ≤ 39) ∧ State.reset.state = .uninitialized ∧
      (3 < (4 : Byte).toNat ∨ 39 < (0 : Byte).toNat) ∧ (3 < (3 : Byte).toNat ∨ 39 < (40 : Byte).toNat) := by decide

/-- The largest row base, and the two orders of the rows. -/
theorem witness_PositionCommandForEveryRowBase :
    Config.wf { rowBase0 := 0x30, rowBase1 := 0x58, cursorOn := true } = true ∧
      Config.wf { rowBase0 := 0x58, rowBase1 := 0x00, cursorOn := false } = true ∧ home.state = .ready ∧
      (3 : Byte).toNat ≤ 3 ∧ (39 : Byte).toNat ≤ 39 := by decide

theorem witness_WritecharWithinALine : (homeAt 3 38).state = .ready ∧ (homeAt 3 38).col.toNat < 39 := by decide

theorem witness_WritecharWrapsToTheNextLine :
    (homeAt 2 39).state = .ready ∧ (homeAt 2 39).col = 39 ∧ (homeAt 2 39).line.toNat < 3 := by decide

theorem witness_WritecharRollsUpAtTheEnd :
    (homeAt 3 39).state = .ready ∧ (homeAt 3 39).line = 3 ∧ (homeAt 3 39).col = 39 := by decide

theorem witness_WritecharStopsOnlyOutsideTheInvariant :
    ((homeAt 3 40).state = .ready ∧ 39 < (homeAt 3 40).col.toNat) ∧ (homeAt 3 39).col.toNat ≤ 39 ∧
    exec (.writechar 0) (homeAt 3 63) = .fault .cursorOutOfRange := by
  refine ⟨by decide, by decide, rfl⟩

theorem witness_WritemessageIsSetcursorThenWritechars :
    (home.state = .ready ∧ (0 : Byte).toNat ≤ 3 ∧ (39 : Byte).toNat ≤ 39) ∧ State.reset.state = .uninitialized ∧
      (3 < (255 : Byte).toNat ∨ 39 < (255 : Byte).toNat) := by decide

theorem home_bufWritten : home.bufWritten := by unfold State.bufWritten; decide

theorem witness_WritemessageCompletes :
    home.state = .ready ∧ (3 : Byte).toNat ≤ 3 ∧ (39 : Byte).toNat ≤ 39 ∧ (home.buf.read 159).isSome = true := by
  decide

/-- The longest text that does not reach (3, 39), and two bytes up to it. -/
theorem witness_MessageFillsConsecutiveCells :
    home.state = .ready ∧ (0 : Byte).toNat * 40 + (0 : Byte).toNat + (List.replicate 159 (0x41 : Byte)).length < 160 ∧
      (3 : Byte).toNat * 40 + (37 : Byte).toNat + [0x41, 0x42].length < 160 := by decide

theorem witness_MessageAcrossTheLastCell : home.state = .ready := rfl

theorem witness_Message161RollsUpOnce : home.state = .ready ∧ (List.replicate 161 (0x41 : Byte)).length = 161 := by decide

theorem witness_ReservedOpcodeSetsItsFlag :
    let s := homeWith [.byte 0x15, .byte 0x10]
    isHostOpcode 0x15 = false ∧ s.seq = [] ∧ s.asm = [] ∧ s.inputs = .byte 0x15 :: [.byte 0x10] := by decide

theorem witness_NotReadyFaultDropsTheCommand :
    let s := { State.reset with inputs := [.byte 0x63], asm := [0x12, 0x09] }
    s.state = .uninitialized ∧ s.seq = [] ∧ s.inputs = .byte 0x63 :: [] ∧
      decodeHost (s.asm ++ [0x63]) = .ok (.setcursor 9 0x63, []) ∧ (Instr.setcursor 9 0x63 = .clear ∨
      (∃ l k, Instr.setcursor 9 0x63 = .setcursor l k) ∨ (∃ ch, Instr.setcursor 9 0x63 = .writechar ch) ∨
      (∃ l k text, Instr.setcursor 9 0x63 = .writemessage l k text)) :=
  ⟨rfl, rfl, rfl, rfl, .inr (.inl ⟨9, 0x63, rfl⟩)⟩

/-- Both commands, each at its first illegal value. -/
theorem witness_RangeFaultDropsTheCommand :
    (let s := { homeWith [.byte 40] with asm := [0x12, 3] }
     s.state = .ready ∧ (3 < (3 : Byte).toNat ∨ 39 < (40 : Byte).toNat) ∧ s.seq = [] ∧ s.inputs = .byte 40 :: [] ∧
       decodeHost (s.asm ++ [40]) = .ok (.setcursor 3 40, [])) ∧
    (let s := { homeWith [.byte 0x61] with asm := [0x14, 4, 39, 1] }
     s.state = .ready ∧ (3 < (4 : Byte).toNat ∨ 39 < (39 : Byte).toNat) ∧ s.seq = [] ∧ s.inputs = .byte 0x61 :: [] ∧
       decodeHost (s.asm ++ [0x61]) = .ok (.writemessage 4 39 [0x61], [])) := by decide

theorem witness_ACommandRaisesAtMostOneFault :
    exec (.reserved 0x80) State.reset = .next { State.reset with errOpcode := true } := rfl

theorem witness_FaultFlagsAreSticky :
    let s := { homeWith [.byte 0x10] with errRange := true }
    (nextOf (step s)).isSome = true ∧ s.rstNow = false ∧ s.flag .errRange = true := by decide

theorem witness_OnlyInitMakesReadyAndNothingLeavesIt :
    ((nextOf (exec .init State.reset)).map (·.state) = some .ready ∧ State.reset.state = .uninitialized) ∧
      ((nextOf (step (homeWith [.byte 0xFF]))).isSome = true ∧ (homeWith [.byte 0xFF]).rstNow = false ∧
        (homeWith [.byte 0xFF]).state = .ready) := by decide

theorem witness_EveryInstructionCompletes : (homeAt 3 39).col.toNat ≤ 39 := by decide

/-- Ready-home with chip B at another address. -/
def homeAc (ac : BitVec 7) : State := { home with lcdB := { clearedChip with regs := { clearedChip.regs with ac := ac } } }

/-- Chips in step at each address that has a cell at the edge of its range, and a row that leaves the other chip. -/
theorem witness_LcdRowsActOnTheirChipOnly :
    (∀ ac ∈ [0x00, 0x27, 0x40, 0x67], ((homeAc ac).lcd .b).inStep ∧
      (((homeAc ac).lcd .b).regs.ac.toNat ≤ 0x27 ∨
        0x40 ≤ ((homeAc ac).lcd .b).regs.ac.toNat ∧ ((homeAc ac).lcd .b).regs.ac.toNat ≤ 0x67)) ∧
    (nextOf (exec (.lcdClear .a) home)).isSome = true ∧ Chip.b ≠ Chip.a := by
  refine ⟨?_, by decide, by decide⟩
  unfold LcdChip.inStep
  decide

/-- A chip in step, and a chip in 8-bit mode with register-select low. -/
theorem witness_LcdCommandRowsSetTheChipsRegisters :
    (home.lcd .a).inStep ∧ (State.reset.lcd .b).regs.mode8 = true ∧ State.reset.pins.rs = false :=
  ⟨⟨rfl, rfl, rfl⟩, rfl, rfl⟩

theorem witness_TransfersOfOneChip :
    let cfg : Config := { rowBase0 := 0x58, rowBase1 := 0x00, cursorOn := true }
    ∃ t es, execWith cfg .clear home = .next t ∧ emitted home t es ∧ Instr.clear ≠ .init ∧
      (∀ c', Instr.clear ≠ .lcdColdstart8bit c') ∧ ∀ c', Instr.clear ≠ .lcdColdstart4bit c' :=
  ⟨_, _, congrArg (perform · home) (clearPlan_eq _ (s := home) rfl), emitted_runOps _ _, by decide,
    fun _ => nofun, fun _ => nofun⟩

theorem witness_WaitCyclesAreTheLeastEnough :
    (Timing.default 1).wf = true ∧ 0 < 1 ∧
      (Timing.default 1000000).time .tPw * (Timing.default 1000000).fClk ≤ 1 * 1000000000 := by decide

theorem witness_LevelsLeftBehind : home.pins.idle = true ∧ (∀ b, Event.d 0x5 ≠ .rs b) ∧ (∀ n, Event.rs true ≠ .d n) ∧
    (∀ b, Event.en .b true ≠ .en .a b) ∧ (∀ b, Event.en .a true ≠ .en .b b) := by decide

theorem witness_EveryInstructionRespectsTheBus :
    (nextOf (exec .clear home)).isSome = true ∧ home.pins.idle = true := by decide

theorem witness_SamplesComeInPairs :
    (∃ t es, exec .clear home = .next t ∧ emitted home t es ∧ home.pins.idle = true ∧
      ∃ bytes, encode .clear = .host bytes) ∧
    ∃ t es, exec .init home = .next t ∧ emitted home t es := by
  refine ⟨⟨_, _, congrArg (perform · home) (clearPlan_eq Config.default (s := home) rfl),
      emitted_runOps _ _, rfl, _, rfl⟩,
    ⟨_, _, congrArg (perform · home) (initPlan_eq Config.default), emitted_runOps _ _⟩⟩

/-- One state for each clause: INIT, CLEAR, SETCURSOR, the three paths of WRITECHAR, WRITEMESSAGE up to column 38 with the
longest and with a short text, and a fault. -/
theorem witness_CommandDurations :
    (nextOf (exec .init home)).isSome = true ∧
    ((nextOf (exec .clear home)).isSome = true ∧ home.state = .ready) ∧
    ((nextOf (exec (.setcursor 3 39) home)).isSome = true ∧ (3 : Byte).toNat ≤ 3 ∧ (39 : Byte).toNat ≤ 39) ∧
    ((nextOf (exec (.writechar 0) (homeAt 0 38))).isSome = true ∧ (homeAt 0 38).col.toNat < 39) ∧
    ((nextOf (exec (.writechar 0) (homeAt 2 39))).isSome = true ∧ (homeAt 2 39).line.toNat < 3) ∧
    (nextOf (exec (.writechar 0) (homeAt 3 39))).isSome = true ∧
    ((nextOf (exec (.writemessage 3 0 (List.replicate 39 0x41)) home)).isSome = true ∧
      (0 : Byte).toNat + (List.replicate 39 (0x41 : Byte)).length ≤ 39 ∧ (37 : Byte).toNat + [0x41, 0x42].length ≤ 39) ∧
    exec (.reserved 0) home = .next (home.setFlag .errOpcode) ∧ emitted home (home.setFlag .errOpcode) [] ∧
      plan Config.default (.reserved 0) home = .raise .errOpcode := by
  refine ⟨by decide, by decide, by decide, by decide, by decide,
    by decide, by decide, rfl, rfl, rfl⟩

theorem witness_PositionsAndCellsAreOneToOne :
    (39 : BitVec 6) ≤ 39 ∧ 159 < 160 ∧ Config.default.wf = true ∧ chipOf 3 = chipOf 3 ∧
      ctrlAddr Config.default 3 39 = ctrlAddr Config.default 3 39 := by decide

/-- Above 159 nothing is listed. -/
theorem blanks_high (a : Nat) (h : 160 ≤ a) : blanks.read a = none := by
  have key : ∀ m : Memory, (∀ c ∈ m, c.1 < 160) → m.read a = none := by
    intro m
    induction m with
    | nil => intro _; rfl
    | cons x m ih =>
      intro hm
      have := hm x (by simp)
      simp only [Memory.read]
      rw [if_neg (by omega)]
      exact ih fun c hc => hm c (by simp [hc])
  exact key _ (by decide)

theorem homeWith_idleOk (inputs : List Input) : (homeWith inputs).idleOk := by
  refine ⟨⟨(by decide : (0 : BitVec 6) ≤ 39), rfl⟩, rfl, ⟨?_, ?_, ?_, blanks_high⟩, fun _ => home_bufWritten⟩
  · show blanks.wf = true; decide
  · show clearedDdram.wf = true; decide
  · show clearedDdram.wf = true; decide

theorem homeWith_inv (inputs : List Input) : (homeWith inputs).Inv :=
  ⟨.inl rfl, (homeWith_idleOk inputs).2.2.1, homeWith_idleOk inputs⟩

theorem homeWith_tracked (inputs : List Input) : (homeWith inputs).tracked := by
  refine ⟨⟨rfl, rfl, rfl⟩, ⟨rfl, rfl, rfl⟩, rfl, ?_⟩
  show ∀ (l : BitVec 2) (k : BitVec 6), k ≤ 39 →
    (home.lcd (chipOf l)).ddram.read (ctrlAddr Config.default l k).toNat = some (home.cell (idx l k).toNat)
  decide

/-- Other parameters than the defaults (R9). -/
def exchanged : Config := { rowBase0 := 0x40, rowBase1 := 0x00, cursorOn := true }

/-- A state in which a step runs CLEAR. -/
theorem witness_EveryStepKeepsTheInvariant :
    (homeWith [.byte 0x11]).Inv ∧ (nextOf (step (homeWith [.byte 0x11]))).isSome = true ∧
      (nextOf (stepWith exchanged (homeWith [.byte 0x11]))).isSome = true :=
  ⟨homeWith_inv _, by decide, by decide⟩

theorem witness_TheMachineNeverStops : (homeWith [.byte 0x11]).Inv := homeWith_inv _

theorem witness_EveryStepKeepsTheDisplayTracking :
    (homeWith [.byte 0x10]).TrackingInv ∧ (nextOf (step (homeWith [.byte 0x10]))).isSome = true ∧
      (nextOf (stepWith { Config.default with cursorOn := true } (homeWith [.byte 0x10]))).isSome = true :=
  ⟨⟨homeWith_inv _, fun _ => homeWith_tracked _⟩, by decide, by decide⟩

theorem witness_EveryStepKeepsTheMemoriesCanonical :
    let s := homeWith [.byte 0x11]
    s.buf.wf = true ∧ s.lcdA.ddram.wf = true ∧ s.lcdB.ddram.wf = true ∧ (nextOf (step s)).isSome = true ∧
      (nextOf (stepWith exchanged s)).isSome = true :=
  ⟨(homeWith_idleOk _).2.2.1.1, (homeWith_idleOk _).2.2.1.2.1, (homeWith_idleOk _).2.2.1.2.2.1, by decide,
    by decide⟩

end Sys2Proof.Tests
end

/-! The five outputs read off the status word (10_state.md R32). -/

namespace Sys2Proof.Machine

/-- A command executes exactly while the sequencer has actions left. -/
theorem State.busy_eq_decide (s : State) : s.busy = decide (s.seq ≠ []) := by
  cases h : s.seq <;> simp [State.busy, h]

/-- The status word, one output appended at a time below the ones before: bit 0 is the last. -/
theorem State.status_eq_concat (s : State) :
    s.status = ((((BitVec.ofBool s.errRange).concat s.errNotReady).concat s.errOpcode).concat s.busy).concat s.stReady :=
  rfl

@[simp] theorem State.status_getElem_zero (s : State) : s.status[0] = s.stReady := by
  simp [s.status_eq_concat]

@[simp] theorem State.status_getElem_one (s : State) : s.status[1] = s.busy := by
  simp [s.status_eq_concat]

@[simp] theorem State.status_getElem_two (s : State) : s.status[2] = s.errOpcode := by
  simp [s.status_eq_concat]

@[simp] theorem State.status_getElem_three (s : State) : s.status[3] = s.errNotReady := by
  simp [s.status_eq_concat]

@[simp] theorem State.status_getElem_four (s : State) : s.status[4] = s.errRange := by
  simp [s.status_eq_concat]

/-- Settles O4: the word's bits are the five outputs in R32's order, and `busy` says that the sequencer is not idle. -/
theorem statusWordShowsTheFiveOutputs : Obligations.StatusWordShowsTheFiveOutputs := by
  intro s
  refine ⟨s.status_getElem_zero, ?_, s.status_getElem_two, s.status_getElem_three, s.status_getElem_four⟩
  calc s.status.getLsbD 1
    _ = s.busy := s.status_getElem_one
    _ = decide (s.seq ≠ []) := s.busy_eq_decide

end Sys2Proof.Machine

/-! The address translation for every configuration that meets R9's constraint (20_memory.md R51, R55 to R59). -/

namespace Sys2Proof

/-- R9's constraint on the natural numbers: neither range of forty addresses leaves the seven bits, and they are disjoint. -/
theorem Config.wf_iff (cfg : Config) :
    cfg.wf = true ↔ cfg.rowBase0.toNat + 39 ≤ 0x7F ∧ cfg.rowBase1.toNat + 39 ≤ 0x7F ∧
      (cfg.rowBase0.toNat + 39 < cfg.rowBase1.toNat ∨ cfg.rowBase1.toNat + 39 < cfg.rowBase0.toNat) := by
  simp [Config.wf, and_assoc]

end Sys2Proof

namespace Sys2Proof.Machine

/-- Chip B is named by bit 1 of the line. -/
theorem chipOf_eq_b_iff (l : BitVec 2) : chipOf l = .b ↔ l.getLsbD 1 = true := by
  revert l; decide

theorem rowOf_toNat (l : BitVec 2) : (rowOf l).toNat = l.toNat % 2 := by
  simp [rowOf]

/-- A line is the only one of its row on its chip. -/
theorem line_eq_of_chipOf_of_rowOf {l l' : BitVec 2} (hc : chipOf l = chipOf l') (hr : rowOf l = rowOf l') : l = l' := by
  revert l l'; decide

theorem rowBase_rowOf_toNat (cfg : Config) (l : BitVec 2) :
    (rowBase cfg (rowOf l)).toNat = if l.toNat % 2 = 0 then cfg.rowBase0.toNat else cfg.rowBase1.toNat := by
  have h : rowOf l = 0 ↔ l.toNat % 2 = 0 := by rw [← BitVec.toNat_inj, rowOf_toNat]; rfl
  simp only [rowBase, h]
  split <;> rfl

theorem rowBase_toNat_le {cfg : Config} (h : cfg.wf = true) (r : BitVec 1) : (rowBase cfg r).toNat + 39 ≤ 0x7F := by
  obtain ⟨h0, h1, -⟩ := cfg.wf_iff.mp h
  unfold rowBase; split
  · exact h0
  · exact h1

/-- The forty addresses from one row base are apart from the forty from the other. -/
theorem rowBase_apart {cfg : Config} (h : cfg.wf = true) {r r' : BitVec 1} (hr : r ≠ r') :
    (rowBase cfg r).toNat + 39 < (rowBase cfg r').toNat ∨ (rowBase cfg r').toNat + 39 < (rowBase cfg r).toNat := by
  obtain ⟨-, -, hd⟩ := cfg.wf_iff.mp h
  obtain ⟨rfl, rfl⟩ | ⟨rfl, rfl⟩ : r = 0 ∧ r' = 1 ∨ r = 1 ∧ r' = 0 := by revert r r'; decide
  · exact hd
  · exact hd.symm

/-- Under R9's constraint an address of a position does not overflow its seven bits (R57). -/
theorem ctrlAddr_toNat {cfg : Config} (h : cfg.wf = true) (l : BitVec 2) {k : BitVec 6} (hk : k.toNat ≤ 39) :
    (ctrlAddr cfg l k).toNat = (rowBase cfg (rowOf l)).toNat + k.toNat := by
  have := rowBase_toNat_le h (rowOf l)
  simp only [ctrlAddr, BitVec.toNat_add, BitVec.toNat_setWidth]
  omega

/-- Equal addresses have one row and one column (R59). -/
theorem ctrlAddr_inj {cfg : Config} (h : cfg.wf = true) {l l' : BitVec 2} {k k' : BitVec 6} (hk : k.toNat ≤ 39)
    (hk' : k'.toNat ≤ 39) (ha : ctrlAddr cfg l k = ctrlAddr cfg l' k') : rowOf l = rowOf l' ∧ k = k' := by
  have hn : (rowBase cfg (rowOf l)).toNat + k.toNat = (rowBase cfg (rowOf l')).toNat + k'.toNat := by
    rw [← ctrlAddr_toNat h l hk, ← ctrlAddr_toNat h l' hk', ha]
  have hr : rowOf l = rowOf l' := by
    by_contra hne
    have := rowBase_apart h hne
    omega
  rw [hr] at hn
  exact ⟨hr, BitVec.eq_of_toNat_eq (by omega)⟩

/-- The inverse of `idx` (R51): cell `i` is that of line `i div 40`, column `i mod 40`. -/
theorem idx_of_div_mod {i : Nat} (h : i < 160) :
    (BitVec.ofNat 6 (i % 40)).toNat ≤ 39 ∧ (idx (BitVec.ofNat 2 (i / 40)) (BitVec.ofNat 6 (i % 40))).toNat = i := by
  have hl : (BitVec.ofNat 2 (i / 40)).toNat = i / 40 := by rw [BitVec.toNat_ofNat]; omega
  have hk : (BitVec.ofNat 6 (i % 40)).toNat = i % 40 := by rw [BitVec.toNat_ofNat]; omega
  have hle : (BitVec.ofNat 6 (i % 40)).toNat ≤ 39 := by omega
  refine ⟨hle, ?_⟩
  rw [idx_toNat hle, hl, hk]
  omega

/-- The position command names its address as a number (R58). -/
theorem posCmd_eq (cfg : Config) (l : BitVec 2) (k : BitVec 6) :
    posCmd cfg l k = 0x80#8 ||| BitVec.ofNat 8 (ctrlAddr cfg l k).toNat := by
  rw [BitVec.ofNat_toNat]; rfl

/-- SETCURSOR in state Ready with a legal position, for every configuration: one position command to the chip of the
line (R163, R168). -/
theorem setcursor_transfers (cfg : Config) {l k : Byte} {s : State} (hs : s.state = .ready) (hl : l.toNat ≤ 3)
    (hk : k.toNat ≤ 39) :
    ∃ t es, execWith cfg (.setcursor l k) s = .next t ∧ emitted s t es ∧
      transfers s.pins es = [.cmd (chipOf (lineOf l)) (posCmd cfg (lineOf l) (colOf k))] := by
  refine ⟨_, _, congrArg (perform · s) (setcursorPlan_eq cfg hs hl hk), emitted_runOps _ _, ?_⟩
  rw [moveTo_events]
  simpa using transfers_flatMap s.pins [.cmd (chipOf (lineOf l)) (posCmd cfg (lineOf l) (colOf k))]

/-- Settles O22: the sum stays below 0x80, so the seven bits of the address hold it whole, and the one transfer of
SETCURSOR carries it. -/
theorem positionCommandForEveryRowBase : Obligations.PositionCommandForEveryRowBase := by
  intro cfg l k s hwf hs hl hk base
  have hline : (lineOf l).toNat = l.toNat := lineOf_toNat hl
  have hcol : (colOf k).toNat = k.toNat := colOf_toNat hk
  have hbase : (rowBase cfg (rowOf (lineOf l))).toNat = base := by rw [rowBase_rowOf_toNat, hline]
  have haddr : (ctrlAddr cfg (lineOf l) (colOf k)).toNat = base + k.toNat := by
    rw [ctrlAddr_toNat hwf _ (by omega), hbase, hcol]
  have hle : base + 39 ≤ 0x7F := hbase ▸ rowBase_toNat_le hwf _
  refine ⟨by omega, haddr, ?_⟩
  rw [← haddr, ← posCmd_eq, ← hline, ← chipOf_eq]
  exact setcursor_transfers cfg hs hl hk

/-- Settles O48: `idx` by its value and its inverse, and the positions of one chip by their rows: the addresses of its two
rows do not meet. -/
theorem positionsAndCellsAreOneToOne : Obligations.PositionsAndCellsAreOneToOne := by
  refine ⟨fun l k hk => ?_, fun i hi => ?_, fun cfg l l' k k' hwf hk hk' hchip haddr => ?_⟩
  · have hcol : k.toNat ≤ 39 := BitVec.le_def.mp hk
    have hidx := idx_toNat (l := l) hcol
    exact ⟨hidx, idx_lt hcol, by omega, by omega⟩
  · obtain ⟨hle, hidx⟩ := idx_of_div_mod hi
    exact ⟨_, _, BitVec.le_def.mpr hle, hidx⟩
  · obtain ⟨hrow, hcol⟩ := ctrlAddr_inj hwf (BitVec.le_def.mp hk) (BitVec.le_def.mp hk') haddr
    exact ⟨line_eq_of_chipOf_of_rowOf hchip hrow, hcol⟩

/-- Settles O47: the chip is bit 1 of the line, the row bit 0. -/
theorem linesBelongToTheirChips : Obligations.LinesBelongToTheirChips :=
  ⟨chipOf_eq, chipOf_eq_b_iff, rowOf_toNat⟩

end Sys2Proof.Machine

/-! The host decoder's equations, one for each command, and its inversion: all the commands a byte list can begin with
(30_encoding.md R92, R94 to R96). -/

namespace Sys2Proof

theorem decodeHost_init (r : List Byte) : decodeHost (0x10 :: r) = .ok (.init, r) := rfl

theorem decodeHost_clear (r : List Byte) : decodeHost (0x11 :: r) = .ok (.clear, r) := rfl

theorem decodeHost_setcursor (l k : Byte) (r : List Byte) :
    decodeHost (0x12 :: l :: k :: r) = .ok (.setcursor l k, r) := rfl

theorem decodeHost_writechar (ch : Byte) (r : List Byte) : decodeHost (0x13 :: ch :: r) = .ok (.writechar ch, r) := rfl

/-- A message whose text is all there, with the text cut off by its count. -/
theorem decodeHost_writemessage (l k : Byte) {n : Byte} {r : List Byte} (h : n.toNat ≤ r.length) :
    decodeHost (0x14 :: l :: k :: n :: r) = .ok (.writemessage l k (r.take n.toNat), r.drop n.toNat) :=
  if_pos h

theorem decodeHost_writemessage_incomplete (l k : Byte) {n : Byte} {r : List Byte} (h : r.length < n.toNat) :
    decodeHost (0x14 :: l :: k :: n :: r) = .error .incomplete :=
  if_neg (Nat.not_le.mpr h)

theorem isHostOpcode_false_iff (op : Byte) :
    isHostOpcode op = false ↔ op ≠ 0x10 ∧ op ≠ 0x11 ∧ op ≠ 0x12 ∧ op ≠ 0x13 ∧ op ≠ 0x14 := by
  simp [isHostOpcode, and_assoc]

theorem decodeHost_reserved {op : Byte} (h : isHostOpcode op = false) (r : List Byte) :
    decodeHost (op :: r) = .ok (.reserved op, r) := by
  obtain ⟨h10, h11, h12, h13, h14⟩ := (isHostOpcode_false_iff op).mp h
  simp only [decodeHost, h10, h11, h12, h13, h14, if_false]

/-- All `decodeHost` can answer when it answers a command: the bytes are the command's own, then the rest. -/
theorem decodeHost_cases {bytes : List Byte} {i : Instr} {rest : List Byte} (h : decodeHost bytes = .ok (i, rest)) :
    (bytes = 0x10 :: rest ∧ i = .init) ∨
    (bytes = 0x11 :: rest ∧ i = .clear) ∨
    (∃ l k, bytes = 0x12 :: l :: k :: rest ∧ i = .setcursor l k) ∨
    (∃ ch, bytes = 0x13 :: ch :: rest ∧ i = .writechar ch) ∨
    (∃ l k n text, bytes = 0x14 :: l :: k :: n :: (text ++ rest) ∧ text.length = n.toNat ∧ i = .writemessage l k text) ∨
    (∃ op, bytes = op :: rest ∧ isHostOpcode op = false ∧ i = .reserved op) := by
  unfold decodeHost at h
  split at h
  · cases h
  · next op r =>
    split_ifs at h with h10 h11 h12 h13 h14
    · cases h; exact .inl ⟨h10 ▸ rfl, rfl⟩
    · cases h; exact .inr (.inl ⟨h11 ▸ rfl, rfl⟩)
    · split at h <;> cases h
      exact .inr (.inr (.inl ⟨_, _, h12 ▸ rfl, rfl⟩))
    · split at h <;> cases h
      exact .inr (.inr (.inr (.inl ⟨_, h13 ▸ rfl, rfl⟩)))
    · split at h
      · split at h
        · next l k n r hn =>
          cases h
          refine .inr (.inr (.inr (.inr (.inl ⟨l, k, n, r.take n.toNat, ?_, ?_, rfl⟩))))
          · rw [h14, List.take_append_drop]
          · rw [List.length_take, Nat.min_eq_left hn]
        · cases h
      · cases h
    · cases h
      exact .inr (.inr (.inr (.inr (.inr ⟨_, rfl, (isHostOpcode_false_iff op).mpr ⟨h10, h11, h12, h13, h14⟩, rfl⟩))))

/-- Settles O6: an equation of the decoder gives the equation of the stream, and an incomplete command is the rest. -/
theorem decodingAStreamFollowsItsEquations : Obligations.DecodingAStreamFollowsItsEquations :=
  ⟨rfl,
   fun r => decodeStream_ok (decodeHost_init r),
   fun r => decodeStream_ok (decodeHost_clear r),
   fun l k r => decodeStream_ok (decodeHost_setcursor l k r),
   fun ch r => decodeStream_ok (decodeHost_writechar ch r),
   fun l k _ _ hn => decodeStream_ok (decodeHost_writemessage l k hn),
   fun _ r hop => decodeStream_ok (decodeHost_reserved hop r),
   fun _ h => decodeStream_error h,
   fun _ => ⟨rfl, rfl⟩,
   rfl,
   fun _ _ => ⟨rfl, rfl, rfl⟩,
   fun l k _ _ hn => decodeStream_error (decodeHost_writemessage_incomplete l k hn)⟩

/-- The bytes of a decoded message are its own code: the count byte is the text's length. -/
theorem encode_writemessage (l k : Byte) {n : Byte} {text : List Byte} (h : text.length = n.toNat) :
    encode (.writemessage l k text) = .host (0x14 :: l :: k :: n :: text) := by
  simp [encode, h]

/-- Settles O9: case by case of the command the bytes begin with; a message's count is byte 3, which is at most 255. -/
theorem commandLengths : Obligations.CommandLengths := by
  intro op r i rest h
  obtain ⟨hb, rfl⟩ | ⟨hb, rfl⟩ | ⟨l, k, hb, rfl⟩ | ⟨ch, hb, rfl⟩ | ⟨l, k, n, text, hb, hn, rfl⟩ | ⟨op, hb, hop, rfl⟩ :=
    decodeHost_cases h <;> cases hb
  · exact ⟨[0x10], rfl, rfl, by decide, rfl⟩
  · exact ⟨[0x11], rfl, rfl, by decide, rfl⟩
  · exact ⟨[0x12, l, k], rfl, rfl, by simp, rfl⟩
  · exact ⟨[0x13, ch], rfl, rfl, by simp, rfl⟩
  · have hlt := n.isLt
    refine ⟨0x14 :: l :: k :: n :: text, rfl, encode_writemessage l k hn, ?_, ?_⟩
    · simp only [List.length_cons]; omega
    · change text.length + 1 + 1 + 1 + 1 = 4 + n.toNat; omega
  · obtain ⟨-, -, h12, h13, h14⟩ := (isHostOpcode_false_iff op).mp hop
    exact ⟨[op], rfl, rfl, by simp, by rw [if_neg h12, if_neg h13, if_neg h14]; rfl⟩

end Sys2Proof

/-! Commands that are dropped, and the step that drops them (60_exceptions.md R202 to R206); WRITEMESSAGE as a run of
WRITECHARs (30_encoding.md R105). -/

namespace Sys2Proof.Machine

/-- The byte that ends a faulting command: its bytes are consumed and the flag is set, whether or not a reset follows. -/
theorem step_of_raise {s : State} {b : Byte} {rest : List Input} {i : Instr} {left : List Byte} {code : FaultCode}
    (hs : s.seq = []) (hi : s.inputs = .byte b :: rest) (hd : decodeHost (s.asm ++ [b]) = .ok (i, left))
    (hp : plan Config.default i { s with asm := left, inputs := rest } = .raise code) :
    step s = .next (takeFault code { s with asm := left, inputs := rest }) := by
  have hf : fetch s = if rstNext rest then .start i { s with asm := left, inputs := rest }
      else .run i { s with asm := left, inputs := rest } := by
    simp only [fetch, hs, fetchIdle, hi, acceptByte, hd]
  rw [step, hf]
  split
  · rw [carryOut_start, hp]; rfl
  · rw [carryOut_run, exec_eq_perform, hp]; rfl

/-- Settles O33: a reserved byte is a whole command, whose plan is the fault. -/
theorem reservedOpcodeSetsItsFlag : Obligations.ReservedOpcodeSetsItsFlag := by
  refine ⟨fun _ _ => rfl, fun b rest s hb hseq hasm hin => ?_⟩
  have hd : decodeHost (s.asm ++ [b]) = .ok (.reserved b, []) := by
    rw [hasm]; exact decodeHost_reserved hb []
  rw [step_of_raise hseq hin hd (code := .errOpcode) rfl, ← hasm]
  rfl

theorem writemessagePlan_notReady (cfg : Config) (l k : Byte) (text : List Byte) {s : State}
    (h : s.state = .uninitialized) : writemessagePlan cfg l k text s = .raise .errNotReady := by
  simp [writemessagePlan, h]

theorem writemessagePlan_outOfRange (cfg : Config) {l k : Byte} (text : List Byte) {s : State} (h : s.state = .ready)
    (hr : 3 < l.toNat ∨ 39 < k.toNat) : writemessagePlan cfg l k text s = .raise .errRange := by
  simp [writemessagePlan, h, (outOfRange_iff l k).mpr hr]

/-- WRITEMESSAGE that passes its checks: SETCURSOR's operations, then those of its text from the state they end in. -/
theorem writemessagePlan_eq (cfg : Config) {l k : Byte} (text : List Byte) {s : State} (h : s.state = .ready)
    (hl : l.toNat ≤ 3) (hk : k.toNat ≤ 39) :
    writemessagePlan cfg l k text s =
      planOf ((putTextOps cfg text (runOps (moveToOps cfg l k) s)).map (moveToOps cfg l k ++ ·)) := by
  simp only [writemessagePlan, h, outOfRange_false hl hk]
  cases putTextOps cfg text (runOps (moveToOps cfg l k) s) <;> rfl

theorem writecharPlan_eq (cfg : Config) (ch : Byte) {s : State} (h : s.state = .ready) :
    writecharPlan cfg ch s = planOf (putCharOps cfg ch s) := by
  simp [writecharPlan, h]

/-- Operations before a plan's own, done at once or one part after the other. -/
theorem perform_planOf_append (pre : List SeqOp) (x : Except Fault (List SeqOp)) (s : State) :
    perform (planOf (x.map (pre ++ ·))) s = perform (planOf x) (runOps pre s) := by
  cases x with
  | error f => rfl
  | ok ops => exact congrArg Host.Outcome.next (runOps_append pre ops s)

/-- The operations of a text are those of its first character, then those of the others from the state that leaves. -/
theorem putTextOps_cons_ok {cfg : Config} {ch : Byte} {s : State} {ops : List SeqOp} (h : putCharOps cfg ch s = .ok ops)
    (rest : List Byte) :
    putTextOps cfg (ch :: rest) s = (putTextOps cfg rest (runOps ops s)).map (ops ++ ·) := by
  simp only [putTextOps, h]
  cases putTextOps cfg rest (runOps ops s) <;> rfl

/-- A fault ends a run of instructions (20_memory.md R68 (b)). -/
theorem foldl_andThen_fault {α : Type} (f : α → State → Host.Outcome State Fault Refusal) (xs : List α) (r : Fault) :
    xs.foldl (fun o x => andThen o (f x)) (.fault r) = .fault r := by
  induction xs with
  | nil => rfl
  | cons x xs ih => exact ih

/-- A WRITECHAR for each byte of a text carries out the operations of the text (R164, R167), for every configuration. -/
theorem foldl_writechar_eq (cfg : Config) (text : List Byte) {s : State} (h : s.state = .ready) :
    text.foldl (fun o ch => andThen o (execWith cfg (.writechar ch))) (.next s) =
      perform (planOf (putTextOps cfg text s)) s := by
  induction text generalizing s with
  | nil => rfl
  | cons ch rest ih =>
    have hfirst : execWith cfg (.writechar ch) s = perform (planOf (putCharOps cfg ch s)) s :=
      congrArg (perform · s) (writecharPlan_eq cfg ch h)
    rw [List.foldl_cons, andThen, hfirst]
    cases hp : putCharOps cfg ch s with
    | error f =>
      simp only [putTextOps, hp]
      exact foldl_andThen_fault _ rest f
    | ok ops =>
      rw [putTextOps_cons_ok hp, perform_planOf_append]
      exact ih (runOps_ready h)

/-- R105 for every configuration, when the block is Ready and the position in range. -/
theorem writemessage_eq_foldl (cfg : Config) {l k : Byte} (text : List Byte) {s : State} (h : s.state = .ready)
    (hl : l.toNat ≤ 3) (hk : k.toNat ≤ 39) :
    execWith cfg (.writemessage l k text) s =
      text.foldl (fun o ch => andThen o (execWith cfg (.writechar ch))) (execWith cfg (.setcursor l k) s) := by
  have hset : execWith cfg (.setcursor l k) s = .next (runOps (moveToOps cfg l k) s) :=
    congrArg (perform · s) (setcursorPlan_eq cfg h hl hk)
  calc execWith cfg (.writemessage l k text) s
    _ = perform (planOf ((putTextOps cfg text (runOps (moveToOps cfg l k) s)).map (moveToOps cfg l k ++ ·))) s :=
      congrArg (perform · s) (writemessagePlan_eq cfg text h hl hk)
    _ = perform (planOf (putTextOps cfg text (runOps (moveToOps cfg l k) s))) (runOps (moveToOps cfg l k) s) :=
      perform_planOf_append _ _ s
    _ = _ := by rw [hset, foldl_writechar_eq cfg text (runOps_ready h)]

/-- Settles O27: in range the plan is SETCURSOR's, then its text's; otherwise the one check that fails is the plan. -/
theorem writemessageIsSetcursorThenWritechars : Obligations.WritemessageIsSetcursorThenWritechars := by
  rw [Obligations.WritemessageIsSetcursorThenWritechars, exec_eq_execWith]
  exact ⟨fun _ _ text _ h hl hk => writemessage_eq_foldl Config.default text h hl hk,
    fun l k text s h => congrArg (perform · s) (writemessagePlan_notReady Config.default l k text h),
    fun _ _ text s h hr => congrArg (perform · s) (writemessagePlan_outOfRange Config.default text h hr)⟩

end Sys2Proof.Machine

/-! The bus (40_bus_driver.md): the discipline of R135 for every instruction, the events of the byte rows (R136 to R138,
R142) and the levels a transfer leaves behind (R141). -/

namespace Sys2Proof.Machine

/-! ### Every instruction respects the bus (R135, 70_reset_and_hazards.md R234) -/

/-- A fault emits no event (60_exceptions.md R204). -/
theorem emitted_takeFault (c : FaultCode) (s : State) : emitted s (takeFault c s) [] := by
  simp [emitted, State.events]

/-- Disciplined operations leave both enable lines low where they found them low. -/
theorem runOps_idle {ops : List SeqOp} (h : ∀ op ∈ ops, op.disciplined = true) {s : State} (hp : s.pins.idle = true) :
    (runOps ops s).pins.idle = true := by
  rw [runOps_pins]
  exact (disciplined_run h hp).2.1

/-- R135 for every configuration: an instruction runs disciplined operations, or faults and drives nothing. -/
theorem execWith_respects_bus {cfg : Config} {i : Instr} {s t : State} (h : execWith cfg i s = .next t)
    (hp : s.pins.idle = true) :
    ∃ es, emitted s t es ∧ stableBus s.pins es = true ∧ timedPulses es = true ∧ t.pins = pinsAfter s.pins es ∧
      t.pins.idle = true := by
  obtain ⟨ops, hplan, rfl⟩ | ⟨c, -, rfl⟩ := execWith_next h
  · have hd := plan_disciplined hplan
    obtain ⟨hstable, -, htimed⟩ := disciplined_run hd hp
    exact ⟨_, emitted_runOps ops s, hstable, htimed, runOps_pins ops s, runOps_idle hd hp⟩
  · have hpins : (s.setFlag c).pins = s.pins := takeFault_pins c s
    exact ⟨[], emitted_takeFault c s, rfl, rfl, hpins, hpins ▸ hp⟩

/-- Settles O44: the default machine is one of all configurations. -/
theorem everyInstructionRespectsTheBus : Obligations.EveryInstructionRespectsTheBus := by
  intro i s t h hp
  exact execWith_respects_bus (exec_eq_execWith ▸ h) hp

/-! ### The events of the byte rows (R136 to R138, R142) -/

theorem hi_eq_ofNat (b : Byte) : hi b = BitVec.ofNat 4 (b.toNat / 16) := by
  apply BitVec.eq_of_toNat_eq
  simp [hi, Nat.shiftRight_eq_div_pow]

theorem lo_eq_ofNat (b : Byte) : lo b = BitVec.ofNat 4 (b.toNat % 16) := by
  apply BitVec.eq_of_toNat_eq
  simp [lo]

/-- The set bit 7 of a position command is above its seven address bits (30_encoding.md R100). -/
theorem setPositionByte_toNat (a : BitVec 7) : (setPositionByte a).toNat = 128 + a.toNat := by
  revert a; decide

/-- R136 written out, for a byte given by its two nibbles. -/
theorem writeByteEvents_of_nibbles (c : Chip) (m : RsMode) {b : Byte} {h l : Nibble} (hh : hi b = h) (hl : lo b = l) :
    writeByteEvents c m b =
      [.rs (rsLevel m), .d h, .wait .tAs, .en c true, .wait .tPw, .en c false, .wait .tH,
       .d l, .wait .tAs, .en c true, .wait .tPw, .en c false, .wait .tH, .wait .tCmd] := by
  subst hh hl
  rw [← lo_shift]
  rfl

/-- R130: events change nothing of the Facade. -/
theorem sameFacade_emitAll (es : List Event) (s : State) : sameFacade s (emitAll es s) := by
  simp [sameFacade]

/-- An instruction that only emits events has them on the trace and leaves the Facade. -/
theorem exec_emits {i : Instr} {s : State} {es es' : List Event} (h : exec i s = .next (emitAll es s)) (he : es = es') :
    ∃ t, exec i s = .next t ∧ emitted s t es' ∧ sameFacade s t :=
  ⟨_, h, he ▸ emitAll_events es s, sameFacade_emitAll es s⟩

/-- Settles O40: each row is the WriteByte of its byte; only the position's and the data's nibbles are not literals. -/
theorem lcdByteRowsEmitTheirEvents : Obligations.LcdByteRowsEmitTheirEvents := by
  intro c addr d s transfer does
  have hposHi : hi (setPositionByte addr) = BitVec.ofNat 4 (8 + addr.toNat / 16) := by
    rw [hi_eq_ofNat, setPositionByte_toNat, show (128 + addr.toNat) / 16 = 8 + addr.toNat / 16 by omega]
  have hposLo : lo (setPositionByte addr) = BitVec.ofNat 4 (addr.toNat % 16) := by
    rw [lo_eq_ofNat, setPositionByte_toNat, show (128 + addr.toNat) % 16 = addr.toNat % 16 by omega]
  exact ⟨exec_emits rfl (congrArg (· ++ [Event.wait .tClear]) (writeByteEvents_of_nibbles c .command (b := 0x01) rfl rfl)),
    exec_emits rfl (writeByteEvents_of_nibbles c .command rfl rfl),
    exec_emits rfl (writeByteEvents_of_nibbles c .command rfl rfl),
    exec_emits rfl (writeByteEvents_of_nibbles c .command hposHi hposLo),
    exec_emits rfl (writeByteEvents_of_nibbles c .command rfl rfl),
    exec_emits rfl (writeByteEvents_of_nibbles c .command rfl rfl),
    exec_emits rfl (writeByteEvents_of_nibbles c .data (hi_eq_ofNat d) (lo_eq_ofNat d))⟩

/-! ### The levels left behind (R141) -/

/-- After a transfer from idle lines both lines are low. -/
theorem Pins.after_of_idle {p : Pins} (hp : p.idle = true) (c : Chip) (rs : Bool) (d : Nibble) :
    p.after c rs d = { rs := rs, enA := false, enB := false, d := d } := by
  simp only [Pins.idle, Bool.and_eq_true, Bool.not_eq_true'] at hp
  cases c <;> simp [Pins.after, hp]

/-- The levels after a WriteByte. -/
theorem writeByte_pins {s : State} (hp : s.pins.idle = true) (c : Chip) (m : RsMode) (b : Byte) :
    (emitAll (writeByteEvents c m b) s).pins = { rs := rsLevel m, enA := false, enB := false, d := lo b } := by
  rw [emitAll_writeByte]
  exact Pins.after_of_idle hp c (rsLevel m) (lo b)

/-- The levels after a ClearChip: those of its WriteByte, since a wait drives nothing. -/
theorem clearChip_pins {s : State} (hp : s.pins.idle = true) (c : Chip) :
    (emitAll (clearChipEvents c) s).pins = { rs := false, enA := false, enB := false, d := 0x1 } := by
  rw [clearChipEvents, emitAll_append, emitAll_pins]
  exact writeByte_pins hp c .command 0x01

/-- An Initialize ends in its ClearChip (R139). -/
theorem initializeOps_eq_append (cfg : Config) (c : Chip) :
    initializeOps cfg c = (initializeOps cfg c).dropLast ++ [.bus (.lcdClear c)] := rfl

/-- The levels after an Initialize: what comes before its ClearChip keeps the lines idle. -/
theorem initialize_pins (cfg : Config) (c : Chip) {s : State} (hp : s.pins.idle = true) :
    (runOps (initializeOps cfg c) s).pins = { rs := false, enA := false, enB := false, d := 0x1 } := by
  have hd : ∀ op ∈ (initializeOps cfg c).dropLast, op.disciplined = true := fun op hop =>
    initialize_disciplined cfg c op (List.mem_of_mem_dropLast hop)
  have hidle := runOps_idle hd hp
  rw [initializeOps_eq_append, runOps_append, runOps_cons, runOps_nil]
  exact clearChip_pins hidle c

theorem rsLevel_eq_decide (m : RsMode) : rsLevel m = decide (m = .data) := by
  cases m <;> rfl

/-! A level persists until an event of its own line. -/

theorem Pins.apply_rs_of_ne (p : Pins) {e : Event} (h : ∀ b, e ≠ .rs b) : (p.apply e).rs = p.rs := by
  cases e with
  | rs b => exact absurd rfl (h b)
  | en c b => cases c <;> rfl
  | _ => rfl

theorem Pins.apply_d_of_ne (p : Pins) {e : Event} (h : ∀ n, e ≠ .d n) : (p.apply e).d = p.d := by
  cases e with
  | d n => exact absurd rfl (h n)
  | en c b => cases c <;> rfl
  | _ => rfl

theorem Pins.apply_en_en (p : Pins) (c c' : Chip) (b : Bool) :
    (p.apply (.en c' b)).en c = if c' = c then b else p.en c := by
  cases c <;> cases c' <;> rfl

theorem Pins.apply_en_of_ne (p : Pins) {e : Event} {c : Chip} (h : ∀ b, e ≠ .en c b) : (p.apply e).en c = p.en c := by
  cases e with
  | en c' b =>
    have hc : c' ≠ c := fun hc => h b (hc ▸ rfl)
    rw [p.apply_en_en, if_neg hc]
  | _ => cases c <;> rfl

/-- Settles O43: the levels after the last transfer of each, and one event's effect on each line. -/
theorem levelsLeftBehind : Obligations.LevelsLeftBehind := by
  refine ⟨fun c m b s hp => ?_, fun cfg c s hp => initialize_pins cfg c hp, fun e s => ?_⟩
  · rw [writeByte_pins hp]
    exact ⟨rsLevel_eq_decide m, by simp [lo], rfl, rfl⟩
  · rw [emit_pins]
    exact ⟨s.pins.apply_rs_of_ne, s.pins.apply_d_of_ne, s.pins.apply_en_of_ne (c := .a), s.pins.apply_en_of_ne (c := .b)⟩

end Sys2Proof.Machine

/-! The state check and the range check (60_exceptions.md R203, R205, R206): what drops CLEAR, SETCURSOR, WRITECHAR and
WRITEMESSAGE, whole and by the step that completes one. -/

namespace Sys2Proof.Machine

/-- An instruction whose plan is a fault sets the flag and does nothing else (R204). -/
theorem exec_of_raise {i : Instr} {s : State} {code : FaultCode} (h : plan Config.default i s = .raise code) :
    exec i s = .next (takeFault code s) := by
  rw [exec_eq_perform, h]; rfl

theorem clearPlan_notReady (cfg : Config) {s : State} (h : s.state = .uninitialized) :
    clearPlan cfg s = .raise .errNotReady := by
  simp [clearPlan, h]

theorem setcursorPlan_notReady (cfg : Config) (l k : Byte) {s : State} (h : s.state = .uninitialized) :
    setcursorPlan cfg l k s = .raise .errNotReady := by
  simp [setcursorPlan, h]

theorem writecharPlan_notReady (cfg : Config) (ch : Byte) {s : State} (h : s.state = .uninitialized) :
    writecharPlan cfg ch s = .raise .errNotReady := by
  simp [writecharPlan, h]

theorem setcursorPlan_outOfRange (cfg : Config) {l k : Byte} {s : State} (h : s.state = .ready)
    (hr : 3 < l.toNat ∨ 39 < k.toNat) : setcursorPlan cfg l k s = .raise .errRange := by
  simp [setcursorPlan, h, (outOfRange_iff l k).mpr hr]

/-- Before INIT the state check comes first, so the plan of the other four commands reads no operand. -/
theorem plan_notReady (cfg : Config) {i : Instr}
    (hi : i = .clear ∨ (∃ l k, i = .setcursor l k) ∨ (∃ ch, i = .writechar ch) ∨ ∃ l k text, i = .writemessage l k text)
    {s : State} (h : s.state = .uninitialized) : plan cfg i s = .raise .errNotReady := by
  obtain rfl | ⟨l, k, rfl⟩ | ⟨ch, rfl⟩ | ⟨l, k, text, rfl⟩ := hi
  · exact clearPlan_notReady cfg h
  · exact setcursorPlan_notReady cfg l k h
  · exact writecharPlan_notReady cfg ch h
  · exact writemessagePlan_notReady cfg l k text h

/-- In state Ready the range check of the two commands that carry a position is made on whole bytes. -/
theorem plan_outOfRange (cfg : Config) {l k : Byte} {text : List Byte} {i : Instr}
    (hi : i = .setcursor l k ∨ i = .writemessage l k text) (hr : 3 < l.toNat ∨ 39 < k.toNat) {s : State}
    (h : s.state = .ready) : plan cfg i s = .raise .errRange := by
  obtain rfl | rfl := hi
  · exact setcursorPlan_outOfRange cfg h hr
  · exact writemessagePlan_outOfRange cfg text h hr

/-- Settles O34: the plan is the fault in `s`, and in `s` with the command's bytes consumed, which is still before INIT. -/
theorem notReadyFaultDropsTheCommand : Obligations.NotReadyFaultDropsTheCommand := by
  intro i s hs hi
  refine ⟨exec_of_raise (plan_notReady _ hi hs), fun b rest hseq hin hd => ?_⟩
  exact step_of_raise hseq hin hd (plan_notReady _ hi hs)

/-- Settles O35: the plan is the fault in `s`, and in `s` with the command's bytes consumed, which is still Ready. -/
theorem rangeFaultDropsTheCommand : Obligations.RangeFaultDropsTheCommand := by
  intro l k text i s hs hr hi
  refine ⟨exec_of_raise (plan_outOfRange _ hi hr hs), fun b rest hseq hin hd => ?_⟩
  exact step_of_raise hseq hin hd (plan_outOfRange _ hi hr hs)

end Sys2Proof.Machine

/-! A reset that strikes (10_state.md R37, 70_reset_and_hazards.md R231, R236): when `cmd_ready` is 0 for it, and the step
that takes it. -/

namespace Sys2Proof.Machine

theorem State.rstNow_of_rst {s : State} {n : Nat} {rest : List Input} (hi : s.inputs = .rst n :: rest) :
    s.rstNow = (s.seq.isEmpty || n == 0) := by
  simp [State.rstNow, hi]

theorem State.rstNow_of_rstNext_false {s : State} (h : rstNext s.inputs = false) : s.rstNow = false := by
  unfold State.rstNow
  split
  next hi => simp [hi, rstNext] at h
  next => rfl

/-- An idle block takes the next reset at once, whatever its count (R38). -/
theorem step_of_rst_of_idle {s : State} {n : Nat} {rest : List Input} (hs : s.seq = []) (hi : s.inputs = .rst n :: rest) :
    step s = .next (hardReset s rest) := by
  have hf : fetch s = .settled (hardReset s rest) := by simp only [fetch, hs, fetchIdle, hi]
  rw [step, hf, carryOut_settled]

/-- A reset whose count is 0 cuts the command in progress before its next operation (R236). -/
theorem step_of_rst_zero_of_busy {s : State} {op : SeqOp} {ops : List SeqOp} {rest : List Input} (hs : s.seq = op :: ops)
    (hi : s.inputs = .rst 0 :: rest) : step s = .next (cutReset s rest) := by
  have hf : fetch s = .settled (cutReset s rest) := by simp only [fetch, hs, fetchBusy, hi]
  rw [step, hf, carryOut_settled]

/-- The idle and the cutting reset differ in the chips and the counter of free values, and in nothing of the block. -/
theorem step_of_striking_rst {s : State} {n : Nat} {rest : List Input} (hi : s.inputs = .rst n :: rest)
    (hn : s.seq = [] ∨ n = 0) :
    ∃ a b f, step s = .next { hardReset s rest with lcdA := a, lcdB := b, freeCtr := f } := by
  cases hs : s.seq with
  | nil => exact ⟨_, _, _, step_of_rst_of_idle hs hi⟩
  | cons op ops =>
    obtain rfl : n = 0 := hn.resolve_left (by simp [hs])
    exact ⟨_, _, _, step_of_rst_zero_of_busy hs hi⟩

/-- Settles O2: the step is the hardware reset up to the chips, and the reset block is idle, so that only another reset
keeps `cmd_ready` at 0. -/
theorem hardwareResetFromAnyState : Obligations.HardwareResetFromAnyState := by
  intro s n rest hi hn
  have hnow : s.rstNow = true := by simpa [State.rstNow_of_rst hi] using hn
  obtain ⟨a, b, f, hstep⟩ := step_of_striking_rst hi hn
  refine ⟨by simp [State.cmdReady, hnow], _, hstep, ?_⟩
  -- each field is the one of `State.reset`; the last clause is the idle block's `cmd_ready`
  refine ⟨rfl, rfl, rfl, rfl, rfl, rfl, rfl, rfl, rfl, rfl, rfl, rfl, rfl, rfl, rfl, rfl, fun hrest => ?_⟩
  simp [State.cmdReady, State.busy, State.reset, State.rstNow_of_rstNext_false, hrest]

end Sys2Proof.Machine

/-! Both directions of the round trip between instructions and their codes, and the views of the command assembly
(30_encoding.md R91 to R102, 10_state.md R31). -/

namespace Sys2Proof

/-! ### Decoding what was encoded -/

/-- A host code is read as the one command its bytes are. -/
theorem decode_host {bytes : List Byte} {i : Instr} (h : decodeHost bytes = .ok (i, [])) :
    decode (.host bytes) = .ok i := by
  simp only [decode, h]

/-- The count byte of a text of at most 255 bytes is its length. -/
theorem decodeHost_message_code (l k : Byte) {text : List Byte} (h : text.length ≤ 255) :
    decodeHost (0x14 :: l :: k :: BitVec.ofNat 8 text.length :: text) = .ok (.writemessage l k text, []) := by
  have hn : (BitVec.ofNat 8 text.length).toNat = text.length := by rw [BitVec.toNat_ofNat]; omega
  rw [decodeHost_writemessage l k (by omega), hn, List.take_length, List.drop_length]

/-- Settles O7: a host row by the equation of its opcode, an LCD row by its word in the table. -/
theorem decodingAnEncodedInstructionGivesItBack : Obligations.DecodingAnEncodedInstructionGivesItBack := by
  intro i hwf
  cases i with
  | init => exact decode_host (decodeHost_init [])
  | clear => exact decode_host (decodeHost_clear [])
  | setcursor l k => exact decode_host (decodeHost_setcursor l k [])
  | writechar ch => exact decode_host (decodeHost_writechar ch [])
  | writemessage l k text => exact decode_host (decodeHost_message_code l k (of_decide_eq_true hwf))
  | reserved op => exact decode_host (decodeHost_reserved (by simpa [Instr.wf] using hwf) [])
  | lcdClear c => exact Laws.EncodedSize.lcdClear c hwf
  | lcdDisplayOnNocursor c => exact Laws.EncodedSize.lcdDisplayOnNocursor c hwf
  | lcdDisplayOnCursor c => exact Laws.EncodedSize.lcdDisplayOnCursor c hwf
  | lcdSetPosition c addr => exact Laws.EncodedSize.lcdSetPosition c addr hwf
  | lcdFunctionSet c => exact Laws.EncodedSize.lcdFunctionSet c hwf
  | lcdEntryMode c => exact Laws.EncodedSize.lcdEntryMode c hwf
  | lcdData c d => exact Laws.EncodedSize.lcdData c d hwf
  | lcdColdstart8bit c => exact Laws.EncodedSize.lcdColdstart8bit c hwf
  | lcdColdstart4bit c => exact Laws.EncodedSize.lcdColdstart4bit c hwf

/-! ### Encoding what was decoded -/

/-- The code of a decoded command is the bytes it was read from, and the command is well formed. -/
theorem encode_of_decodeHost {bytes : List Byte} {i : Instr} {rest : List Byte} (h : decodeHost bytes = .ok (i, rest)) :
    i.wf = true ∧ ∃ own, encode i = .host own ∧ own ++ rest = bytes := by
  obtain ⟨rfl, rfl⟩ | ⟨rfl, rfl⟩ | ⟨l, k, rfl, rfl⟩ | ⟨ch, rfl, rfl⟩ | ⟨l, k, n, text, rfl, hn, rfl⟩ |
    ⟨op, rfl, hop, rfl⟩ := decodeHost_cases h
  · exact ⟨rfl, _, rfl, rfl⟩
  · exact ⟨rfl, _, rfl, rfl⟩
  · exact ⟨rfl, _, rfl, rfl⟩
  · exact ⟨rfl, _, rfl, rfl⟩
  · have hlt := n.isLt
    exact ⟨decide_eq_true (by omega), _, encode_writemessage l k hn, rfl⟩
  · exact ⟨by simp [Instr.wf, hop], _, rfl, rfl⟩

/-- A byte with bit 7 set is the position command of its other seven bits (R100). -/
theorem setPositionByte_setWidth {b : Byte} (h : b.getLsbD 7 = true) : setPositionByte (b.setWidth 7) = b := by
  revert b; decide

theorem encode_of_decodeBus8 {c : Chip} {m : RsMode} {b : Byte} {i : Instr} (h : decodeBus8 c m b = .ok i) :
    i.wf = true ∧ encode i = .bus8 c m b := by
  cases m with
  | data => cases h; exact ⟨rfl, rfl⟩
  | command =>
    simp only [decodeBus8] at h
    split_ifs at h with h01 h0C h0E hbit h28 h06
    · cases h; exact ⟨rfl, by rw [h01]; rfl⟩
    · cases h; exact ⟨rfl, by rw [h0C]; rfl⟩
    · cases h; exact ⟨rfl, by rw [h0E]; rfl⟩
    · cases h; exact ⟨rfl, congrArg (Code.bus8 c .command) (setPositionByte_setWidth hbit)⟩
    · cases h; exact ⟨rfl, by rw [h28]; rfl⟩
    · cases h; exact ⟨rfl, by rw [h06]; rfl⟩

theorem encode_of_decodeBus4 {c : Chip} {n : Nibble} {i : Instr} (h : decodeBus4 c n = .ok i) :
    i.wf = true ∧ encode i = .bus4 c n := by
  simp only [decodeBus4] at h
  split_ifs at h with h3 h2
  · cases h; exact ⟨rfl, by rw [h3]; rfl⟩
  · cases h; exact ⟨rfl, by rw [h2]; rfl⟩

/-- Settles O8: one lemma for each of the three decoders. -/
theorem encodingADecodedWordGivesItBack : Obligations.EncodingADecodedWordGivesItBack :=
  ⟨fun _ _ _ => encode_of_decodeHost, fun _ _ _ _ => encode_of_decodeBus8, fun _ _ _ => encode_of_decodeBus4⟩

/-- Settles O5: each word is a row of its table, read off. -/
theorem writtenOutWordsDecode : Obligations.WrittenOutWordsDecode :=
  ⟨decode_host (decodeHost_init []),
   decode_host (decodeHost_clear []),
   decode_host (decodeHost_setcursor 2 10 []),
   decode_host (decodeHost_writechar 0x41 []),
   decode_host (decodeHost_message_code 1 38 (text := [0x78, 0x79]) (by decide)),
   decode_host (decodeHost_reserved (by decide) []),
   Laws.EncodedSize.lcdSetPosition .b 0x45 rfl,
   Laws.EncodedSize.lcdFunctionSet .a rfl,
   Laws.EncodedSize.lcdData .a 0x28 rfl,
   Laws.EncodedSize.lcdColdstart4bit .b rfl⟩

end Sys2Proof

namespace Sys2Proof.Machine

/-! ### The views of the command assembly -/

/-- The count of text bytes to come exists once a WRITEMESSAGE's first four bytes are held. -/
theorem asmTextLeft_some {asm : List Byte} {n : Nat} (h : asmTextLeft asm = some n) :
    ∃ l k len text, asm = 0x14 :: l :: k :: len :: text ∧ n = len.toNat - text.length := by
  unfold asmTextLeft at h
  split at h
  · next op l k len text =>
    split at h
    · next hop => cases h; exact ⟨l, k, len, text, by rw [hop], rfl⟩
    · cases h
  · cases h

/-- A message with its first four bytes held is incomplete while text bytes are missing. -/
theorem text_short_of_incomplete {l k len : Byte} {text : List Byte}
    (h : decodeHost (0x14 :: l :: k :: len :: text) = .error .incomplete) : text.length < len.toNat := by
  by_contra hle
  rw [decodeHost_writemessage l k (Nat.not_lt.mp hle)] at h
  cases h

theorem State.uninitialized_or_ready (s : State) : s.state = .uninitialized ∨ s.state = .ready := by
  cases s.state <;> simp

theorem asmDiscarding_message (state : Mode) (l k : Byte) (tail : List Byte) :
    asmDiscarding state (0x14 :: l :: k :: tail) = true ↔ state = .uninitialized ∨ 3 < l.toNat ∨ 39 < k.toNat := by
  simp [asmDiscarding, outOfRange_iff]

/-- Settles O10: the missing bytes make the text as long as its count byte says; a message being discarded fails the
state check or, in state Ready, the range check. -/
theorem assemblyViewsAreRight : Obligations.AssemblyViewsAreRight := by
  refine ⟨fun asm more n hleft hinc hmore => ?_, fun s l k text tail hdis => ?_⟩
  · obtain ⟨l, k, len, held, rfl, rfl⟩ := asmTextLeft_some hleft
    have hshort := text_short_of_incomplete hinc
    have hlen : (held ++ more).length = len.toNat := by rw [List.length_append]; omega
    refine ⟨l, k, held ++ more, ?_⟩
    rw [List.cons_append, List.cons_append, List.cons_append, List.cons_append,
      decodeHost_writemessage l k hlen.ge, ← hlen, List.take_length, List.drop_length]
  · obtain hs | hs := s.uninitialized_or_ready
    · exact .inl (exec_of_raise (plan_notReady _ (.inr (.inr (.inr ⟨l, k, text, rfl⟩))) hs))
    · have hr := ((asmDiscarding_message s.state l k tail).mp hdis).resolve_left (by simp [hs])
      exact .inr (exec_of_raise (plan_outOfRange _ (text := text) (.inr rfl) hr hs))

end Sys2Proof.Machine

/-! The operations a plan may hold, and what every run of them keeps: the cursor's range and the written cells. -/

namespace Sys2Proof.Machine

/-! ### The operations of a plan -/

/-- An operation that writes a cell of the buffer, or a column, only where there is one (20_memory.md R50, 10_state.md
R22). -/
def SeqOp.inRange : SeqOp → Bool
  | .store i _ => decide (i.toNat < 160)
  | .column k => decide (k.toNat ≤ 39)
  | .cursor _ k => decide (k.toNat ≤ 39)
  | .event _ => true
  | .bus _ => true
  | .ready => true

/-- An operation of a host command other than INIT: the clear, the position and the data row, and what writes a cell or
the cursor in range (41_facade.md R162 to R170). -/
def SeqOp.ofCommand : SeqOp → Bool
  | .bus (.lcdClear _) => true
  | .bus (.lcdSetPosition _ _) => true
  | .bus (.lcdData _ _) => true
  | .bus _ => false
  | .event _ => false
  | .ready => false
  | op => op.inRange

theorem SeqOp.inRange_of_ofCommand {op : SeqOp} (h : op.ofCommand = true) : op.inRange = true := by
  cases op with
  | store i v => exact h
  | column k => exact h
  | cursor l k => exact h
  | _ => rfl

theorem inRange_of_forall_ofCommand {ops : List SeqOp} (h : ∀ op ∈ ops, op.ofCommand = true) :
    ∀ op ∈ ops, op.inRange = true :=
  fun op hop => SeqOp.inRange_of_ofCommand (h op hop)

theorem ready_not_mem_of_ofCommand {ops : List SeqOp} (h : ∀ op ∈ ops, op.ofCommand = true) : SeqOp.ready ∉ ops :=
  fun hm => absurd (h _ hm) (by simp [SeqOp.ofCommand])

theorem storeAll_ofCommand {vs : List Byte} {i : Nat} (h : i + vs.length ≤ 160) :
    ∀ op ∈ storeAllOps i vs, op.ofCommand = true := by
  induction vs generalizing i with
  | nil => simp [storeAllOps]
  | cons v vs ih =>
    rw [List.length_cons] at h
    simp only [storeAllOps, List.forall_mem_cons]
    exact ⟨by simp [SeqOp.ofCommand, SeqOp.inRange]; omega, ih (by omega)⟩

theorem blankAll_ofCommand : ∀ op ∈ blankAllOps, op.ofCommand = true := storeAll_ofCommand (by simp)

theorem sendPosition_ofCommand (cfg : Config) (l : BitVec 2) (k : BitVec 6) :
    ∀ op ∈ sendPositionOps cfg l k, op.ofCommand = true := by simp [sendPositionOps, SeqOp.ofCommand]

theorem sendLine_ofCommand (cfg : Config) (l : BitVec 2) (vs : List Byte) :
    ∀ op ∈ sendLineOps cfg l vs, op.ofCommand = true := by
  simp only [sendLineOps, List.forall_mem_append]
  exact ⟨sendPosition_ofCommand cfg l 0, by simp [SeqOp.ofCommand]⟩

theorem rollUp_ofCommand (cfg : Config) {cells : List Byte} (h : cells.length = 160) :
    ∀ op ∈ rollUpOps cfg cells, op.ofCommand = true := by
  simp only [rollUpOps, List.forall_mem_append]
  exact ⟨⟨⟨⟨⟨⟨storeAll_ofCommand (by omega), sendLine_ofCommand _ _ _⟩, sendLine_ofCommand _ _ _⟩,
    sendLine_ofCommand _ _ _⟩, sendLine_ofCommand _ _ _⟩, sendPosition_ofCommand _ _ _⟩,
    by simp [SeqOp.ofCommand, SeqOp.inRange]⟩

theorem moveTo_ofCommand (cfg : Config) {l k : Byte} (hk : k.toNat ≤ 39) :
    ∀ op ∈ moveToOps cfg l k, op.ofCommand = true := by
  simp only [moveToOps, List.forall_mem_append]
  exact ⟨sendPosition_ofCommand _ _ _, by simp [SeqOp.ofCommand, SeqOp.inRange, colOf_toNat hk, hk]⟩

theorem putChar_ofCommand {cfg : Config} {ch : Byte} {s : State} {ops : List SeqOp}
    (h : putCharOps cfg ch s = .ok ops) : ∀ op ∈ ops, op.ofCommand = true := by
  obtain ⟨hk, more, rfl, hm⟩ := putChar_cases h
  simp only [List.forall_mem_cons]
  refine ⟨rfl, by simpa [SeqOp.ofCommand, SeqOp.inRange] using idx_lt hk, ?_⟩
  obtain ⟨hlt, rfl⟩ | ⟨-, -, rfl⟩ | ⟨-, -, rfl⟩ := hm
  · have hcol : (s.col + 1).toNat ≤ 39 := by rw [BitVec.toNat_add]; simp; omega
    simpa [SeqOp.ofCommand, SeqOp.inRange] using hcol
  · simp only [List.forall_mem_append]
    exact ⟨sendPosition_ofCommand _ _ _, by simp [SeqOp.ofCommand, SeqOp.inRange]⟩
  · exact rollUp_ofCommand cfg (scrolledCells_spec _).1

/-- The operations of a text that is not empty are its first character's, then the others'. -/
theorem putTextOps_cons {cfg : Config} {ch : Byte} {rest : List Byte} {s : State} {ops : List SeqOp}
    (h : putTextOps cfg (ch :: rest) s = .ok ops) :
    ∃ first more, putCharOps cfg ch s = .ok first ∧ putTextOps cfg rest (runOps first s) = .ok more ∧
      ops = first ++ more := by
  cases hf : putCharOps cfg ch s with
  | error f => simp [putTextOps, hf] at h
  | ok first =>
    rw [putTextOps_cons_ok hf] at h
    cases hm : putTextOps cfg rest (runOps first s) with
    | error f => rw [hm] at h; cases h
    | ok more => rw [hm] at h; cases h; exact ⟨first, more, rfl, hm, rfl⟩

theorem putText_ofCommand {cfg : Config} {text : List Byte} {s : State} {ops : List SeqOp}
    (h : putTextOps cfg text s = .ok ops) : ∀ op ∈ ops, op.ofCommand = true := by
  induction text generalizing s ops with
  | nil => cases h; simp
  | cons ch rest ih =>
    obtain ⟨first, more, hf, hm, rfl⟩ := putTextOps_cons h
    simp only [List.forall_mem_append]
    exact ⟨putChar_ofCommand hf, ih hm⟩

/-- INIT, or a host command whose operations are `ofCommand`, or an LCD row, which is its one operation. -/
theorem plan_run_cases {cfg : Config} {i : Instr} {s : State} {ops : List SeqOp} (h : plan cfg i s = .run ops) :
    i = .init ∨ ((∃ bytes, encode i = .host bytes) ∧ s.state = .ready ∧ ∀ op ∈ ops, op.ofCommand = true) ∨
      ((∀ bytes, encode i ≠ .host bytes) ∧ ops = [.bus i]) := by
  cases i with
  | init => exact .inl rfl
  | clear =>
    obtain ⟨hs, rfl⟩ := clearPlan_run h
    refine .inr (.inl ⟨⟨_, rfl⟩, hs, ?_⟩)
    simp only [List.forall_mem_append]
    exact ⟨by simp [SeqOp.ofCommand], blankAll_ofCommand, sendPosition_ofCommand _ _ _,
      by simp [SeqOp.ofCommand, SeqOp.inRange]⟩
  | setcursor l k =>
    obtain ⟨hs, -, hk, rfl⟩ := setcursorPlan_run h
    exact .inr (.inl ⟨⟨_, rfl⟩, hs, moveTo_ofCommand cfg hk⟩)
  | writechar ch =>
    obtain ⟨hs, hp⟩ := writecharPlan_run h
    exact .inr (.inl ⟨⟨_, rfl⟩, hs, putChar_ofCommand hp⟩)
  | writemessage l k text =>
    obtain ⟨hs, -, hk, more, hm, rfl⟩ := writemessagePlan_run h
    refine .inr (.inl ⟨⟨_, rfl⟩, hs, ?_⟩)
    simp only [List.forall_mem_append]
    exact ⟨moveTo_ofCommand cfg hk, putText_ofCommand hm⟩
  | reserved op => cases h
  | _ => cases h; exact .inr (.inr ⟨nofun, rfl⟩)

theorem initialize_inRange (cfg : Config) (c : Chip) : ∀ op ∈ initializeOps cfg c, op.inRange = true := by
  simp [initializeOps, SeqOp.inRange]

/-- Every operation of every plan writes cells and columns that exist. -/
theorem plan_inRange {cfg : Config} {i : Instr} {s : State} {ops : List SeqOp} (h : plan cfg i s = .run ops) :
    ∀ op ∈ ops, op.inRange = true := by
  obtain rfl | ⟨-, -, hc⟩ | ⟨-, rfl⟩ := plan_run_cases h
  · cases (initPlan_eq cfg).symm.trans h
    simp only [List.forall_mem_append, List.forall_mem_cons, List.cons_append]
    exact ⟨rfl, ⟨initialize_inRange cfg .a, initialize_inRange cfg .b⟩,
      inRange_of_forall_ofCommand blankAll_ofCommand, inRange_of_forall_ofCommand (sendPosition_ofCommand _ _ _),
      by simp [SeqOp.inRange]⟩
  · exact inRange_of_forall_ofCommand hc
  · simp [SeqOp.inRange]

/-! ### What every run keeps -/

theorem State.cursorOk_iff (s : State) : s.cursorOk ↔ s.col.toNat ≤ 39 ∧ s.chip = chipOf s.line := by
  simp [State.cursorOk, BitVec.le_def]

theorem runOp_cursorOk {op : SeqOp} (h : op.inRange = true) {s : State} (hs : s.cursorOk) : (runOp op s).cursorOk := by
  rw [State.cursorOk_iff] at hs ⊢
  cases op with
  | column k => exact ⟨of_decide_eq_true h, hs.2⟩
  | cursor l k => exact ⟨of_decide_eq_true h, rfl⟩
  | _ => simpa [runOp] using hs

/-- 10_state.md R24: operations in range keep the cursor in range and `chip = chipOf(line)`. -/
theorem runOps_cursorOk {ops : List SeqOp} (h : ∀ op ∈ ops, op.inRange = true) {s : State} (hs : s.cursorOk) :
    (runOps ops s).cursorOk := by
  induction ops generalizing s with
  | nil => exact hs
  | cons op ops ih =>
    rw [List.forall_mem_cons] at h
    exact ih h.2 (runOp_cursorOk h.1 hs)

theorem runOps_col_le {ops : List SeqOp} (h : ∀ op ∈ ops, op.inRange = true) {s : State} (hs : s.col.toNat ≤ 39) :
    (runOps ops s).col.toNat ≤ 39 := by
  induction ops generalizing s with
  | nil => exact hs
  | cons op ops ih =>
    rw [List.forall_mem_cons] at h
    refine ih h.2 ?_
    cases op <;> simp_all [runOp, SeqOp.inRange]

theorem runOp_read_isSome {op : SeqOp} {s : State} {a : Nat} (h : (s.buf.read a).isSome) :
    ((runOp op s).buf.read a).isSome := by
  cases op with
  | store i v =>
    simp only [runOp, storeCell_buf, read_write]
    split
    · rfl
    · exact h
  | _ => simpa [runOp] using h

/-- A written cell stays written (20_memory.md R53). -/
theorem runOps_read_isSome {ops : List SeqOp} {s : State} {a : Nat} (h : (s.buf.read a).isSome) :
    ((runOps ops s).buf.read a).isSome := by
  induction ops generalizing s with
  | nil => exact h
  | cons op ops ih => exact ih (runOp_read_isSome h)

theorem runOp_read_high {op : SeqOp} (h : op.inRange = true) (s : State) {a : Nat} (ha : 160 ≤ a) :
    (runOp op s).buf.read a = s.buf.read a := by
  cases op with
  | store i v =>
    have hi : i.toNat < 160 := by simpa [SeqOp.inRange] using h
    exact read_write_other s.buf v (by omega)
  | _ => simp [runOp]

/-- Above the 160 cells nothing is written. -/
theorem runOps_read_high {ops : List SeqOp} (h : ∀ op ∈ ops, op.inRange = true) (s : State) {a : Nat} (ha : 160 ≤ a) :
    (runOps ops s).buf.read a = s.buf.read a := by
  induction ops generalizing s with
  | nil => rfl
  | cons op ops ih =>
    rw [List.forall_mem_cons] at h
    rw [runOps_cons, ih h.2, runOp_read_high h.1 s ha]

theorem emit_freeCtr_le (e : Event) (s : State) : s.freeCtr ≤ (emit e s).freeCtr := by
  unfold emit; cases fallingEdge s.pins e <;> simp

theorem emitAll_freeCtr_le (es : List Event) (s : State) : s.freeCtr ≤ (emitAll es s).freeCtr := by
  induction es generalizing s with
  | nil => exact le_refl _
  | cons e es ih => exact le_trans (emit_freeCtr_le e s) (ih _)

theorem runOp_freeCtr_le (op : SeqOp) (s : State) : s.freeCtr ≤ (runOp op s).freeCtr := by
  cases op with
  | event e => exact emit_freeCtr_le e s
  | bus i => exact emitAll_freeCtr_le _ s
  | _ => exact le_refl _

/-- Free values are used up, never given back (log 17). -/
theorem runOps_freeCtr_le (ops : List SeqOp) (s : State) : s.freeCtr ≤ (runOps ops s).freeCtr := by
  induction ops generalizing s with
  | nil => exact le_refl _
  | cons op ops ih => exact le_trans (runOp_freeCtr_le op s) (ih _)

/-! ### Every plan carries on while the cursor is on a cell -/

theorem putText_ok (cfg : Config) (text : List Byte) {s : State} (hk : s.col.toNat ≤ 39) :
    ∃ ops, putTextOps cfg text s = .ok ops := by
  induction text generalizing s with
  | nil => exact ⟨[], rfl⟩
  | cons ch rest ih =>
    obtain ⟨first, hf⟩ := putChar_ok cfg ch s hk
    obtain ⟨more, hm⟩ := ih (s := runOps first s)
      (runOps_col_le (inRange_of_forall_ofCommand (putChar_ofCommand hf)) hk)
    exact ⟨first ++ more, by rw [putTextOps_cons_ok hf, hm]; rfl⟩

/-- WRITEMESSAGE that passes its checks has operations: SETCURSOR's, which put the cursor on a cell, and its text's. -/
theorem writemessagePlan_ok (cfg : Config) {l k : Byte} (text : List Byte) {s : State} (h : s.state = .ready)
    (hl : l.toNat ≤ 3) (hk : k.toNat ≤ 39) :
    ∃ more, putTextOps cfg text (runOps (moveToOps cfg l k) s) = .ok more ∧
      writemessagePlan cfg l k text s = .run (moveToOps cfg l k ++ more) := by
  obtain ⟨-, hcol, -⟩ := runOps_moveTo cfg l k s
  obtain ⟨more, hm⟩ := putText_ok cfg text (s := runOps (moveToOps cfg l k) s) (by rw [hcol, colOf_toNat hk]; exact hk)
  exact ⟨more, hm, by rw [writemessagePlan_eq cfg text h hl hk, hm]; rfl⟩

/-- A plan from a cursor on a cell runs operations or raises a fault. -/
theorem plan_completes (cfg : Config) (i : Instr) {s : State} (hk : s.col.toNat ≤ 39) :
    (∃ ops, plan cfg i s = .run ops) ∨ ∃ c, plan cfg i s = .raise c := by
  obtain hs | hs := s.uninitialized_or_ready
  · cases i with
    | init => exact .inl ⟨_, rfl⟩
    | clear => exact .inr ⟨_, clearPlan_notReady cfg hs⟩
    | setcursor l k => exact .inr ⟨_, setcursorPlan_notReady cfg l k hs⟩
    | writechar ch => exact .inr ⟨_, writecharPlan_notReady cfg ch hs⟩
    | writemessage l k text => exact .inr ⟨_, writemessagePlan_notReady cfg l k text hs⟩
    | reserved op => exact .inr ⟨_, rfl⟩
    | _ => exact .inl ⟨_, rfl⟩
  · cases i with
    | init => exact .inl ⟨_, rfl⟩
    | clear => exact .inl ⟨_, clearPlan_eq cfg hs⟩
    | setcursor l k =>
      by_cases hr : 3 < l.toNat ∨ 39 < k.toNat
      · exact .inr ⟨_, setcursorPlan_outOfRange cfg hs hr⟩
      · exact .inl ⟨_, setcursorPlan_eq cfg hs (by omega) (by omega)⟩
    | writechar ch =>
      obtain ⟨ops, ho⟩ := putChar_ok cfg ch s hk
      exact .inl ⟨ops, by rw [plan, writecharPlan_eq cfg ch hs, ho]; rfl⟩
    | writemessage l k text =>
      by_cases hr : 3 < l.toNat ∨ 39 < k.toNat
      · exact .inr ⟨_, writemessagePlan_outOfRange cfg text hs hr⟩
      · obtain ⟨more, -, hp⟩ := writemessagePlan_ok cfg text hs (l := l) (k := k) (by omega) (by omega)
        exact .inl ⟨_, hp⟩
    | reserved op => exact .inr ⟨_, rfl⟩
    | _ => exact .inl ⟨_, rfl⟩

theorem execWith_completes (cfg : Config) (i : Instr) {s : State} (hk : s.col.toNat ≤ 39) :
    ∃ t, execWith cfg i s = .next t := by
  obtain ⟨ops, h⟩ | ⟨c, h⟩ := plan_completes cfg i hk
  · exact ⟨_, congrArg (perform · s) h⟩
  · exact ⟨_, congrArg (perform · s) h⟩

theorem begin_completes (cfg : Config) (i : Instr) {s : State} (hk : s.col.toNat ≤ 39) :
    ∃ t, begin (plan cfg i s) s = .next t := by
  obtain ⟨ops, h⟩ | ⟨c, h⟩ := plan_completes cfg i hk
  · exact ⟨_, congrArg (begin · s) h⟩
  · exact ⟨_, congrArg (begin · s) h⟩

/-- Settles O39: with the column in range every plan runs operations or raises one of the three faults. -/
theorem everyInstructionCompletes : Obligations.EveryInstructionCompletes := by
  intro i s hk
  rw [exec_eq_execWith]
  exact execWith_completes Config.default i hk

/-- Settles O26: the stop is PutChar's, and with the column in range there is none. -/
theorem writecharStopsOnlyOutsideTheInvariant : Obligations.WritecharStopsOnlyOutsideTheInvariant := by
  refine ⟨fun ch s hs hk => ?_, fun ch s hk => everyInstructionCompletes _ s hk,
    fun ch s f hf => ⟨?_, ?_, fun hc => ?_⟩⟩
  · have hplan : writecharPlan Config.default ch s = .stop .cursorOutOfRange := by
      rw [writecharPlan_eq _ ch hs, putChar_error _ ch s hk]; rfl
    exact congrArg (perform · s) hplan
  · cases f; rfl
  · obtain hs | hs := s.uninitialized_or_ready
    · rw [exec_of_raise (plan_notReady _ (.inr (.inr (.inl ⟨ch, rfl⟩))) hs)] at hf
      cases hf
    · exact hs
  · obtain ⟨t, ht⟩ := everyInstructionCompletes (.writechar ch) s (s.cursorOk_iff.mp hc).1
    rw [ht] at hf
    cases hf

end Sys2Proof.Machine

/-! The step, case by case: the idle block, the busy block, and a command run one operation a step (10_state.md R30,
R31; 30_encoding.md R97, R106). -/

namespace Sys2Proof.Machine

/-! ### The idle block -/

theorem State.busy_of_idle {s : State} (h : s.seq = []) : s.busy = false := by simp [State.busy, h]

theorem State.cmdReady_of_idle {s : State} (h : s.seq = []) (hr : rstNext s.inputs = false) : s.cmdReady = true := by
  simp [State.cmdReady, State.busy_of_idle h, State.rstNow_of_rstNext_false hr]

/-- The byte that ends a command and is followed by no reset: the command runs whole (log 1). -/
theorem stepWith_runs {cfg : Config} {s : State} {b : Byte} {rest : List Input} {i : Instr} {left : List Byte}
    (hs : s.seq = []) (hi : s.inputs = .byte b :: rest) (hr : rstNext rest = false)
    (hd : decodeHost (s.asm ++ [b]) = .ok (i, left)) :
    stepWith cfg s = execWith cfg i { s with asm := left, inputs := rest } := by
  have hf : fetch s = .run i { s with asm := left, inputs := rest } := by
    simp only [fetch, hs, fetchIdle, hi, acceptByte, hd, hr, Bool.false_eq_true, if_false]
  rw [stepWith, hf, carryOut_run]

/-- The byte that ends a command and is followed by a reset: the command is started (log 3). -/
theorem stepWith_starts {cfg : Config} {s : State} {b : Byte} {rest : List Input} {i : Instr} {left : List Byte}
    (hs : s.seq = []) (hi : s.inputs = .byte b :: rest) (hr : rstNext rest = true)
    (hd : decodeHost (s.asm ++ [b]) = .ok (i, left)) :
    stepWith cfg s =
      begin (plan cfg i { s with asm := left, inputs := rest }) { s with asm := left, inputs := rest } := by
  have hf : fetch s = .start i { s with asm := left, inputs := rest } := by
    simp only [fetch, hs, fetchIdle, hi, acceptByte, hd, hr, if_true]
  rw [stepWith, hf, carryOut_start]

/-- A byte that ends no command is held (R97). -/
theorem stepWith_holds (cfg : Config) {s : State} {b : Byte} {rest : List Input} {e : Reject} (hs : s.seq = [])
    (hi : s.inputs = .byte b :: rest) (hd : decodeHost (s.asm ++ [b]) = .error e) :
    stepWith cfg s = .next { s with asm := s.asm ++ [b], inputs := rest } := by
  have hf : fetch s = .settled { s with asm := s.asm ++ [b], inputs := rest } := by
    simp only [fetch, hs, fetchIdle, hi, acceptByte, hd]
  rw [stepWith, hf, carryOut_settled]

/-- Without an input the idle block waits (R97, R216). -/
theorem stepWith_waits (cfg : Config) {s : State} (hs : s.seq = []) (hi : s.inputs = []) :
    stepWith cfg s = .next s := by
  have hf : fetch s = .settled s := by simp only [fetch, hs, fetchIdle, hi]
  rw [stepWith, hf, carryOut_settled]

theorem stepWith_resets (cfg : Config) {s : State} {n : Nat} {rest : List Input} (hs : s.seq = [])
    (hi : s.inputs = .rst n :: rest) : stepWith cfg s = .next (hardReset s rest) := by
  have hf : fetch s = .settled (hardReset s rest) := by simp only [fetch, hs, fetchIdle, hi]
  rw [stepWith, hf, carryOut_settled]

/-! ### The busy block -/

/-- What a busy step finds does not depend on the parameters. -/
theorem stepWith_busy (cfg : Config) {s : State} {op : SeqOp} {ops : List SeqOp} (hs : s.seq = op :: ops) :
    stepWith cfg s = (fetchBusy op ops s).carryOut (execWith cfg) cfg := by
  simp only [stepWith, fetch, hs]

/-- With no reset pending a busy step runs the first operation. -/
theorem stepWith_runOp (cfg : Config) {s : State} {op : SeqOp} {ops : List SeqOp} (hs : s.seq = op :: ops)
    (hr : rstNext s.inputs = false) : stepWith cfg s = .next (runOp op { s with seq := ops }) := by
  rw [stepWith_busy cfg hs, fetchBusy_noReset op ops s hr, carryOut_settled]

/-- With a reset counted above 0 it runs the first operation and counts down (log 3). -/
theorem stepWith_countsDown (cfg : Config) {s : State} {op : SeqOp} {ops : List SeqOp} {n : Nat} {rest : List Input}
    (hs : s.seq = op :: ops) (hi : s.inputs = .rst (n + 1) :: rest) :
    stepWith cfg s = .next (runOp op { s with seq := ops, inputs := .rst n :: rest }) := by
  rw [stepWith_busy cfg hs, fetchBusy, hi]; rfl

/-- An LCD row is the one operation that drives its events, for every configuration. -/
theorem execWith_lcdRow (cfg : Config) {i : Instr} (h : ∀ bytes, encode i ≠ .host bytes) (s : State) :
    execWith cfg i s = .next (runOp (.bus i) s) := by
  cases i with
  | init => exact absurd rfl (h _)
  | clear => exact absurd rfl (h _)
  | setcursor l k => exact absurd rfl (h _)
  | writechar ch => exact absurd rfl (h _)
  | writemessage l k text => exact absurd rfl (h _)
  | reserved op => exact absurd rfl (h _)
  | _ => rfl

theorem exec_lcdRow {i : Instr} (h : ∀ bytes, encode i ≠ .host bytes) (s : State) :
    exec i s = .next (runOp (.bus i) s) := by
  rw [exec_eq_execWith]; exact execWith_lcdRow Config.default h s

/-- Settles O11: no reset follows, so the decoded command runs whole. -/
theorem stepRunsTheDecodedCommand : Obligations.StepRunsTheDecodedCommand := by
  intro s b rest i hs hi hr hd
  rw [step_eq_stepWith, exec_eq_execWith]
  exact stepWith_runs hs hi hr hd

/-- Settles O12: the byte is held, or there is none; the block is idle and no reset is next. -/
theorem incompleteCommandWaits : Obligations.IncompleteCommandWaits := by
  rw [Obligations.IncompleteCommandWaits, step_eq_stepWith]
  exact ⟨fun s b rest hs hi hd =>
      ⟨State.cmdReady_of_idle hs (by rw [hi]; rfl), State.busy_of_idle hs, stepWith_holds _ hs hi hd⟩,
    fun s hs hi => ⟨State.cmdReady_of_idle hs (by rw [hi]; rfl), State.busy_of_idle hs, stepWith_waits _ hs hi⟩⟩

theorem State.busy_of_cons {s : State} {op : SeqOp} {ops : List SeqOp} (h : s.seq = op :: ops) :
    s.busy = true ∧ s.cmdReady = false := by
  simp [State.cmdReady, State.busy, h]

/-- Settles O13: the first operation runs, and an LCD row is that operation. -/
theorem busyStepRunsTheSequencer : Obligations.BusyStepRunsTheSequencer := by
  intro s op ops hs hr
  obtain ⟨hbusy, hready⟩ := State.busy_of_cons hs
  have hstep : step s = .next (runOp op { s with seq := ops }) := by
    rw [step_eq_stepWith]; exact stepWith_runOp _ hs hr
  refine ⟨hbusy, hready, ⟨_, hstep, rfl, by simp, by simp⟩, fun i hop hi => ?_⟩
  rw [hstep, hop, exec_lcdRow hi]

/-- Settles O54: the same step with the count one less. -/
theorem busyStepCountsDownToTheReset : Obligations.BusyStepCountsDownToTheReset := by
  intro s op ops n rest hs hi
  obtain ⟨hbusy, hready⟩ := State.busy_of_cons hs
  have hstep : step s = .next (runOp op { s with seq := ops, inputs := .rst n :: rest }) := by
    rw [step_eq_stepWith]; exact stepWith_countsDown _ hs hi
  have hnow : s.rstNow = false := by simp [State.rstNow_of_rst hi, hs]
  refine ⟨hbusy, hready, hnow, ⟨_, hstep, rfl, by simp, by simp, by simp⟩, fun i hop hrow => ?_⟩
  rw [hstep, hop, exec_lcdRow hrow]

/-- Settles O15: with the reset next, the step begins the plan. -/
theorem commandBeforeAResetIsStarted : Obligations.CommandBeforeAResetIsStarted := by
  intro s b n rest i hs hi hd
  rw [step_eq_stepWith, stepWith_starts hs hi rfl hd]
  exact ⟨fun ops hp => by rw [hp]; rfl, fun c hp => by rw [hp]; rfl⟩

/-- Machines with the same step run alike. -/
theorem core_run_congr {σ φ ρ : Type} {f g : σ → Host.Outcome σ φ ρ} (h : f = g) (reset : σ) (n : Nat) (s : σ) :
    Host.Core.run ⟨σ, φ, ρ, f, reset⟩ n s = Host.Core.run ⟨σ, φ, ρ, g, reset⟩ n s := by
  rw [h]

/-- Settles O55: the parameters are read by the plan of a whole command alone, and an LCD row has none. -/
theorem defaultMachineIsOneOfAllConfigurations : Obligations.DefaultMachineIsOneOfAllConfigurations := by
  refine ⟨fun i s => by rw [exec_eq_execWith], fun s => by rw [step_eq_stepWith], fun n s => ?_,
    fun cfg s h => ?_, fun cfg i s hi => ?_⟩
  · exact core_run_congr step_eq_stepWith State.reset n s
  · rw [step_eq_stepWith]
    by_cases hs : s.seq = []
    · obtain h | hi | ⟨n, rest, hi⟩ | ⟨b, rest, hi, hd⟩ := h
      · exact absurd hs h
      · rw [stepWith_waits _ hs hi, stepWith_waits _ hs hi]
      · rw [stepWith_resets _ hs hi, stepWith_resets _ hs hi]
      · rw [stepWith_holds _ hs hi hd, stepWith_holds _ hs hi hd]
    · obtain ⟨op, ops, hs⟩ := List.exists_cons_of_ne_nil hs
      rw [stepWith_busy _ hs, stepWith_busy _ hs, fetchBusy]
      split <;> rfl
  · rw [execWith_lcdRow cfg hi, exec_lcdRow hi]

/-! ### One operation a step -/

theorem core_run_succ {M : Host.Core} {s t : M.State} (h : M.step s = .next t) (n : Nat) :
    M.run (n + 1) s = M.run n t := by
  rw [Host.Core.run, h]

/-- As many steps as operations are left, with no reset pending, run them all. -/
theorem run_coreWith_runOps (cfg : Config) (ops : List SeqOp) (s : State) (asm : List Byte) {inputs : List Input}
    (hr : rstNext inputs = false) :
    Host.Core.run (coreWith cfg) ops.length (s.withPort ops asm inputs) =
      .next ((runOps ops s).withPort [] asm inputs) := by
  induction ops generalizing s with
  | nil => rfl
  | cons op ops ih =>
    have hstep : (coreWith cfg).step (s.withPort (op :: ops) asm inputs) =
        .next ((runOp op s).withPort ops asm inputs) := by
      rw [← runOp_withPort]; exact stepWith_runOp cfg (s := s.withPort (op :: ops) asm inputs) rfl hr
    exact (core_run_succ hstep ops.length).trans (ih (runOp op s))

/-- Settles O14: the steps run the plan's operations, and `exec` runs them at once; the queue is empty after both. -/
theorem steppedCommandEndsWhereTheWholeOneDoes : Obligations.SteppedCommandEndsWhereTheWholeOneDoes := by
  intro s i ops hs hr hp
  have hstepped := run_coreWith_runOps Config.default ops s s.asm hr
  have hport : (runOps ops s).withPort [] s.asm s.inputs = runOps ops s := by
    rw [← runOps_asm ops s, ← runOps_inputs ops s, ← hs, ← runOps_seq ops s]; rfl
  rw [hport] at hstepped
  rw [exec_eq_perform, hp]
  exact (core_run_congr step_eq_stepWith State.reset ops.length _).trans hstepped

end Sys2Proof.Machine

/-! What a step can do, and what every step keeps (10_state.md R24, R26, R37; 41_facade.md R169, R173). -/

namespace Sys2Proof.Machine

/-! ### What a step can do -/

theorem takeFault_withPort (c : FaultCode) (s : State) (q : List SeqOp) (a : List Byte) (i : List Input) :
    takeFault c (s.withPort q a i) = (takeFault c s).withPort q a i := by
  cases c <;> rfl

/-- A step runs some operations, raises a fault, or is a reset that strikes; the rest is the port's. -/
theorem stepWith_cases {cfg : Config} {s t : State} (h : stepWith cfg s = .next t) :
    (∃ ops q a i, t = (runOps ops s).withPort q a i) ∨ (∃ c q a i, t = (takeFault c s).withPort q a i) ∨
      (s.rstNow = true ∧ ∃ rest, t = hardReset s rest ∨ t = cutReset s rest) := by
  obtain ⟨-, -, rfl⟩ | ⟨b, rest, -, -, -, rfl⟩ | ⟨b, rest, i, left, -, -, -, -, hex⟩ |
    ⟨b, rest, i, left, -, -, -, -, hbegin⟩ | ⟨n, rest, hs, hi, rfl⟩ | ⟨op, ops, rest, -, hi, rfl⟩ |
    ⟨op, ops, n, rest, -, -, rfl⟩ | ⟨op, ops, -, -, rfl⟩ := carryOut_cases h
  · exact .inl ⟨[], t.seq, t.asm, t.inputs, rfl⟩
  · exact .inl ⟨[], s.seq, _, _, rfl⟩
  · obtain ⟨ops, -, rfl⟩ | ⟨c, -, rfl⟩ := execWith_next hex
    · exact .inl ⟨ops, s.seq, left, rest, runOps_withPort ops s s.seq left rest⟩
    · exact .inr (.inl ⟨c, s.seq, left, rest, takeFault_withPort c s s.seq left rest⟩)
  · obtain ⟨ops, -, rfl⟩ | ⟨c, -, rfl⟩ := begin_next hbegin
    · exact .inl ⟨[], ops, left, rest, rfl⟩
    · exact .inr (.inl ⟨c, s.seq, left, rest, takeFault_withPort c s s.seq left rest⟩)
  · exact .inr (.inr ⟨by simp [State.rstNow_of_rst hi, hs], rest, .inl rfl⟩)
  · exact .inr (.inr ⟨by simp [State.rstNow_of_rst hi], rest, .inr rfl⟩)
  · exact .inl ⟨[op], ops, s.asm, .rst n :: rest, runOp_withPort op s ops s.asm _⟩
  · exact .inl ⟨[op], ops, s.asm, s.inputs, runOp_withPort op s ops s.asm s.inputs⟩

theorem settle_of_idle {s : State} (h : s.seq = []) : s.settle = s := by
  rw [State.settle, h, runOps_nil, ← h]

/-- An instruction leaves the queue of the sequencer. -/
theorem execWith_seq {cfg : Config} {i : Instr} {s t : State} (h : execWith cfg i s = .next t) : t.seq = s.seq := by
  obtain ⟨ops, -, rfl⟩ | ⟨c, -, rfl⟩ := execWith_next h
  · exact runOps_seq ops s
  · exact takeFault_seq c s

/-- The state the command in progress ends in, after a step: the same up to the port; or what the host command that has
arrived ends in; or the reset state. -/
theorem stepWith_settle_cases {cfg : Config} {s t : State} (hasm : s.assemblyOk) (h : stepWith cfg s = .next t) :
    (∃ q a i, t.settle = s.settle.withPort q a i) ∨
      (∃ i rest, s.seq = [] ∧ (∃ bytes, encode i = .host bytes) ∧
        execWith cfg i (s.withPort [] [] rest) = .next t.settle) ∨
      (∃ rest, t = hardReset s rest ∨ t = cutReset s rest) := by
  obtain ⟨-, -, rfl⟩ | ⟨b, rest, hs, -, -, rfl⟩ | ⟨b, rest, i, left, hs, -, hd, -, hex⟩ |
    ⟨b, rest, i, left, hs, -, hd, -, hbegin⟩ | ⟨n, rest, -, -, rfl⟩ | ⟨op, ops, rest, -, -, rfl⟩ |
    ⟨op, ops, n, rest, hs, -, rfl⟩ | ⟨op, ops, hs, -, rfl⟩ := carryOut_cases h
  · exact .inl ⟨_, _, _, rfl⟩
  · rw [settle_of_idle hs, settle_of_idle (s := { s with asm := s.asm ++ [b], inputs := rest }) hs]
    exact .inl ⟨s.seq, _, _, rfl⟩
  · obtain rfl := decodeHost_left hasm hd
    have hstart : s.withPort [] [] rest = { s with asm := [], inputs := rest } := by rw [← hs]; rfl
    have ht : t.seq = [] := (execWith_seq hex).trans hs
    obtain ⟨-, bytes, hbytes, -⟩ := encode_of_decodeHost hd
    exact .inr (.inl ⟨i, rest, hs, ⟨bytes, hbytes⟩, by rw [hstart, settle_of_idle ht, hex]⟩)
  · obtain rfl := decodeHost_left hasm hd
    have hstart : s.withPort [] [] rest = { s with asm := [], inputs := rest } := by rw [← hs]; rfl
    obtain ⟨-, bytes, hbytes, -⟩ := encode_of_decodeHost hd
    refine .inr (.inl ⟨i, rest, hs, ⟨bytes, hbytes⟩, ?_⟩)
    obtain ⟨ops, hp, rfl⟩ | ⟨c, hp, rfl⟩ := begin_next hbegin
    · rw [hstart, execWith, hp, ← hstart]; rfl
    · have ht : (takeFault c { s with asm := [], inputs := rest }).seq = [] := (takeFault_seq c _).trans hs
      rw [settle_of_idle ht, hstart, execWith, hp]; rfl
  · exact .inr (.inr ⟨rest, .inl rfl⟩)
  · exact .inr (.inr ⟨rest, .inr rfl⟩)
  · rw [settle_runOp op ops s _ hs]
    exact .inl ⟨_, _, _, rfl⟩
  · rw [settle_runOp op ops s s.inputs hs]
    exact .inl ⟨_, _, _, rfl⟩

/-! ### Flags, state, cells -/

theorem runOps_flag (ops : List SeqOp) (s : State) (c : FaultCode) : (runOps ops s).flag c = s.flag c := by
  cases c <;> simp [State.flag]

theorem withPort_flag (s : State) (q : List SeqOp) (a : List Byte) (i : List Input) (c : FaultCode) :
    (s.withPort q a i).flag c = s.flag c := by
  cases c <;> rfl

/-- Settles O36: a run of operations writes no flag, and a fault is one flag. -/
theorem aCommandRaisesAtMostOneFault : Obligations.ACommandRaisesAtMostOneFault := by
  intro i s t h
  obtain ⟨ops, -, rfl⟩ | ⟨c, -, rfl⟩ := exec_next h
  · exact .inl (runOps_flag ops s)
  · exact .inr ⟨c, rfl⟩

/-- Settles O37: a step that is no reset writes no flag or sets one. -/
theorem faultFlagsAreSticky : Obligations.FaultFlagsAreSticky := by
  intro s t c h hr hc
  rw [step_eq_stepWith] at h
  obtain ⟨ops, q, a, i, rfl⟩ | ⟨c', q, a, i, rfl⟩ | ⟨hnow, -⟩ := stepWith_cases h
  · rw [withPort_flag, runOps_flag, hc]
  · rw [withPort_flag, takeFault_flag, hc, Bool.or_true]
  · rw [hr] at hnow; cases hnow

/-- Only INIT's operations hold the one that makes the block Ready (R161, R169). -/
theorem execWith_state {cfg : Config} {i : Instr} (hi : i ≠ .init) {s t : State} (h : execWith cfg i s = .next t) :
    t.state = s.state := by
  obtain ⟨ops, hp, rfl⟩ | ⟨c, -, rfl⟩ := execWith_next h
  · obtain rfl | ⟨-, -, hc⟩ | ⟨-, rfl⟩ := plan_run_cases hp
    · exact absurd rfl hi
    · exact runOps_state (ready_not_mem_of_ofCommand hc) s
    · exact runOps_state (by simp) s
  · exact takeFault_state c s

/-- Settles O38: no other instruction has the operation, and neither operations nor a fault lead out of Ready. -/
theorem onlyInitMakesReadyAndNothingLeavesIt : Obligations.OnlyInitMakesReadyAndNothingLeavesIt := by
  refine ⟨fun i s t h hs ht => ?_, fun s t h hr hs => ?_⟩
  · by_contra hi
    rw [exec_eq_execWith] at h
    rw [execWith_state hi h, hs] at ht
    cases ht
  · rw [step_eq_stepWith] at h
    obtain ⟨ops, q, a, i, rfl⟩ | ⟨c, q, a, i, rfl⟩ | ⟨hnow, -⟩ := stepWith_cases h
    · exact runOps_ready hs
    · exact (takeFault_state c s).trans hs
    · rw [hr] at hnow; cases hnow

/-- A cell of the buffer that is not listed afterwards was not listed before, so it holds the same free value. -/
theorem cell_kept_or_written {s t : State} (hseed : t.bufSeed = s.bufSeed) {a : Nat}
    (h : (s.buf.read a).isSome → (t.buf.read a).isSome) : t.cell a = s.cell a ∨ (t.buf.read a).isSome := by
  by_cases ht : (t.buf.read a).isSome
  · exact .inr ht
  · have hs : s.buf.read a = none := Option.not_isSome_iff_eq_none.mp (mt h ht)
    exact .inl (cell_congr ((Option.not_isSome_iff_eq_none.mp ht).trans hs.symm) hseed)

/-- Settles O60: right after a reset no cell is listed, and the reset took a number of its own; every other step runs
operations, which write a cell or leave it. -/
theorem hardwareResetLeavesAnyBuffer : Obligations.HardwareResetLeavesAnyBuffer := by
  refine ⟨fun _ _ => rfl, by decide, fun s n rest hi hn => ?_, fun s t h => ?_⟩
  · cases hs : s.seq with
    | nil => exact ⟨_, step_of_rst_of_idle hs hi, rfl, Nat.lt_succ_self _, fun _ _ => rfl⟩
    | cons op ops =>
      obtain rfl : n = 0 := hn.resolve_left (by simp [hs])
      exact ⟨_, step_of_rst_zero_of_busy hs hi, rfl, by simp, fun _ _ => rfl⟩
  · rw [step_eq_stepWith] at h
    obtain ⟨ops, q, a, i, rfl⟩ | ⟨c, q, a, i, rfl⟩ | ⟨hnow, rest, hreset⟩ := stepWith_cases h
    · exact ⟨runOps_freeCtr_le ops s, fun _ => ⟨runOps_bufSeed ops s,
        fun a => cell_kept_or_written (t := runOps ops s) (runOps_bufSeed ops s) runOps_read_isSome⟩⟩
    · exact ⟨(takeFault_freeCtr c s).ge, fun _ => ⟨takeFault_bufSeed c s,
        fun a => .inl (cell_congr (t := takeFault c s) (by rw [takeFault_buf]) (takeFault_bufSeed c s))⟩⟩
    · refine ⟨?_, fun hr => absurd hnow (by simp [hr])⟩
      obtain rfl | rfl := hreset <;> simp

/-- Settles O3: the idle reset is `hardReset`, which has the chips of before; the cutting one `cutReset`. -/
theorem hardwareResetAndTheChips : Obligations.HardwareResetAndTheChips := by
  intro s n rest hi
  refine ⟨fun hs => ⟨_, step_of_rst_of_idle hs hi, rfl, rfl⟩, fun hs hn => ?_⟩
  obtain ⟨op, ops, hs⟩ := List.exists_cons_of_ne_nil hs
  subst hn
  exact ⟨_, step_of_rst_zero_of_busy hs hi, rfl, rfl⟩

/-- Settles O1: each value is the field of `State.reset`; the block is idle and has no input. -/
theorem resetStateHasTheResetValues : Obligations.ResetStateHasTheResetValues :=
  ⟨rfl, rfl, rfl, rfl, rfl, rfl, rfl, rfl, rfl, rfl, rfl, rfl, rfl, rfl, rfl, rfl⟩

/-! ### The canonical form -/

theorem stepWith_canonical {cfg : Config} {s t : State} (hs : s.canonical) (h : stepWith cfg s = .next t) :
    t.canonical := by
  obtain ⟨ops, q, a, i, rfl⟩ | ⟨c, q, a, i, rfl⟩ | ⟨-, rest, rfl | rfl⟩ := stepWith_cases h
  · exact runOps_canonical hs ops
  · cases c <;> exact hs
  · exact ⟨rfl, hs.2⟩
  · exact ⟨rfl, rfl, rfl⟩

/-- Settles O53: operations keep the canonical form, a fault writes no memory, and a reset empties what it writes. -/
theorem everyStepKeepsTheMemoriesCanonical : Obligations.EveryStepKeepsTheMemoriesCanonical := by
  intro s t hbuf ha hb h
  obtain h | ⟨cfg, h⟩ := h
  · rw [step_eq_stepWith] at h
    exact stepWith_canonical ⟨hbuf, ha, hb⟩ h
  · exact stepWith_canonical ⟨hbuf, ha, hb⟩ h

/-! ### The invariant of the block -/

theorem State.memoriesOk_iff (s : State) : s.memoriesOk ↔ s.canonical ∧ ∀ a, 160 ≤ a → s.buf.read a = none := by
  simp [State.memoriesOk, State.canonical, and_assoc]

/-- The assembly after a step: the command just completed left nothing, and a byte held makes no whole command (R97). -/
theorem stepWith_assemblyOk {cfg : Config} {s t : State} (hs : s.assemblyOk) (h : stepWith cfg s = .next t) :
    t.assemblyOk := by
  obtain ⟨-, -, rfl⟩ | ⟨b, rest, -, -, ⟨e, he⟩, rfl⟩ | ⟨b, rest, i, left, -, -, hd, -, hex⟩ |
    ⟨b, rest, i, left, -, -, hd, -, hbegin⟩ | ⟨n, rest, -, -, rfl⟩ | ⟨op, ops, rest, -, -, rfl⟩ |
    ⟨op, ops, n, rest, -, -, rfl⟩ | ⟨op, ops, -, -, rfl⟩ := carryOut_cases h
  · exact hs
  · exact .inr (he.trans (congrArg Except.error (decodeHost_error (by simp) he)))
  · obtain rfl := decodeHost_left hs hd
    obtain ⟨ops, -, rfl⟩ | ⟨c, -, rfl⟩ := execWith_next hex
    · exact .inl (runOps_asm ops _)
    · exact .inl (takeFault_asm c _)
  · obtain rfl := decodeHost_left hs hd
    obtain ⟨ops, -, rfl⟩ | ⟨c, -, rfl⟩ := begin_next hbegin
    · exact .inl rfl
    · exact .inl (takeFault_asm c _)
  · exact .inl rfl
  · exact .inl rfl
  · simpa [State.assemblyOk] using hs
  · simpa [State.assemblyOk] using hs

/-- What INIT does on the bus before it blanks the buffer (R161). -/
def initBusOps (cfg : Config) : List SeqOp :=
  .event (.wait .tPoweron) :: initializeOps cfg .a ++ initializeOps cfg .b

theorem initBusOps_drives (cfg : Config) : ∀ op ∈ initBusOps cfg, op.drives = true := by
  simp only [initBusOps, List.forall_mem_append, List.forall_mem_cons, List.cons_append]
  exact ⟨rfl, initialize_drives cfg .a, initialize_drives cfg .b⟩

theorem initPlan_eq_initBusOps (cfg : Config) :
    initPlan cfg = .run (initBusOps cfg ++ (blankAllOps ++ (sendPositionOps cfg 0 0 ++ [.cursor 0 0, .ready]))) :=
  initPlan_eq cfg

/-- INIT writes every cell before it makes the block Ready (R161). -/
theorem initPlan_bufWritten {cfg : Config} {ops : List SeqOp} (h : initPlan cfg = .run ops) (s : State) :
    (runOps ops s).bufWritten := by
  cases (initPlan_eq_initBusOps cfg).symm.trans h
  obtain ⟨-, -, -, -, hbuf⟩ := runOps_blankHomeReady cfg (initBusOps_drives cfg) s
  intro a ha
  rw [hbuf, read_blankAll, if_pos ha]; rfl

/-- An instruction, from a state in which no command is executing, keeps what holds there (R173 (a), (b)). -/
theorem execWith_idleOk {cfg : Config} {i : Instr} {s t : State} (hs : s.idleOk) (h : execWith cfg i s = .next t) :
    t.idleOk := by
  obtain ⟨hcursor, hpins, hmem, hwritten⟩ := hs
  obtain ⟨ops, hp, rfl⟩ | ⟨c, -, rfl⟩ := execWith_next h
  · have hrange := plan_inRange hp
    obtain ⟨hcan, hhigh⟩ := s.memoriesOk_iff.mp hmem
    refine ⟨runOps_cursorOk hrange hcursor, runOps_idle (plan_disciplined hp) hpins,
      (State.memoriesOk_iff _).mpr ⟨runOps_canonical hcan ops, fun a ha => ?_⟩, fun hready => ?_⟩
    · rw [runOps_read_high hrange s ha, hhigh a ha]
    · by_cases hi : i = .init
      · subst hi; exact initPlan_bufWritten hp s
      · rw [execWith_state hi h] at hready
        exact fun a ha => runOps_read_isSome (hwritten hready a ha)
  · cases c <;> exact ⟨hcursor, hpins, hmem, hwritten⟩

/-- The reset values meet what holds between commands, whatever canonical chips are attached (10_state.md R37). -/
theorem reset_idleOk {t : State} (hcol : t.col = 0) (hline : t.line = 0) (hchip : t.chip = .a)
    (hpins : t.pins = State.reset.pins) (hbuf : t.buf = []) (hstate : t.state = .uninitialized) (hcan : t.canonical) :
    t.idleOk := by
  refine ⟨t.cursorOk_iff.mpr ⟨by simp [hcol], by rw [hchip, hline]; rfl⟩, by rw [hpins]; rfl,
    t.memoriesOk_iff.mpr ⟨hcan, fun a _ => by rw [hbuf]; rfl⟩, fun hready => ?_⟩
  rw [hstate] at hready; cases hready

/-- What is written stays written to the end of the command in progress. -/
theorem settle_read_isSome {s : State} {a : Nat} (h : (s.buf.read a).isSome) : (s.settle.buf.read a).isSome :=
  runOps_read_isSome (s := { s with seq := [] }) h

theorem stepWith_settle_idleOk {cfg : Config} {s t : State} (hs : s.Inv) (h : stepWith cfg s = .next t) :
    t.settle.idleOk := by
  obtain ⟨hasm, hmem, hidle⟩ := hs
  have hcan := stepWith_canonical (s.memoriesOk_iff.mp hmem).1 h
  obtain ⟨q, a, i, ht⟩ | ⟨i, rest, hseq, -, hex⟩ | ⟨rest, rfl | rfl⟩ := stepWith_settle_cases hasm h
  · rw [ht]; exact hidle
  · rw [settle_of_idle hseq] at hidle
    exact execWith_idleOk (s := s.withPort [] [] rest) hidle hex
  · rw [settle_of_idle rfl]; exact reset_idleOk rfl rfl rfl rfl rfl rfl hcan
  · rw [settle_of_idle rfl]; exact reset_idleOk rfl rfl rfl rfl rfl rfl hcan

theorem stepWith_inv {cfg : Config} {s t : State} (hs : s.Inv) (h : stepWith cfg s = .next t) : t.Inv := by
  have hidle := stepWith_settle_idleOk hs h
  obtain ⟨hasm, hmem, -⟩ := hs
  have ⟨_, _, hsettled, _⟩ := hidle
  have hhigh : ∀ a, 160 ≤ a → t.buf.read a = none := fun a ha => by
    have hnone := (State.memoriesOk_iff _).mp hsettled |>.2 a ha
    exact Option.not_isSome_iff_eq_none.mp fun hw => by simpa [hnone] using settle_read_isSome hw
  exact ⟨stepWith_assemblyOk hasm h,
    t.memoriesOk_iff.mpr ⟨stepWith_canonical (s.memoriesOk_iff.mp hmem).1 h, hhigh⟩, hidle⟩

/-- Settles O50: the invariant speaks of the state the command in progress ends in, which a step keeps, or which a whole
command or a reset makes anew. -/
theorem everyStepKeepsTheInvariant : Obligations.EveryStepKeepsTheInvariant := by
  rw [Obligations.EveryStepKeepsTheInvariant, step_eq_stepWith]
  exact ⟨fun _ _ => stepWith_inv, fun _ _ _ => stepWith_inv⟩

/-- Settles O49: the block is idle at reset, and no command is Ready there. -/
theorem resetMeetsTheInvariants : Obligations.ResetMeetsTheInvariants := by
  have hcan : State.reset.canonical := ⟨rfl, rfl, rfl⟩
  have hidle : State.reset.idleOk := reset_idleOk rfl rfl rfl rfl rfl rfl hcan
  have hinv : State.reset.Inv := ⟨.inl rfl, (State.memoriesOk_iff _).mpr ⟨hcan, fun _ _ => rfl⟩, hidle⟩
  exact ⟨hinv, hinv, fun hready => by cases hready⟩

/-- A command is found only by the idle block, and it starts from the cursor as it stands. -/
theorem fetch_command {s : State} {i : Instr} {u : State} (h : fetch s = .run i u ∨ fetch s = .start i u) :
    s.seq = [] ∧ u.col = s.col := by
  unfold fetch at h
  split at h
  · next hs =>
    refine ⟨hs, ?_⟩
    unfold fetchIdle at h
    split at h
    · simp at h
    · unfold acceptByte at h
      split at h
      · split at h <;> simp at h <;> exact h.2 ▸ rfl
      · simp at h
    · simp at h
  · unfold fetchBusy at h
    split at h <;> simp at h

theorem stepWith_completes (cfg : Config) {s : State} (hs : s.Inv) : ∃ t, stepWith cfg s = .next t := by
  have hcol : ∀ {i u}, fetch s = .run i u ∨ fetch s = .start i u → u.col.toNat ≤ 39 := fun h => by
    obtain ⟨hseq, hu⟩ := fetch_command h
    obtain ⟨-, -, hcursor, -⟩ := hs
    rw [settle_of_idle hseq, State.cursorOk_iff] at hcursor
    rw [hu]; exact hcursor.1
  unfold stepWith
  cases hf : fetch s with
  | settled t => exact ⟨t, rfl⟩
  | run i u => exact execWith_completes cfg i (hcol (.inl hf))
  | start i u => exact begin_completes cfg i (hcol (.inr hf))

/-- Settles O51: what a step finds is a state, or a command from a cursor that the invariant keeps on a cell. -/
theorem theMachineNeverStops : Obligations.TheMachineNeverStops := by
  rw [Obligations.TheMachineNeverStops, step_eq_stepWith]
  exact ⟨fun _ => stepWith_completes Config.default, fun cfg _ => stepWith_completes cfg⟩

end Sys2Proof.Machine

/-! What the operations put on the bus: samples, transfers and durations (00_scope.md R16, 40_bus_driver.md R139,
41_facade.md R161 to R167, 70_reset_and_hazards.md R237). -/

namespace Sys2Proof.Machine

/-! ### The transfers of an operation -/

/-- The one transfer of an LCD byte row. -/
def busTransfers : Instr → List Transfer
  | .lcdClear c => [.cmd c 0x01]
  | .lcdDisplayOnNocursor c => [.cmd c 0x0C]
  | .lcdDisplayOnCursor c => [.cmd c 0x0E]
  | .lcdSetPosition c addr => [.cmd c (setPositionByte addr)]
  | .lcdFunctionSet c => [.cmd c 0x28]
  | .lcdEntryMode c => [.cmd c 0x06]
  | .lcdData c d => [.dat c d]
  | _ => []

def opTransfers : SeqOp → List Transfer
  | .bus i => busTransfers i
  | _ => []

/-- An operation whose samples are those of transfers: no cold-start nibble and no event of its own. -/
def SeqOp.paired : SeqOp → Bool
  | .bus (.lcdColdstart8bit _) => false
  | .bus (.lcdColdstart4bit _) => false
  | .event _ => false
  | _ => true

theorem SeqOp.paired_of_ofCommand {op : SeqOp} (h : op.ofCommand = true) : op.paired = true := by
  cases op with
  | bus i =>
    cases i with
    | lcdColdstart8bit c => cases h
    | lcdColdstart4bit c => cases h
    | _ => rfl
  | event e => cases h
  | _ => rfl

theorem samples_wait (p : Pins) (w : TimeParam) : samples p [.wait w] = [] := rfl

/-- The samples of a paired operation are the two of its transfer. -/
theorem samples_opEvents {op : SeqOp} (h : op.paired = true) (p : Pins) :
    samples p (opEvents op) = (opTransfers op).flatMap Transfer.halves := by
  cases op with
  | bus i =>
    cases i with
    | lcdClear c => exact (samples_append p (transferEvents (.cmd c 0x01)) [.wait .tClear]).trans (by
        rw [samples_transfer, samples_wait]; rfl)
    | lcdColdstart8bit c => cases h
    | lcdColdstart4bit c => cases h
    | lcdDisplayOnNocursor c => exact samples_transfer p (.cmd c 0x0C)
    | lcdDisplayOnCursor c => exact samples_transfer p (.cmd c 0x0E)
    | lcdSetPosition c addr => exact samples_transfer p (.cmd c (setPositionByte addr))
    | lcdFunctionSet c => exact samples_transfer p (.cmd c 0x28)
    | lcdEntryMode c => exact samples_transfer p (.cmd c 0x06)
    | lcdData c d => exact samples_transfer p (.dat c d)
    | _ => rfl
  | event e => cases h
  | _ => rfl

theorem samples_paired {ops : List SeqOp} (h : ∀ op ∈ ops, op.paired = true) (p : Pins) :
    samples p (ops.flatMap opEvents) = (ops.flatMap opTransfers).flatMap Transfer.halves := by
  induction ops generalizing p with
  | nil => rfl
  | cons op ops ih =>
    rw [List.forall_mem_cons] at h
    rw [List.flatMap_cons, List.flatMap_cons, samples_append, samples_opEvents h.1, ih h.2, List.flatMap_append]

theorem transfers_paired {ops : List SeqOp} (h : ∀ op ∈ ops, op.paired = true) (p : Pins) :
    transfers p (ops.flatMap opEvents) = ops.flatMap opTransfers := by
  rw [transfers, samples_paired h, pairSamples_flatMap]

/-- A position command has its bit 7 set, so its high nibble is no cold-start nibble. -/
theorem hi_setPositionByte_ne (a : BitVec 7) : hi (setPositionByte a) ≠ 0x3 := by
  revert a; decide

/-- No transfer of the block can be taken for the beginning of a cold start (30_encoding.md R99; log 22). -/
theorem plain_of_mem_opTransfers {op : SeqOp} {x : Transfer} (h : x ∈ opTransfers op) : x.plain = true := by
  cases op with
  | bus i =>
    cases i with
    | lcdSetPosition c addr =>
      obtain rfl := List.mem_singleton.mp h
      exact decide_eq_true (hi_setPositionByte_ne addr)
    | lcdClear c => obtain rfl := List.mem_singleton.mp h; rfl
    | lcdDisplayOnNocursor c => obtain rfl := List.mem_singleton.mp h; rfl
    | lcdDisplayOnCursor c => obtain rfl := List.mem_singleton.mp h; rfl
    | lcdFunctionSet c => obtain rfl := List.mem_singleton.mp h; rfl
    | lcdEntryMode c => obtain rfl := List.mem_singleton.mp h; rfl
    | lcdData c d => obtain rfl := List.mem_singleton.mp h; rfl
    | _ => cases h
  | _ => cases h

theorem chipTransfers_paired (c : Chip) {ops : List SeqOp} (h : ∀ op ∈ ops, op.paired = true) (p : Pins) :
    chipTransfers c p (ops.flatMap opEvents) = (ops.flatMap opTransfers).filter fun x => decide (x.chip = c) := by
  rw [chipTransfers, chipSamples, samples_paired h]
  refine pairChipSamples_flatMap c fun x hx => ?_
  obtain ⟨op, -, hop⟩ := List.mem_flatMap.mp hx
  exact plain_of_mem_opTransfers hop

/-- What an instruction without lone nibbles emits: the events of paired operations. -/
theorem execWith_paired {cfg : Config} {i : Instr} {s t : State} {es : List Event} (h : execWith cfg i s = .next t)
    (he : emitted s t es) (hinit : i ≠ .init) (h8 : ∀ c, i ≠ .lcdColdstart8bit c) (h4 : ∀ c, i ≠ .lcdColdstart4bit c) :
    ∃ ops : List SeqOp, es = ops.flatMap opEvents ∧ ∀ op ∈ ops, op.paired = true := by
  obtain ⟨ops, hp, rfl⟩ | ⟨c, -, rfl⟩ := execWith_next h
  · refine ⟨ops, emitted_unique he (emitted_runOps ops s), ?_⟩
    obtain rfl | ⟨-, -, hc⟩ | ⟨-, rfl⟩ := plan_run_cases hp
    · exact absurd rfl hinit
    · exact fun op hop => SeqOp.paired_of_ofCommand (hc op hop)
    · refine List.forall_mem_singleton.mpr ?_
      cases i with
      | lcdColdstart8bit c => exact absurd rfl (h8 c)
      | lcdColdstart4bit c => exact absurd rfl (h4 c)
      | _ => rfl
  · exact ⟨[], emitted_unique he (emitted_takeFault c s), by simp⟩

/-- Settles O57: both ways of pairing give the operations' transfers. -/
theorem transfersOfOneChip : Obligations.TransfersOfOneChip := by
  intro cfg c i s t es h he hinit h8 h4
  obtain ⟨ops, rfl, hpaired⟩ := execWith_paired h he hinit h8 h4
  rw [chipTransfers_paired c hpaired, transfers_paired hpaired]

/-! ### Initialize and INIT (R139, R161) -/

/-- The four lone nibbles of a cold start. -/
def coldStartSamples (c : Chip) : List Sample := [3, 3, 3, 2].map fun n => ⟨c, false, n⟩

/-- The transfers of Initialize after its cold start. -/
def initializeTransfers (cfg : Config) (c : Chip) : List Transfer :=
  [.cmd c 0x28, .cmd c (if cfg.cursorOn then 0x0E else 0x0C), .cmd c 0x06, .cmd c 0x01]

/-- The samples of Initialize do not depend on the pins before: it sets register-select first. -/
theorem initialize_samples (cfg : Config) (c : Chip) (p : Pins) :
    samples p ((initializeOps cfg c).flatMap opEvents) =
      coldStartSamples c ++ (initializeTransfers cfg c).flatMap Transfer.halves := by
  unfold initializeOps displayOnInstr initializeTransfers
  cases cfg.cursorOn <;> cases c <;> rfl

theorem initialize_pinsAfter (cfg : Config) (c : Chip) (p : Pins) :
    pinsAfter p ((initializeOps cfg c).flatMap opEvents) = p.after c false 0x1 := by
  unfold initializeOps displayOnInstr
  cases cfg.cursorOn <;> cases c <;> rfl

theorem pinsAfter_writeByte (p : Pins) (c : Chip) (m : RsMode) (b : Byte) :
    pinsAfter p (writeByteEvents c m b) = p.after c (rsLevel m) (lo b) := by
  cases c <;> rfl

theorem length_initialize (cfg : Config) (c : Chip) : ((initializeOps cfg c).flatMap opEvents).length = 86 := by
  unfold initializeOps displayOnInstr
  cases cfg.cursorOn <;> rfl

/-- The events of INIT: the power-on wait, both Initializes, the position command of (0, 0). -/
def initEvents (cfg : Config) : List Event :=
  .wait .tPoweron :: ((initializeOps cfg .a).flatMap opEvents ++ (initializeOps cfg .b).flatMap opEvents ++
    transferEvents (.cmd .a (posCmd cfg 0 0)))

theorem length_initEvents (cfg : Config) : (initEvents cfg).length = 187 := by
  simp [initEvents, length_initialize, -List.length_flatMap]

/-- INIT from any state: its operations in one list, which begins with bus operations (R161). -/
theorem execWith_init (cfg : Config) (s : State) :
    ∃ t, execWith cfg .init s = .next t ∧ emitted s t (initEvents cfg) ∧ t.state = .ready ∧ t.line = 0 ∧ t.col = 0 ∧
      t.chip = .a ∧ t.buf = s.buf.writeAll 0 (List.replicate 160 Config.blank) ∧ sameFlags s t ∧
      t.pins = pinsAfter s.pins (initEvents cfg) := by
  have hevents := blankHomeReady_events cfg (initBusOps cfg)
  have hinit : initEvents cfg = (initBusOps cfg).flatMap opEvents ++ transferEvents (.cmd .a (posCmd cfg 0 0)) := by
    simp only [initEvents, initBusOps, List.cons_append, List.flatMap_cons, List.flatMap_append, opEvents,
      List.nil_append]
  obtain ⟨hline, hcol, hchip, hstate, hbuf⟩ := runOps_blankHomeReady cfg (initBusOps_drives cfg) s
  refine ⟨_, congrArg (perform · s) (initPlan_eq_initBusOps cfg), ?_, hstate, hline, hcol, hchip, hbuf,
    sameFlags_runOps _ s, ?_⟩
  · rw [hinit, ← hevents]; exact emitted_runOps _ s
  · rw [hinit, ← hevents]; exact runOps_pins _ s

theorem init_samples (cfg : Config) (p : Pins) :
    samples p (initEvents cfg) =
      coldStartSamples .a ++ (initializeTransfers cfg .a).flatMap Transfer.halves ++
        (coldStartSamples .b ++ (initializeTransfers cfg .b).flatMap Transfer.halves) ++
        (Transfer.cmd .a (posCmd cfg 0 0)).halves := by
  rw [initEvents, ← List.singleton_append, samples_append, samples_append, samples_append, initialize_samples,
    initialize_samples, samples_transfer, samples_wait, List.nil_append]

theorem ctrlAddr_home (cfg : Config) : ctrlAddr cfg 0 0 = cfg.rowBase0 := by
  simp [ctrlAddr, rowBase, rowOf]

theorem plain_initializeTransfers (cfg : Config) (c : Chip) : ∀ x ∈ initializeTransfers cfg c, x.plain = true := by
  unfold initializeTransfers
  cases cfg.cursorOn <;> simp [Transfer.plain] <;> decide

theorem plain_posCmd (cfg : Config) (c : Chip) (l : BitVec 2) (k : BitVec 6) :
    (Transfer.cmd c (posCmd cfg l k)).plain = true :=
  decide_eq_true (hi_setPositionByte_ne _)

/-- One chip's part of a list of transfers' samples, after a cold start of that chip. -/
theorem pairChipSamples_afterColdStart (c : Chip) {xs : List Transfer} (hplain : ∀ x ∈ xs, x.plain = true)
    (hchip : ∀ x ∈ xs, x.chip = c) : pairChipSamples 0 (coldStartSamples c ++ xs.flatMap Transfer.halves) = xs := by
  have hsamples : (xs.flatMap Transfer.halves).filter (fun y => decide (y.chip = c)) = xs.flatMap Transfer.halves := by
    rw [List.filter_flatMap]
    refine List.flatMap_congr fun x hx => ?_
    rw [halves_filter, if_pos (hchip x hx)]
  have hall : xs.filter (fun x => decide (x.chip = c)) = xs := by simpa [List.filter_eq_self] using hchip
  calc pairChipSamples 0 (coldStartSamples c ++ xs.flatMap Transfer.halves)
    _ = pairChipSamples 0 (xs.flatMap Transfer.halves) := pairChipSamples_coldStart c _ _ _ _
    _ = xs := by rw [← hsamples, pairChipSamples_flatMap c hplain, hall]

/-- INIT's position command, as the chip `c` sees it: it goes to chip A. -/
def homeTransfers (cfg : Config) : Chip → List Transfer
  | .a => [.cmd .a (posCmd cfg 0 0)]
  | .b => []

/-- The samples of one chip in INIT: its cold start, then the transfers of its Initialize, and the position command if
it is chip A. -/
theorem init_chipSamples (cfg : Config) (c : Chip) (p : Pins) :
    chipSamples c p (initEvents cfg) = coldStartSamples c ++
      (initializeTransfers cfg c ++ homeTransfers cfg c).flatMap Transfer.halves := by
  rw [chipSamples, init_samples]
  cases c <;> simp [coldStartSamples, initializeTransfers, homeTransfers, Transfer.halves]

/-- The transfers of one chip in INIT (R16). -/
theorem init_chipTransfers (cfg : Config) (c : Chip) (p : Pins) :
    chipTransfers c p (initEvents cfg) =
      initializeTransfers cfg c ++ homeTransfers cfg c := by
  rw [chipTransfers, init_chipSamples]
  refine pairChipSamples_afterColdStart c ?_ ?_
  · rw [List.forall_mem_append]
    refine ⟨plain_initializeTransfers cfg c, ?_⟩
    cases c <;> simp [homeTransfers, plain_posCmd]
  · cases c <;> simp [initializeTransfers, homeTransfers, Transfer.chip]

/-- A position command by its two nibbles (30_encoding.md R100). -/
theorem hi_lo_setPositionByte (a : BitVec 7) : hi (setPositionByte a) = BitVec.ofNat 4 (8 + a.toNat / 16) ∧
    lo (setPositionByte a) = BitVec.ofNat 4 (a.toNat % 16) := by
  rw [hi_eq_ofNat, lo_eq_ofNat, setPositionByte_toNat]
  exact ⟨by rw [show (128 + a.toNat) / 16 = 8 + a.toNat / 16 by omega],
    by rw [show (128 + a.toNat) % 16 = a.toNat % 16 by omega]⟩

/-- Settles O56: the events are the operations' own, written out; samples and transfers are those of the two Initializes
and the position command. -/
theorem initEventsForEveryConfiguration : Obligations.InitEventsForEveryConfiguration := by
  intro cfg s pulse transfer on chipEvents sent home commands
  obtain ⟨hhi, hlo⟩ := hi_lo_setPositionByte cfg.rowBase0
  have hhome : posCmd cfg 0 0 = setPositionByte cfg.rowBase0 := congrArg setPositionByte (ctrlAddr_home cfg)
  have hchip : ∀ c, (initializeOps cfg c).flatMap opEvents = chipEvents c := fun c => by
    simp only [initializeOps, displayOnInstr, chipEvents, on]
    cases cfg.cursorOn <;> rfl
  have hpos : transferEvents (.cmd .a (posCmd cfg 0 0)) = transfer .a home.1 home.2 := by
    rw [hhome]; exact writeByteEvents_of_nibbles .a .command hhi hlo
  have hsent : ∀ c, coldStartSamples c ++ (initializeTransfers cfg c).flatMap Transfer.halves = sent c := fun c => by
    simp only [initializeTransfers, sent, on]
    cases cfg.cursorOn <;> rfl
  have hlast : (Transfer.cmd .a (posCmd cfg 0 0)).halves = [⟨.a, false, home.1⟩, ⟨.a, false, home.2⟩] := by
    rw [hhome, Transfer.halves, hhi, hlo]
  refine ⟨fun c => ?_, ?_⟩
  · rw [← hchip]; exact ⟨length_initialize cfg c, emitted_runOps _ s⟩
  · obtain ⟨t, ht, he, hready, -⟩ := execWith_init cfg s
    refine ⟨t, _, ht, he, hready, ?_, length_initEvents cfg, ?_, ?_, ?_⟩
    · rw [initEvents, hchip, hchip, hpos]
    · rw [init_samples, hsent, hsent, hlast]
    · rw [init_chipTransfers, homeTransfers, hhome]; rfl
    · rw [init_chipTransfers]; exact List.append_nil _

end Sys2Proof.Machine

/-! INIT and CLEAR as whole commands, samples in pairs, and durations (41_facade.md R161, R162, R173;
70_reset_and_hazards.md R237). -/

namespace Sys2Proof.Machine

/-! ### INIT and CLEAR -/

/-- After the blanking every cell holds BLANK, and above the 160 nothing has changed. -/
theorem cell_of_blanked {s t : State} (hbuf : t.buf = s.buf.writeAll 0 (List.replicate 160 Config.blank))
    (hseed : t.bufSeed = s.bufSeed) : (∀ a < 160, t.cell a = 0x20) ∧ ∀ a, 160 ≤ a → t.cell a = s.cell a := by
  refine ⟨fun a ha => cell_of_read ?_, fun a ha => cell_congr ?_ hseed⟩
  · rw [hbuf, read_blankAll, if_pos ha]
  · rw [hbuf, read_blankAll, if_neg (by omega)]

/-- Settles O16: INIT of every configuration, at the default one: its bytes are literals. -/
theorem initResult : Obligations.InitResult := by
  intro s
  obtain ⟨t, ht, he, hstate, hline, hcol, hchip, hbuf, hflags, hpins⟩ := execWith_init Config.default s
  have ⟨_, _, _, _, _, _, hseed⟩ := hflags
  obtain ⟨hlow, hhigh⟩ := cell_of_blanked hbuf hseed
  refine ⟨t, _, ht, he, hstate, hline, hcol, hchip, hlow, hhigh, ?_, hflags, length_initEvents _, rfl, ?_⟩
  · rw [hpins, initEvents, ← List.singleton_append, pinsAfter_append, pinsAfter_append, pinsAfter_append,
      initialize_pinsAfter, initialize_pinsAfter, transferEvents, pinsAfter_writeByte]
    rfl
  · rw [init_samples]; rfl

/-- INIT's operations without the last one. -/
def initOpsBeforeReady (cfg : Config) : List SeqOp :=
  .event (.wait .tPoweron) :: initializeOps cfg .a ++ initializeOps cfg .b ++ blankAllOps ++ sendPositionOps cfg 0 0 ++
    [.cursor 0 0]

theorem initPlan_eq_append_ready (cfg : Config) : initPlan cfg = .run (initOpsBeforeReady cfg ++ [.ready]) := by
  simp [initPlan, initOpsBeforeReady]

theorem ready_not_mem_initOpsBeforeReady (cfg : Config) : SeqOp.ready ∉ initOpsBeforeReady cfg := by
  have hblank := ready_not_mem_of_ofCommand blankAll_ofCommand
  simp [initOpsBeforeReady, initializeOps, sendPositionOps, hblank]

/-- Settles O17: every shorter part of INIT's operations is part of those before its last, of which none makes the block
Ready. -/
theorem initBecomesReadyLast : Obligations.InitBecomesReadyLast := by
  intro cfg s
  refine ⟨_, initPlan_eq_append_ready cfg, by rw [runOps_append]; rfl, fun k hk => ?_⟩
  rw [List.length_append, List.length_singleton] at hk
  rw [List.take_append_of_le_length (by omega)]
  exact runOps_state (fun hm => ready_not_mem_initOpsBeforeReady cfg (List.mem_of_mem_take hm)) s

/-- The events of CLEAR: both ClearChips, then the position command of (0, 0). -/
def clearEvents (cfg : Config) : List Event :=
  clearChipEvents .a ++ clearChipEvents .b ++ transferEvents (.cmd .a (posCmd cfg 0 0))

/-- CLEAR in state Ready, for every configuration (R162). -/
theorem execWith_clear (cfg : Config) {s : State} (h : s.state = .ready) :
    ∃ t, execWith cfg .clear s = .next t ∧ emitted s t (clearEvents cfg) ∧ t.state = .ready ∧ t.line = 0 ∧ t.col = 0 ∧
      t.chip = .a ∧ t.buf = s.buf.writeAll 0 (List.replicate 160 Config.blank) ∧ sameFlags s t ∧
      t.pins = pinsAfter s.pins (clearEvents cfg) := by
  have hpre : ∀ op ∈ [SeqOp.bus (.lcdClear .a), .bus (.lcdClear .b)], op.drives = true := by simp [SeqOp.drives]
  have hevents : _ = clearEvents cfg := blankHome_events cfg [SeqOp.bus (.lcdClear .a), .bus (.lcdClear .b)]
  obtain ⟨hline, hcol, hchip, hstate, hbuf⟩ := runOps_blankHome cfg hpre s
  refine ⟨_, congrArg (perform · s) (clearPlan_eq cfg h), ?_, hstate.trans h, hline, hcol, hchip, hbuf,
    sameFlags_runOps _ s, ?_⟩
  · rw [← hevents]; exact emitted_runOps _ s
  · rw [← hevents]; exact runOps_pins _ s

/-- The levels after CLEAR: both lines pulsed, the last nibble the position command's low one. -/
theorem clear_pinsAfter (p : Pins) :
    pinsAfter p (clearEvents Config.default) = { rs := false, enA := false, enB := false, d := 0 } := by
  simp only [clearEvents, clearChipEvents, writeCommandEvents, transferEvents, pinsAfter_append, pinsAfter_writeByte]
  rfl

/-- Settles O19: CLEAR of every configuration, at the default ROW_BASE; before INIT the state check. -/
theorem clearResult : Obligations.ClearResult := by
  refine ⟨fun s hs => ?_, fun s hs => exec_of_raise (plan_notReady _ (.inl rfl) hs)⟩
  obtain ⟨t, ht, he, hstate, hline, hcol, hchip, hbuf, hflags, hpins⟩ := execWith_clear Config.default hs
  have ⟨_, _, _, _, _, _, hseed⟩ := hflags
  obtain ⟨hlow, hhigh⟩ := cell_of_blanked hbuf hseed
  exact ⟨t, _, ht, he, hstate, hline, hcol, hchip, hlow, hhigh, hpins.trans (clear_pinsAfter s.pins), hflags, rfl,
    clear_transfers s.pins _⟩

/-! ### Samples in pairs (R173 (c)) -/

theorem length_chip_halves (c : Chip) (xs : List Transfer) :
    ((xs.flatMap Transfer.halves).filter fun y => decide (y.chip = c)).length % 2 = 0 := by
  induction xs with
  | nil => rfl
  | cons x xs ih =>
    rw [List.flatMap_cons, List.filter_append, halves_filter, List.length_append]
    have hx : (if x.chip = c then x.halves else []).length % 2 = 0 := by
      split
      · cases x <;> simp [Transfer.halves]
      · rfl
    omega

theorem length_init_chipSamples (cfg : Config) (c : Chip) (p : Pins) :
    (chipSamples c p (initEvents cfg)).length = if c = .a then 14 else 12 := by
  rw [init_chipSamples]; cases c <;> rfl

theorem init_emitted {s t : State} {es : List Event} (h : exec .init s = .next t) (he : emitted s t es) :
    es = initEvents Config.default := by
  obtain ⟨t', ht', he', -⟩ := execWith_init Config.default s
  cases h.symm.trans ht'
  exact emitted_unique he he'

/-- Settles O45: INIT by its count; any other host command sends transfers, two samples each. -/
theorem samplesComeInPairs : Obligations.SamplesComeInPairs := by
  refine ⟨fun i s t es c h he _ hhost => ?_, fun s t es h he => ?_⟩
  · by_cases hi : i = .init
    · subst hi
      obtain rfl := init_emitted h he
      change (chipSamples c s.pins (initEvents Config.default)).length % 2 = 0
      rw [length_init_chipSamples]
      cases c <;> rfl
    · obtain ⟨bytes, hbytes⟩ := hhost
      rw [exec_eq_execWith] at h
      obtain ⟨ops, rfl, hpaired⟩ := execWith_paired h he hi (fun c hc => by subst hc; cases hbytes)
        (fun c hc => by subst hc; cases hbytes)
      rw [samples_paired hpaired]
      exact length_chip_halves c _
  · obtain rfl := init_emitted h he
    exact ⟨length_init_chipSamples _ .a s.pins, length_init_chipSamples _ .b s.pins⟩

/-! ### The events of PutChar (R165, R170) -/

/-- Columns 0..38: the data byte. -/
theorem within_events (c : Chip) (ch : Byte) (i : BitVec 8) (k : BitVec 6) :
    [SeqOp.bus (.lcdData c ch), .store i ch, .column k].flatMap opEvents = [Transfer.dat c ch].flatMap transferEvents :=
  rfl

/-- Column 39 of lines 0, 1, 2: the data byte and the position command of the next line. -/
theorem wrap_events (cfg : Config) (c : Chip) (ch : Byte) (i : BitVec 8) (l : BitVec 2) :
    (SeqOp.bus (.lcdData c ch) :: .store i ch :: (sendPositionOps cfg l 0 ++ [.cursor l 0])).flatMap opEvents =
      [Transfer.dat c ch, .cmd (chipOf l) (posCmd cfg l 0)].flatMap transferEvents :=
  rfl

/-- (3, 39): the data byte and the roll-up. -/
theorem roll_events (cfg : Config) (c : Chip) (ch : Byte) (i : BitVec 8) (cells : List Byte) :
    (SeqOp.bus (.lcdData c ch) :: .store i ch :: rollUpOps cfg cells).flatMap opEvents =
      (Transfer.dat c ch :: rollUpTransfers cfg cells).flatMap transferEvents := by
  rw [List.flatMap_cons, List.flatMap_cons, rollUp_events, List.flatMap_cons]
  rfl

theorem length_rollUpTransfers (cfg : Config) {cells : List Byte} (h : cells.length = 160) :
    (rollUpTransfers cfg cells).length = 165 := by
  simp [rollUpTransfers, h]

/-- A text that stays within its line sends its bytes to the line's chip and no position command. -/
theorem putText_within_line (cfg : Config) {text : List Byte} {s : State} {ops : List SeqOp}
    (hk : s.col.toNat + text.length ≤ 39) (h : putTextOps cfg text s = .ok ops) :
    ops.flatMap opEvents = (text.map (Transfer.dat s.chip)).flatMap transferEvents := by
  induction text generalizing s ops with
  | nil => cases h; rfl
  | cons ch rest ih =>
    rw [List.length_cons] at hk
    obtain ⟨first, more, hf, hm, rfl⟩ := putTextOps_cons h
    rw [putChar_within cfg ch s (by omega)] at hf
    cases hf
    have hcol : (s.col + 1).toNat = s.col.toNat + 1 := by rw [BitVec.toNat_add]; simp; omega
    have hrest := ih (s := runOps _ s) (by simpa [runOp, hcol] using (by omega)) hm
    rw [List.flatMap_append, within_events, hrest]
    simp [runOp]

/-! ### Durations (70_reset_and_hazards.md R237) -/

/-- `t_byte`. -/
def byteTime (time : TimeParam → Nat) : Nat := 2 * (time .tAs + time .tPw + time .tH) + time .tCmd

theorem duration_transferEvents (time : TimeParam → Nat) (x : Transfer) :
    duration time (transferEvents x) = byteTime time := by
  cases x <;> exact duration_writeByte time _ _ _

theorem duration_transfers (time : TimeParam → Nat) (xs : List Transfer) :
    duration time (xs.flatMap transferEvents) = xs.length * byteTime time := by
  induction xs with
  | nil => simp [duration]
  | cons x xs ih =>
    rw [List.flatMap_cons, duration_append, duration_transferEvents, ih, List.length_cons, Nat.succ_mul, Nat.add_comm]

theorem duration_clearChip (time : TimeParam → Nat) (c : Chip) :
    duration time (clearChipEvents c) = byteTime time + time .tClear := by
  rw [clearChipEvents, writeCommandEvents, duration_append, duration_writeByte]; rfl

theorem duration_loneNibble (time : TimeParam → Nat) (c : Chip) (n : Nibble) :
    duration time (loneNibbleEvents c n) = time .tAs + time .tPw + time .tH := by
  simp [loneNibbleEvents, setDataNibbleEvents, pulseEnableEvents, duration]; omega

/-- Initialize of one chip. -/
theorem duration_initialize (time : TimeParam → Nat) (cfg : Config) (c : Chip) :
    duration time ((initializeOps cfg c).flatMap opEvents) =
      4 * (time .tAs + time .tPw + time .tH) + time .tInit1 + 2 * time .tInit2 + time .tCmd + 4 * byteTime time +
        time .tClear := by
  have hwrite : ∀ b, duration time (writeCommandEvents c b) = byteTime time := duration_writeByte time c .command
  unfold initializeOps displayOnInstr
  split <;>
    simp only [List.flatMap_cons, List.flatMap_nil, opEvents, duration_append, duration, busEvents, duration_loneNibble,
      duration_clearChip, hwrite] <;>
    omega

theorem duration_init (time : TimeParam → Nat) (cfg : Config) :
    duration time (initEvents cfg) = time .tPoweron + 2 * (4 * (time .tAs + time .tPw + time .tH) + time .tInit1 +
      2 * time .tInit2 + time .tCmd + 4 * byteTime time + time .tClear) + byteTime time := by
  simp only [initEvents, duration, duration_append, duration_initialize, duration_transferEvents]
  omega

/-- What a plan's operations emit is what the instruction emits. -/
theorem emitted_of_plan {i : Instr} {s t : State} {es : List Event} {ops : List SeqOp}
    (hp : plan Config.default i s = .run ops) (h : exec i s = .next t) (he : emitted s t es) :
    es = ops.flatMap opEvents := by
  rw [exec_eq_perform, hp] at h
  cases h
  exact emitted_unique he (emitted_runOps ops s)

/-- A WRITECHAR that sends the transfers `xs` takes their time. -/
theorem duration_of_writechar (time : TimeParam → Nat) {ch : Byte} {s t : State} {es : List Event} {ops : List SeqOp}
    {xs : List Transfer} (hs : s.state = .ready) (hops : putCharOps Config.default ch s = .ok ops)
    (hxs : ops.flatMap opEvents = xs.flatMap transferEvents) (h : exec (.writechar ch) s = .next t)
    (he : emitted s t es) : duration time es = xs.length * byteTime time := by
  have hp : plan Config.default (.writechar ch) s = .run ops := by
    rw [plan, writecharPlan_eq _ ch hs, hops]; rfl
  rw [emitted_of_plan hp h he, hxs, duration_transfers]

/-- Settles O46: each transfer takes `t_byte`, and the waits of the clears and of Initialize are added. -/
theorem commandDurations : Obligations.CommandDurations := by
  intro time s t es he byte oneChip
  refine ⟨fun h => ?_, fun h hs => ?_, fun l k h hs hl hk => ?_, fun ch h hs hk => ?_, fun ch h hs hk hl => ?_,
    fun ch h hs hk hl => ?_, fun l k text h hs hl hk => ?_, fun i c h hp => ?_⟩
  · rw [init_emitted h he]; exact duration_init time _
  · obtain ⟨t', ht', he', -⟩ := execWith_clear Config.default hs
    cases h.symm.trans ht'
    have hdur : duration time (clearEvents Config.default) = 3 * byteTime time + 2 * time .tClear := by
      rw [clearEvents, duration_append, duration_append, duration_clearChip, duration_clearChip,
        duration_transferEvents]
      omega
    rw [emitted_unique he he']; exact hdur
  · have hp : plan Config.default (.setcursor l k) s = .run (moveToOps Config.default l k) :=
      setcursorPlan_eq Config.default hs hl hk
    rw [emitted_of_plan hp h he, moveTo_events]
    exact duration_transferEvents time _
  · exact (duration_of_writechar time hs (putChar_within _ ch s hk) (within_events _ _ _ _) h he).trans (Nat.one_mul _)
  · exact duration_of_writechar time hs (putChar_wrap _ ch s hk hl) (wrap_events _ _ _ _ _) h he
  · have hdur := duration_of_writechar time hs (putChar_roll _ ch s hk hl) (roll_events _ _ _ _ _) h he
    rwa [List.length_cons, length_rollUpTransfers _ (scrolledCells_spec _).1] at hdur
  · obtain ⟨more, hm, hp⟩ := writemessagePlan_ok Config.default text hs hl (k := k) (by omega)
    obtain ⟨-, hcol, -⟩ := runOps_moveTo Config.default l k s
    have hwithin := putText_within_line _ (by rw [hcol, colOf_toNat (by omega)]; exact hk) hm
    rw [emitted_of_plan (i := .writemessage l k text) hp h he, List.flatMap_append, moveTo_events, hwithin,
      duration_append, duration_transferEvents, duration_transfers, List.length_map, Nat.add_mul, Nat.one_mul]
    rfl
  · rw [exec_of_raise hp] at h
    cases h
    obtain rfl := emitted_unique he (emitted_takeFault c s)
    exact ⟨rfl, rfl⟩

/-- Settles O59: the quotient is rounded up, so it is the least that is enough, and above 0 when the time is. -/
theorem waitCyclesAreTheLeastEnough : Obligations.WaitCyclesAreTheLeastEnough := by
  have hpos : ∀ {a b : Nat}, 0 < a → 0 < b → 0 < (a * b + 999999999) / 1000000000 := fun ha hb => by
    have := Nat.mul_pos ha hb
    omega
  refine ⟨fun x p => ?_, fun x hx => ?_, fun hz h => by simp [Timing.wf, Timing.default, h]⟩
  · unfold Timing.waitCycles
    generalize x.time p * x.fClk = product
    exact ⟨by omega, fun n hn => by omega⟩
  · simp only [Timing.wf, Bool.and_eq_true, decide_eq_true_eq] at hx
    obtain ⟨⟨⟨⟨hpw, hcmd⟩, hinit1⟩, hinit2⟩, hclk⟩ := hx
    exact ⟨hpos hpw hclk, hpos hcmd hclk, hpos hinit1 hclk, hpos hinit2 hclk⟩

/-- Settles O29: no text adds no operation to SETCURSOR's. -/
theorem emptyMessageIsSetcursor : Obligations.EmptyMessageIsSetcursor := by
  intro l k s
  have hplan : writemessagePlan Config.default l k [] s = setcursorPlan Config.default l k s := by
    simp only [writemessagePlan, setcursorPlan, putTextOps, List.append_nil]
  exact congrArg (perform · s) hplan

/-- Settles O41: the row is its lone nibble's events, whose one sample has the register-select level that stands. -/
theorem coldstartRowsEmitTheirEvents : Obligations.ColdstartRowsEmitTheirEvents := by
  intro c s nibble does
  have hsample : ∀ n : Nibble, lo (n.setWidth 8) = n := by decide
  have hrow : ∀ {i : Instr} {n : Nibble}, exec i s = .next (emitAll (loneNibbleEvents c n) s) →
      loneNibbleEvents c n = nibble n → does i n := fun {i n} h he => by
    refine ⟨_, h, he ▸ emitAll_events _ s, sameFacade_emitAll _ s, ?_⟩
    rw [← he, samples_loneNibble, hsample]
  exact ⟨hrow rfl rfl, hrow rfl rfl⟩

end Sys2Proof.Machine

/-! The chips (20_memory.md R73): what a transfer does to the chip it goes to and what it leaves, row by row. -/

namespace Sys2Proof.Machine

/-! ### A transfer on a chip between two bytes -/

/-- A chip in 4-bit mode between two bytes, whether it increments or not. -/
def LcdChip.betweenBytes (y : LcdChip) : Prop := y.regs.mode8 = false ∧ y.regs.phase = false

theorem LcdChip.betweenBytes_of_inStep {y : LcdChip} (h : y.inStep) : y.betweenBytes := ⟨h.1, h.2.1⟩

/-- Such a chip executes the byte it is sent. -/
theorem sample_byte_of_betweenBytes {y : LcdChip} (hy : y.betweenBytes) (n : Nat) (rs : Bool) (h l : Nibble) :
    (y.sample n rs h).sample (n + 1) rs l =
      LcdChip.execute (n + 1) rs h l { y with regs := { y.regs with latch := h } } := by
  obtain ⟨hmode, hphase⟩ := hy
  simp [LcdChip.sample, hmode, hphase]

/-- A chip between two bytes with the byte of a transfer taken in: the high nibble stays in its latch. -/
def LcdChip.receive (n : Nat) (y : LcdChip) : Transfer → LcdChip
  | .cmd _ b => LcdChip.command n (hi b) (lo b) { y with regs := { y.regs with latch := hi b } }
  | .dat _ b => LcdChip.data b { y with regs := { y.regs with latch := hi b } }

/-- A transfer reaches its chip and no other (R73), whatever the other's state. -/
theorem lcd_transfer_other (x : Transfer) {c : Chip} (hc : c ≠ x.chip) (s : State) :
    (emitAll (transferEvents x) s).lcd c = s.lcd c := by
  cases x <;> exact (lcd_writeByte _ c _ _ s).trans (if_neg hc)

theorem lcd_transfer_same (x : Transfer) {s : State} (h : (s.lcd x.chip).betweenBytes) :
    (emitAll (transferEvents x) s).lcd x.chip = (s.lcd x.chip).receive (s.freeCtr + 1) x := by
  cases x with
  | cmd c b => exact (lcd_writeByte c c _ _ s).trans ((if_pos rfl).trans (sample_byte_of_betweenBytes h _ _ _ _))
  | dat c b =>
    refine (lcd_writeByte c c _ _ s).trans ((if_pos rfl).trans ((sample_byte_of_betweenBytes h _ _ _ _).trans ?_))
    simp only [LcdChip.execute, rsLevel, if_true, hi_append_lo, LcdChip.receive, Transfer.chip]

/-- The settle wait of a ClearChip reaches no chip. -/
theorem lcd_clearChip (c c' : Chip) (s : State) :
    (emitAll (clearChipEvents c) s).lcd c' = (emitAll (transferEvents (.cmd c 0x01)) s).lcd c' := by
  rw [clearChipEvents, emitAll_append, emitAll_cons, emitAll_nil, lcd_wait]; rfl

/-- An LCD byte row acts on the chips as its transfer does. -/
theorem lcd_bus {i : Instr} {x : Transfer} (h : busTransfers i = [x]) (s : State) (c : Chip) :
    (runOp (.bus i) s).lcd c = (emitAll (transferEvents x) s).lcd c := by
  cases i with
  | lcdClear c' => cases h; exact lcd_clearChip c' c s
  | lcdDisplayOnNocursor c' => cases h; rfl
  | lcdDisplayOnCursor c' => cases h; rfl
  | lcdSetPosition c' addr => cases h; rfl
  | lcdFunctionSet c' => cases h; rfl
  | lcdEntryMode c' => cases h; rfl
  | lcdData c' d => cases h; rfl
  | _ => cases h

theorem lcd_bus_other {i : Instr} {x : Transfer} (h : busTransfers i = [x]) (s : State) {c : Chip} (hc : c ≠ x.chip) :
    (runOp (.bus i) s).lcd c = s.lcd c :=
  (lcd_bus h s c).trans (lcd_transfer_other x hc s)

theorem lcd_bus_same {i : Instr} {x : Transfer} (h : busTransfers i = [x]) {s : State}
    (hs : (s.lcd x.chip).betweenBytes) :
    (runOp (.bus i) s).lcd x.chip = (s.lcd x.chip).receive (s.freeCtr + 1) x :=
  (lcd_bus h s x.chip).trans (lcd_transfer_same x hs)

theorem lcd_command {i : Instr} {c : Chip} {b : Byte} (h : busTransfers i = [.cmd c b]) {s : State}
    (hs : (s.lcd c).betweenBytes) :
    (runOp (.bus i) s).lcd c = (s.lcd c).receive (s.freeCtr + 1) (.cmd c b) :=
  lcd_bus_same h hs

/-! ### What each byte row does to its chip -/

theorem receive_setPosition (n : Nat) (y : LcdChip) (c : Chip) (a : BitVec 7) :
    y.receive n (.cmd c (setPositionByte a)) =
      { y with regs := { y.regs with latch := hi (setPositionByte a), ac := a } } :=
  command_setPosition n a _

theorem receive_clear (n : Nat) (y : LcdChip) (c : Chip) :
    y.receive n (.cmd c 0x01) =
      { regs := { y.regs with latch := 0x0, ac := 0, incr := true }, ddram := clearedDdram } := rfl

theorem receive_functionSet (n : Nat) (y : LcdChip) (c : Chip) :
    y.receive n (.cmd c 0x28) = { y with regs :=
      { y.regs with latch := 0x2, mode8 := false, twoLine := true, font5x10 := false, phase := false } } := rfl

theorem betweenBytes_functionSet (n : Nat) (y : LcdChip) (c : Chip) : (y.receive n (.cmd c 0x28)).betweenBytes :=
  ⟨rfl, rfl⟩

theorem receive_entryMode (n : Nat) (y : LcdChip) (c : Chip) :
    y.receive n (.cmd c 0x06) =
      { y with regs := { y.regs with latch := 0x0, incr := true, shiftOnWrite := false } } := rfl

theorem receive_displayOnNocursor (n : Nat) (y : LcdChip) (c : Chip) :
    y.receive n (.cmd c 0x0C) = { y with regs :=
      { y.regs with latch := 0x0, displayOn := true, cursorShown := false, blink := false } } := rfl

theorem receive_displayOnCursor (n : Nat) (y : LcdChip) (c : Chip) :
    y.receive n (.cmd c 0x0E) = { y with regs :=
      { y.regs with latch := 0x0, displayOn := true, cursorShown := true, blink := false } } := rfl

/-- A data byte on an incrementing chip, at an address that has a cell. -/
theorem receive_data (n : Nat) {y : LcdChip} (hy : y.inStep) (hcell : hasCell y.regs.ac = true) (c : Chip) (b : Byte) :
    y.receive n (.dat c b) =
      { regs := { y.regs with latch := hi b, ac := nextAc y.regs.ac }, ddram := y.ddram.write y.regs.ac.toNat b } := by
  obtain ⟨-, -, hincr⟩ := hy
  simp [LcdChip.receive, LcdChip.data, hincr, hcell]

theorem hasCell_iff (ac : BitVec 7) :
    hasCell ac = true ↔ ac.toNat ≤ 0x27 ∨ 0x40 ≤ ac.toNat ∧ ac.toNat ≤ 0x67 := by
  simp [hasCell]

/-! ### The chips in the statements -/

theorem exec_bus (i : Instr) (s : State) {x : Transfer} (h : busTransfers i = [x]) :
    exec i s = .next (runOp (.bus i) s) := by
  cases i with
  | init => cases h
  | clear => cases h
  | setcursor l k => cases h
  | writechar ch => cases h
  | writemessage l k text => cases h
  | reserved op => cases h
  | _ => rfl

/-- Settles O42: one transfer each, on a chip in step; a cold-start nibble too reaches its chip alone. -/
theorem lcdRowsActOnTheirChipOnly : Obligations.LcdRowsActOnTheirChipOnly := by
  refine ⟨fun c d s hin hac => ?_, fun c addr s hin => ?_, fun c s hin => ?_, fun i c c' s t h hc hi => ?_⟩
  · have hrow : busTransfers (.lcdData c d) = [.dat c d] := rfl
    have hlcd : (runOp (.bus (.lcdData c d)) s).lcd c = _ :=
      (lcd_bus_same hrow (LcdChip.betweenBytes_of_inStep hin)).trans
        (receive_data _ hin ((hasCell_iff _).mpr hac) c d)
    refine ⟨_, exec_bus _ s hrow, ?_, ?_, ?_, fun a ha => ?_⟩
    · rw [hlcd]; exact hin
    · rw [hlcd, hi_eq_ofNat]; rfl
    · rw [hlcd]; exact read_write_same _ _ d
    · rw [hlcd]; exact read_write_other _ d ha
  · have hrow : busTransfers (.lcdSetPosition c addr) = [.cmd c (setPositionByte addr)] := rfl
    have hlcd := (lcd_command hrow (LcdChip.betweenBytes_of_inStep hin)).trans (receive_setPosition _ _ c addr)
    obtain ⟨hhi, -⟩ := hi_lo_setPositionByte addr
    refine ⟨_, exec_bus _ s hrow, ?_, ?_⟩
    · rw [hlcd]; exact hin
    · rw [hlcd, hhi]
  · have hrow : busTransfers (.lcdClear c) = [.cmd c 0x01] := rfl
    have hlcd := (lcd_command hrow (LcdChip.betweenBytes_of_inStep hin)).trans (receive_clear _ _ c)
    obtain ⟨hmode, hphase, -⟩ := hin
    refine ⟨_, exec_bus _ s hrow, ?_, ?_, fun a => ?_⟩
    · rw [hlcd]; exact ⟨hmode, hphase, rfl⟩
    · rw [hlcd]
    · rw [hlcd]; exact read_clearedDdram a
  · have hbyte : ∀ {x : Transfer}, busTransfers i = [x] → x.chip = c → t.lcd c' = s.lcd c' := fun {x} hx hchip => by
      rw [exec_bus i s hx] at h
      cases h
      exact lcd_bus_other hx s (hchip ▸ hc)
    have hnibble : ∀ n, exec i s = .next (emitAll (loneNibbleEvents c n) s) → t.lcd c' = s.lcd c' := fun n hn => by
      cases h.symm.trans hn
      rw [lcd_loneNibble, if_neg hc]
    obtain rfl | rfl | rfl | ⟨addr, rfl⟩ | rfl | rfl | ⟨d, rfl⟩ | rfl | rfl := hi
    · exact hbyte rfl rfl
    · exact hbyte rfl rfl
    · exact hbyte rfl rfl
    · exact hbyte rfl rfl
    · exact hbyte rfl rfl
    · exact hbyte rfl rfl
    · exact hbyte rfl rfl
    · exact hnibble 0x3 rfl
    · exact hnibble 0x2 rfl

/-- A cold-start nibble on a chip in 8-bit mode: a function set whose low nibble nothing drives (R73; log 10). -/
theorem sample_coldStart {y : LcdChip} (h : y.regs.mode8 = true) (n : Nat) (d : Nibble) (hd : d = 2 ∨ d = 3) :
    ∃ two big, y.sample n false d = { y with regs :=
      { y.regs with mode8 := d.getLsbD 0, phase := false, twoLine := two, font5x10 := big } } := by
  refine ⟨(Config.freeNibble n).getLsbD 3, (Config.freeNibble n).getLsbD 2, ?_⟩
  obtain rfl | rfl := hd <;> simp [LcdChip.sample, h, LcdChip.execute, LcdChip.command]

/-- Settles O58: the four command rows by their transfer, the two cold-start rows by their one sample. -/
theorem lcdCommandRowsSetTheChipsRegisters : Obligations.LcdCommandRowsSetTheChipsRegisters := by
  intro c s gives
  refine ⟨fun hin => ?_, fun hmode hrs => ?_⟩
  · have hrow : ∀ {i : Instr} {b : Byte} {regs : LcdRegs}, busTransfers i = [.cmd c b] →
        (s.lcd c).receive (s.freeCtr + 1) (.cmd c b) = { s.lcd c with regs := regs } → gives i regs :=
      fun hi hb => ⟨_, exec_bus _ s hi, (lcd_command hi (LcdChip.betweenBytes_of_inStep hin)).trans hb⟩
    exact ⟨hrow rfl (receive_functionSet _ _ c), hrow rfl (receive_entryMode _ _ c),
      hrow rfl (receive_displayOnNocursor _ _ c), hrow rfl (receive_displayOnCursor _ _ c)⟩
  · have hnibble : ∀ {i : Instr} {d : Nibble}, exec i s = .next (emitAll (loneNibbleEvents c d) s) → d = 2 ∨ d = 3 →
        ∃ two big, gives i { (s.lcd c).regs with
          mode8 := d.getLsbD 0, phase := false, twoLine := two, font5x10 := big } := fun {i d} h hd => by
      obtain ⟨two, big, hy⟩ := sample_coldStart hmode s.freeCtr d hd
      refine ⟨two, big, _, h, ?_⟩
      rw [lcd_loneNibble, if_pos rfl, hrs, hy]
    exact ⟨hnibble rfl (.inr rfl), hnibble rfl (.inl rfl)⟩

end Sys2Proof.Machine

/-! PutChar and WRITEMESSAGE: what a character and a text leave in the cells and at the cursor (41_facade.md R163 to
R170). -/

namespace Sys2Proof.Machine

/-! ### The cells after a store and after a roll-up -/

/-- A state whose buffer is another's with one cell written. -/
theorem cell_of_write {s t : State} {i : Nat} {v : Byte} (hbuf : t.buf = s.buf.write i v)
    (hseed : t.bufSeed = s.bufSeed) (a : Nat) : t.cell a = if a = i then v else s.cell a := by
  simp only [State.cell, hbuf, hseed, read_write]
  split <;> rfl

/-- A state whose buffer is another's with the first 160 cells written. -/
theorem cell_of_writeAll {s t : State} {vs : List Byte} (hlen : vs.length = 160) (hbuf : t.buf = s.buf.writeAll 0 vs)
    (hseed : t.bufSeed = s.bufSeed) :
    (∀ a < 160, some (t.cell a) = vs[a]?) ∧ ∀ a, 160 ≤ a → t.cell a = s.cell a := by
  refine ⟨fun a ha => ?_, fun a ha => cell_congr ?_ hseed⟩
  · have hget : vs[a]? = some vs[a] := List.getElem?_eq_getElem (by omega)
    rw [hget, cell_of_read (v := vs[a])]
    rw [hbuf, read_writeAll, if_pos (by omega), Nat.sub_zero, hget]
  · rw [hbuf, read_writeAll, if_neg (by omega)]

/-! ### PutChar on its three paths (R165, R170) -/

/-- The cell under the cursor, as a number (20_memory.md R51). -/
def State.pos (s : State) : Nat := s.line.toNat * 40 + s.col.toNat

/-- Columns 0..38: one cell, one column on. -/
theorem runOps_within {s : State} (hk : s.col.toNat < 39) (c : Chip) (ch : Byte) :
    let t := runOps [.bus (.lcdData c ch), .store (idx s.line s.col) ch, .column (s.col + 1)] s
    t.line = s.line ∧ t.col.toNat = s.col.toNat + 1 ∧ t.chip = s.chip ∧ t.state = s.state ∧
      ∀ a, t.cell a = if a = s.pos then ch else s.cell a := by
  intro t
  have hcol : (s.col + 1).toNat = s.col.toNat + 1 := by rw [BitVec.toNat_add]; simp; omega
  have hpos : (idx s.line s.col).toNat = s.pos := idx_toNat (by omega)
  have hbuf : t.buf = s.buf.write s.pos ch := by simp [t, runOp, hpos]
  have htcol : t.col = s.col + 1 := by simp [t, runOp]
  exact ⟨by simp [t, runOp], htcol ▸ hcol, by simp [t, runOp], by simp [t, runOp],
    cell_of_write hbuf (runOps_bufSeed _ s)⟩

/-- Column 39 of lines 0, 1, 2: one cell, and the next line. -/
theorem runOps_wrap {s : State} (hk : s.col = 39) (hl : s.line.toNat < 3) (cfg : Config) (c : Chip) (ch : Byte) :
    let t := runOps (.bus (.lcdData c ch) :: .store (idx s.line s.col) ch ::
      (sendPositionOps cfg (s.line + 1) 0 ++ [.cursor (s.line + 1) 0])) s
    t.line.toNat = s.line.toNat + 1 ∧ t.col = 0 ∧ t.chip = chipOf (s.line + 1) ∧ t.state = s.state ∧
      ∀ a, t.cell a = if a = s.pos then ch else s.cell a := by
  intro t
  have hline : (s.line + 1).toNat = s.line.toNat + 1 := by rw [BitVec.toNat_add]; simp; omega
  have hpos : (idx s.line s.col).toNat = s.pos := idx_toNat (by simp [hk])
  have hbuf : t.buf = s.buf.write s.pos ch := by simp [t, runOp, sendPositionOps, hpos]
  have htline : t.line = s.line + 1 := by simp [t, runOp, sendPositionOps]
  exact ⟨htline ▸ hline, by simp [t, runOp, sendPositionOps],
    by simp [t, runOp, sendPositionOps], by simp [t, runOp, sendPositionOps], cell_of_write hbuf (runOps_bufSeed _ s)⟩

/-- What the scroll gives when the last cell has just been written (R166). -/
theorem scrolledCells_storeLast {s : State} (hl : s.line = 3) (hk : s.col = 39) (ch : Byte) :
    let cells := scrolledCells (s.storeCell (idx s.line s.col) ch)
    cells.length = 160 ∧ (∀ a < 119, cells[a]? = some (s.cell (a + 40))) ∧ cells[119]? = some ch ∧
      ∀ a, 120 ≤ a → a < 160 → cells[a]? = some 0x20 := by
  have hidx : (idx s.line s.col).toNat = 159 := by rw [hl, hk]; rfl
  obtain ⟨hlen, hmoved, hblank⟩ := scrolledCells_spec (s.storeCell (idx s.line s.col) ch)
  refine ⟨hlen, fun a ha => ?_, ?_, hblank⟩
  · rw [hmoved a (by omega), storeCell_cell, if_neg (by omega)]
  · rw [hmoved 119 (by omega), storeCell_cell, if_pos (by omega)]

/-- (3, 39): the cells given, and the last line again. -/
theorem runOps_roll (cfg : Config) (c : Chip) (ch : Byte) {cells : List Byte} (hlen : cells.length = 160) {i : BitVec 8}
    (hi : i.toNat < 160) (s : State) :
    let t := runOps (.bus (.lcdData c ch) :: .store i ch :: rollUpOps cfg cells) s
    t.line = 3 ∧ t.col = 0 ∧ t.chip = .b ∧ t.state = s.state ∧
      (∀ a < 160, some (t.cell a) = cells[a]?) ∧ ∀ a, 160 ≤ a → t.cell a = s.cell a := by
  rw [runOps_cons, runOps_cons]
  -- the roll-up begins where the data byte and the store have led
  have hstate : (runOp (.store i ch) (runOp (.bus (.lcdData c ch)) s)).state = s.state := by simp [runOp]
  have hstored : ∀ a, 160 ≤ a → (runOp (.store i ch) (runOp (.bus (.lcdData c ch)) s)).cell a = s.cell a :=
    fun a ha => by
      refine (storeCell_cell _ i ch a).trans ((if_neg (by omega)).trans ?_)
      exact cell_congr (by simp [runOp]) (by simp)
  generalize runOp (.store i ch) (runOp (.bus (.lcdData c ch)) s) = u at hstate hstored
  obtain ⟨hline, hcol, hchip, hstate', hbuf⟩ := runOps_rollUp cfg hlen u
  obtain ⟨hcells, hhigh⟩ := cell_of_writeAll hlen hbuf (runOps_bufSeed _ u)
  exact ⟨hline, hcol, hchip, hstate'.trans hstate, hcells, fun a ha => (hhigh a ha).trans (hstored a ha)⟩

/-- PutChar anywhere but at (3, 39): the cell under the cursor is written and the cursor goes to the next cell. -/
theorem putChar_advances (cfg : Config) (ch : Byte) {s : State} (hc : s.cursorOk) (hp : s.pos < 159) :
    ∃ ops, putCharOps cfg ch s = .ok ops ∧ (runOps ops s).pos = s.pos + 1 ∧ (runOps ops s).state = s.state ∧
      (runOps ops s).cursorOk ∧ ∀ a, (runOps ops s).cell a = if a = s.pos then ch else s.cell a := by
  obtain ⟨hk, -⟩ := s.cursorOk_iff.mp hc
  have hok : ∀ {ops}, putCharOps cfg ch s = .ok ops → (runOps ops s).cursorOk := fun h =>
    runOps_cursorOk (inRange_of_forall_ofCommand (putChar_ofCommand h)) hc
  obtain hlt | ⟨h39, hl⟩ | ⟨h39, hl⟩ := cursor_cases s hk
  · obtain ⟨hline, hcol, -, hstate, hcells⟩ := runOps_within hlt s.chip ch
    have hops := putChar_within cfg ch s hlt
    exact ⟨_, hops, by rw [State.pos, hline, hcol, State.pos, Nat.add_assoc], hstate, hok hops, hcells⟩
  · obtain ⟨hline, hcol, -, hstate, hcells⟩ := runOps_wrap h39 hl cfg s.chip ch
    have hops := putChar_wrap cfg ch s h39 hl
    refine ⟨_, hops, ?_, hstate, hok hops, hcells⟩
    rw [State.pos, hline, hcol, State.pos, h39]
    simp; omega
  · exfalso
    rw [State.pos, hl, h39] at hp
    exact absurd hp (by decide)

/-! ### A text (R167) -/

/-- A text that ends before (3, 39) fills the cells from the cursor on, in order, and nothing else. -/
theorem putText_fills (cfg : Config) {text : List Byte} {s : State} (hc : s.cursorOk) (hp : s.pos + text.length < 160) :
    ∃ ops, putTextOps cfg text s = .ok ops ∧ (runOps ops s).pos = s.pos + text.length ∧
      (runOps ops s).state = s.state ∧ (runOps ops s).cursorOk ∧
      (∀ i < text.length, some ((runOps ops s).cell (s.pos + i)) = text[i]?) ∧
      ∀ a, (a < s.pos ∨ s.pos + text.length ≤ a) → (runOps ops s).cell a = s.cell a := by
  induction text generalizing s with
  | nil => exact ⟨[], rfl, rfl, rfl, hc, by simp, fun _ _ => rfl⟩
  | cons ch rest ih =>
    rw [List.length_cons] at hp
    obtain ⟨first, hf, hpos, hstate, hcursor, hcell⟩ := putChar_advances cfg ch hc (by omega)
    obtain ⟨more, hm, hpos', hstate', hcursor', hfill, hkeep⟩ := ih hcursor (by omega)
    refine ⟨first ++ more, by rw [putTextOps_cons_ok hf, hm]; rfl, ?_⟩
    rw [runOps_append, List.length_cons]
    refine ⟨by omega, hstate'.trans hstate, hcursor', fun i hi => ?_, fun a ha => ?_⟩
    · cases i with
      | zero => rw [hkeep _ (by omega), hcell, if_pos (by omega)]; rfl
      | succ i => rw [show s.pos + (i + 1) = (runOps first s).pos + i by omega, hfill i (by omega)]; rfl
    · rw [hkeep a (by omega), hcell, if_neg (by omega)]

/-- The operations of a text in two parts. -/
theorem putTextOps_append {cfg : Config} {xs ys : List Byte} {s : State} {p q : List SeqOp}
    (hp : putTextOps cfg xs s = .ok p) (hq : putTextOps cfg ys (runOps p s) = .ok q) :
    putTextOps cfg (xs ++ ys) s = .ok (p ++ q) := by
  induction xs generalizing s p with
  | nil => cases hp; exact hq
  | cons ch rest ih =>
    obtain ⟨first, more, hf, hm, rfl⟩ := putTextOps_cons hp
    rw [runOps_append] at hq
    rw [List.cons_append, putTextOps_cons_ok hf, ih hm hq, List.append_assoc]
    rfl

theorem putTextOps_singleton {cfg : Config} {ch : Byte} {s : State} {ops : List SeqOp}
    (h : putCharOps cfg ch s = .ok ops) : putTextOps cfg [ch] s = .ok ops := by
  rw [putTextOps_cons_ok h]
  exact congrArg Except.ok (List.append_nil ops)

/-- WRITEMESSAGE in range runs its text's operations from the position it is given. -/
theorem exec_writemessage {l k : Byte} {text : List Byte} {s : State} (hs : s.state = .ready) (hl : l.toNat ≤ 3)
    (hk : k.toNat ≤ 39) {ops : List SeqOp}
    (h : putTextOps Config.default text (runOps (moveToOps Config.default l k) s) = .ok ops) :
    exec (.writemessage l k text) s = .next (runOps ops (runOps (moveToOps Config.default l k) s)) := by
  rw [← runOps_append]
  refine congrArg (perform · s) (?_ : writemessagePlan _ _ _ _ _ = .run _)
  rw [writemessagePlan_eq _ text hs hl hk, h]; rfl

/-- Where a text begins: Ready, the cursor at the position given, the cells as before. -/
theorem moveTo_start (cfg : Config) {l k : Byte} (hl : l.toNat ≤ 3) (hk : k.toNat ≤ 39) (s : State) :
    let u := runOps (moveToOps cfg l k) s
    u.pos = l.toNat * 40 + k.toNat ∧ u.cursorOk ∧ u.state = s.state ∧ ∀ a, u.cell a = s.cell a := by
  intro u
  obtain ⟨hline, hcol, hchip, hstate, hbuf⟩ := runOps_moveTo cfg l k s
  refine ⟨?_, u.cursorOk_iff.mpr ⟨?_, hchip.trans (congrArg chipOf hline.symm)⟩, hstate,
    fun a => cell_congr (congrArg (Memory.read · a) hbuf) (runOps_bufSeed _ s)⟩
  · rw [State.pos, hline, hcol, lineOf_toNat hl, colOf_toNat hk]
  · rw [hcol, colOf_toNat hk]; exact hk

theorem sameFlags_runOps_runOps (p q : List SeqOp) (s : State) : sameFlags s (runOps q (runOps p s)) := by
  rw [← runOps_append]; exact sameFlags_runOps _ s

/-- Settles O28: the text's operations are in range and none leads out of Ready. -/
theorem writemessageCompletes : Obligations.WritemessageCompletes := by
  intro l k text s hs hl hk
  obtain ⟨-, hcursor, hstate, -⟩ := moveTo_start Config.default hl hk s
  obtain ⟨ops, hops⟩ := putText_ok Config.default text (State.cursorOk_iff _ |>.mp hcursor).1
  exact ⟨_, exec_writemessage hs hl hk hops, runOps_ready (hstate.trans hs),
    runOps_cursorOk (inRange_of_forall_ofCommand (putText_ofCommand hops)) hcursor,
    sameFlags_runOps_runOps _ _ s, fun a ha => runOps_read_isSome (runOps_read_isSome ha)⟩

/-- Settles O30: the text fills the cells from the position given on. -/
theorem messageFillsConsecutiveCells : Obligations.MessageFillsConsecutiveCells := by
  intro l k text s hs hl hk hlen
  obtain ⟨hpos, hcursor, hstate, hcells⟩ := moveTo_start Config.default hl hk s
  obtain ⟨ops, hops, hpos', hstate', hcursor', hfill, hkeep⟩ :=
    putText_fills Config.default (text := text) hcursor (by omega)
  obtain ⟨hcol, hchip⟩ := (State.cursorOk_iff _).mp hcursor'
  rw [hpos] at hpos' hfill hkeep
  rw [State.pos] at hpos'
  refine ⟨_, exec_writemessage hs hl hk hops, hstate'.trans (hstate.trans hs), by omega, by omega, hchip, hfill,
    fun a ha => (hkeep a ha).trans (hcells a), sameFlags_runOps_runOps _ _ s⟩

/-- A character at (3, 39) and the one after it: the roll-up, then the first cell of the last line. -/
theorem putText_rollThenOne (cfg : Config) (c d : Byte) {s : State} (hl : s.line = 3) (hk : s.col = 39) :
    ∃ ops, putTextOps cfg [c, d] s = .ok ops ∧ (runOps ops s).line = 3 ∧ (runOps ops s).col = 1 ∧
      (runOps ops s).chip = .b ∧ (∀ a < 119, (runOps ops s).cell a = s.cell (a + 40)) ∧ (runOps ops s).cell 119 = c ∧
      (runOps ops s).cell 120 = d ∧ ∀ a, 121 ≤ a → a < 160 → (runOps ops s).cell a = 0x20 := by
  have hroll := putChar_roll cfg c s hk hl
  obtain ⟨hlen, hmoved, hlast, hblank⟩ := scrolledCells_storeLast hl hk c
  have hi : (idx s.line s.col).toNat < 160 := idx_lt (by simp [hk])
  obtain ⟨hline, hcol, hchip, -, hcells, -⟩ := runOps_roll cfg s.chip c hlen hi s
  generalize hu : runOps _ s = u at hline hcol hchip hcells
  have hwithin := putChar_within cfg d u (by simp [hcol])
  obtain ⟨hline', hcol', hchip', -, hcells'⟩ := runOps_within (s := u) (by simp [hcol]) u.chip d
  have hpos : u.pos = 120 := by rw [State.pos, hline, hcol]; rfl
  refine ⟨_, putTextOps_append (xs := [c]) (putTextOps_singleton hroll) (putTextOps_singleton (hu ▸ hwithin)), ?_⟩
  rw [runOps_append, hu]
  refine ⟨hline'.trans hline, BitVec.eq_of_toNat_eq (by rw [hcol', hcol]; rfl), hchip'.trans hchip,
    fun a ha => ?_, ?_, ?_, fun a ha ha' => ?_⟩
  · rw [hcells', if_neg (by omega)]
    exact Option.some_injective _ ((hcells a (by omega)).trans (hmoved a ha))
  · rw [hcells', if_neg (by omega)]
    exact Option.some_injective _ ((hcells 119 (by omega)).trans hlast)
  · rw [hcells', if_pos hpos.symm]
  · rw [hcells', if_neg (by omega)]
    exact Option.some_injective _ ((hcells a ha').trans (hblank a (by omega) ha'))

/-- The cursor is at (3, 39) on the last cell and nowhere else. -/
theorem line_col_of_pos_last {s : State} (hc : s.cursorOk) (hp : s.pos = 159) : s.line = 3 ∧ s.col = 39 := by
  obtain ⟨hk, -⟩ := s.cursorOk_iff.mp hc
  have := s.line.isLt
  rw [State.pos] at hp
  exact ⟨BitVec.eq_of_toNat_eq (by simp; omega), BitVec.eq_of_toNat_eq (by simp; omega)⟩

/-- Settles O31: the position is (3, 39), where the first of the two rolls up. -/
theorem messageAcrossTheLastCell : Obligations.MessageAcrossTheLastCell := by
  intro c d s hs
  obtain ⟨hpos, hcursor, -, hcells⟩ := moveTo_start Config.default (l := 3) (k := 39) (by decide) (by decide) s
  obtain ⟨hline, hcol⟩ := line_col_of_pos_last hcursor hpos
  obtain ⟨ops, hops, hline', hcol', hchip', hmoved, hlast, hnext, hblank⟩ :=
    putText_rollThenOne Config.default c d hline hcol
  exact ⟨_, exec_writemessage hs (by decide) (by decide) hops, hline', hcol', hchip',
    fun a ha => (hmoved a ha).trans (hcells _), hlast, hnext, hblank⟩

/-- Settles O32: 159 characters fill the cells up to (3, 39), the next one rolls up, and the last stands at (3, 0). -/
theorem message161RollsUpOnce : Obligations.Message161RollsUpOnce := by
  intro text s hs hlen
  obtain ⟨hpos, hcursor, -, -⟩ := moveTo_start Config.default (l := 0) (k := 0) (by decide) (by decide) s
  change _ = 0 at hpos
  have hfirst : (text.take 159).length = 159 := by rw [List.length_take]; omega
  obtain ⟨ops, hops, hpos', -, hcursor', hfill, -⟩ :=
    putText_fills Config.default (text := text.take 159) hcursor (by omega)
  obtain ⟨hline, hcol⟩ := line_col_of_pos_last hcursor' (by omega)
  obtain ⟨more, hmore, hline', hcol', hchip', hmoved, hlast, hnext, hblank⟩ :=
    putText_rollThenOne Config.default text[159] text[160] hline hcol
  have htext : text = text.take 159 ++ [text[159], text[160]] := by
    rw [← List.drop_eq_nil_of_le (as := text) (i := 161) (by omega), ← List.drop_eq_getElem_cons,
      ← List.drop_eq_getElem_cons, List.take_append_drop]
  have hall := putTextOps_append hops hmore
  rw [← htext] at hall
  refine ⟨_, exec_writemessage hs (by decide) (by decide) hall, ?_⟩
  rw [runOps_append]
  refine ⟨hline', hcol', hchip', fun a ha => ?_, ?_, hblank⟩
  · by_cases ha' : a < 119
    · have hcell := hfill (a + 40) (by omega)
      rw [hpos, Nat.zero_add, List.getElem?_take_of_lt (by omega)] at hcell
      rw [hmoved a ha', hcell]
    · obtain rfl : a = 119 := by omega
      rw [hlast]; exact (List.getElem?_eq_getElem _).symm
  · rw [hnext]; exact (List.getElem?_eq_getElem _).symm

end Sys2Proof.Machine

/-! The display (20_memory.md R72 to R74): what the operations of the Facade do to the chips, and the results of CLEAR,
SETCURSOR and WRITECHAR with them. -/

namespace Sys2Proof.Machine

/-! ### Chips in step, operation by operation -/

/-- Both chips are in 4-bit mode between two bytes, incrementing (20_memory.md R74). -/
def State.chipsInStep (s : State) : Prop := ∀ c, (s.lcd c).inStep

theorem State.chipsInStep_iff (s : State) : s.chipsInStep ↔ s.lcdA.inStep ∧ s.lcdB.inStep :=
  ⟨fun h => ⟨h .a, h .b⟩, fun ⟨ha, hb⟩ c => by cases c; exacts [ha, hb]⟩

/-- An operation of the Facade's registers or of the buffer reaches no chip. -/
theorem lcd_runOp_of_not_drives {op : SeqOp} (h : op.drives = false) (s : State) (c : Chip) :
    (runOp op s).lcd c = s.lcd c := by
  cases op with
  | event e => cases h
  | bus i => cases h
  | _ => cases c <;> rfl

theorem lcd_setPosition {s : State} (h : s.chipsInStep) (c c' : Chip) (a : BitVec 7) :
    (runOp (.bus (.lcdSetPosition c a)) s).lcd c' =
      if c' = c then { s.lcd c with regs := { (s.lcd c).regs with latch := hi (setPositionByte a), ac := a } }
      else s.lcd c' := by
  have hrow : busTransfers (.lcdSetPosition c a) = [.cmd c (setPositionByte a)] := rfl
  split
  · next hc =>
    subst hc
    exact (lcd_command hrow (LcdChip.betweenBytes_of_inStep (h c'))).trans (receive_setPosition _ _ c' a)
  · next hc => exact lcd_bus_other hrow s hc

theorem lcd_clear {s : State} (h : s.chipsInStep) (c c' : Chip) :
    (runOp (.bus (.lcdClear c)) s).lcd c' =
      if c' = c then
        { regs := { (s.lcd c).regs with latch := 0x0, ac := 0, incr := true }, ddram := clearedDdram }
      else s.lcd c' := by
  have hrow : busTransfers (.lcdClear c) = [.cmd c 0x01] := rfl
  split
  · next hc =>
    subst hc
    exact (lcd_command hrow (LcdChip.betweenBytes_of_inStep (h c'))).trans (receive_clear _ _ c')
  · next hc => exact lcd_bus_other hrow s hc

/-- A data byte at an address that has a cell. -/
theorem lcd_data {s : State} (h : s.chipsInStep) (c c' : Chip) (d : Byte) (hcell : hasCell (s.lcd c).regs.ac = true) :
    (runOp (.bus (.lcdData c d)) s).lcd c' =
      if c' = c then
        { regs := { (s.lcd c).regs with latch := hi d, ac := nextAc (s.lcd c).regs.ac }
          ddram := (s.lcd c).ddram.write (s.lcd c).regs.ac.toNat d }
      else s.lcd c' := by
  have hrow : busTransfers (.lcdData c d) = [.dat c d] := rfl
  split
  · next hc =>
    subst hc
    exact (lcd_bus_same hrow (LcdChip.betweenBytes_of_inStep (h c'))).trans (receive_data _ (h c') hcell c' d)
  · next hc => exact lcd_bus_other hrow s hc

theorem chipsInStep_setPosition {s : State} (h : s.chipsInStep) (c : Chip) (a : BitVec 7) :
    (runOp (.bus (.lcdSetPosition c a)) s).chipsInStep := by
  intro c'
  rw [lcd_setPosition h]
  split
  · exact h c
  · exact h c'

theorem chipsInStep_clear {s : State} (h : s.chipsInStep) (c : Chip) : (runOp (.bus (.lcdClear c)) s).chipsInStep := by
  intro c'
  rw [lcd_clear h]
  split
  · obtain ⟨hmode, hphase, -⟩ := h c
    exact ⟨hmode, hphase, rfl⟩
  · exact h c'

theorem chipsInStep_data {s : State} (h : s.chipsInStep) (c : Chip) (d : Byte)
    (hcell : hasCell (s.lcd c).regs.ac = true) : (runOp (.bus (.lcdData c d)) s).chipsInStep := by
  intro c'
  rw [lcd_data h _ _ _ hcell]
  split
  · exact h c
  · exact h c'

theorem chipsInStep_of_lcd_eq {s t : State} (h : s.chipsInStep) (ht : ∀ c, t.lcd c = s.lcd c) : t.chipsInStep :=
  fun c => by rw [ht c]; exact h c

/-- SendPosition and the cursor registers: the position command is all that reaches a chip. -/
theorem lcd_moveCursor_eq (cfg : Config) (l : BitVec 2) (k : BitVec 6) (s : State) (c : Chip) :
    (runOps (sendPositionOps cfg l k ++ [.cursor l k]) s).lcd c =
      (runOp (.bus (.lcdSetPosition (chipOf l) (ctrlAddr cfg l k))) s).lcd c :=
  lcd_runOp_of_not_drives (op := .cursor l k) rfl _ c

/-- No display cell changes, and the address is the new cursor's. -/
theorem lcd_moveCursor (cfg : Config) {s : State} (h : s.chipsInStep) (l : BitVec 2) (k : BitVec 6) :
    let t := runOps (sendPositionOps cfg l k ++ [.cursor l k]) s
    t.chipsInStep ∧ (t.lcd (chipOf l)).regs.ac = ctrlAddr cfg l k ∧ ∀ c, (t.lcd c).ddram = (s.lcd c).ddram := by
  refine ⟨chipsInStep_of_lcd_eq (chipsInStep_setPosition h _ _) (lcd_moveCursor_eq cfg l k s), ?_, fun c => ?_⟩
  · rw [lcd_moveCursor_eq, lcd_setPosition h, if_pos rfl]
  · rw [lcd_moveCursor_eq, lcd_setPosition h]
    split
    · next hc => rw [hc]
    · rfl

/-! ### SETCURSOR (R163) and CLEAR twice (R66) -/

/-- Settles O21: in range one position command and the cursor; otherwise the one check that fails. -/
theorem setcursorResult : Obligations.SetcursorResult := by
  refine ⟨fun l k s hs hl hk => ?_, fun l k s hs => exec_of_raise (plan_notReady _ (.inr (.inl ⟨l, k, rfl⟩)) hs),
    fun l k s hs hr => exec_of_raise (plan_outOfRange _ (text := []) (.inl rfl) hr hs)⟩
  have hline := lineOf_toNat hl
  have hcol := colOf_toNat hk
  obtain ⟨hline', hcol', hchip', hstate', hbuf'⟩ := runOps_moveTo Config.default l k s
  refine ⟨_, _, congrArg (perform · s) (setcursorPlan_eq Config.default hs hl hk), emitted_runOps _ s, ?_, ?_, ?_,
    hstate'.trans hs, fun a => cell_congr (congrArg (Memory.read · a) hbuf') (runOps_bufSeed _ s), sameFlags_runOps _ s,
    ?_, ?_, fun ha hb c a => ?_⟩
  · rw [hline', hline]
  · rw [hcol', hcol]
  · rw [hchip', chipOf_eq, hline]
  · rw [moveTo_events]; exact length_transferEvents _
  · rw [moveTo_events, posCmd_default _ _ (by omega), chipOf_eq, hline, hcol]
    exact transfers_flatMap s.pins [_] |>.symm ▸ by rw [List.flatMap_singleton]
  · obtain ⟨-, -, hddram⟩ := lcd_moveCursor Config.default (s.chipsInStep_iff.mpr ⟨ha, hb⟩) (lineOf l) (colOf k)
    exact congrArg (Memory.read · a) (hddram c)

/-- The operations of CLEAR. -/
def clearOps (cfg : Config) : List SeqOp :=
  [.bus (.lcdClear .a), .bus (.lcdClear .b)] ++ (blankAllOps ++ (sendPositionOps cfg 0 0 ++ [.cursor 0 0]))

/-- Both chips after both clears. -/
theorem lcd_clearBoth {s : State} (h : s.chipsInStep) (c : Chip) :
    (runOps [.bus (.lcdClear .a), .bus (.lcdClear .b)] s).lcd c =
      { ddram := clearedDdram, regs := { (s.lcd c).regs with latch := 0x0, ac := 0, incr := true } } := by
  rw [runOps_cons, runOps_cons, runOps_nil, lcd_clear (chipsInStep_clear h .a), lcd_clear h, lcd_clear h]
  cases c <;> rfl

theorem chipsInStep_clearBoth {s : State} (h : s.chipsInStep) :
    (runOps [.bus (.lcdClear .a), .bus (.lcdClear .b)] s).chipsInStep := by
  intro c
  obtain ⟨hmode, hphase, -⟩ := h c
  rw [lcd_clearBoth h]
  exact ⟨hmode, hphase, rfl⟩

theorem lcd_blankAll (s : State) (c : Chip) : (runOps blankAllOps s).lcd c = s.lcd c := by
  rw [runOps_blankAll, lcd_setBuf]

/-- What CLEAR leaves in two chips in step: a cleared display each, the address at (0, 0). -/
theorem lcd_clearOps (cfg : Config) {s : State} (h : s.chipsInStep) :
    (runOps (clearOps cfg) s).lcdA = { ddram := clearedDdram, regs := { s.lcdA.regs with
      latch := hi (posCmd cfg 0 0), ac := ctrlAddr cfg 0 0, incr := true } } ∧
    (runOps (clearOps cfg) s).lcdB =
      { ddram := clearedDdram, regs := { s.lcdB.regs with latch := 0x0, ac := 0, incr := true } } := by
  have hblank := lcd_blankAll (runOps [.bus (.lcdClear .a), .bus (.lcdClear .b)] s)
  have hin := chipsInStep_of_lcd_eq (chipsInStep_clearBoth h) hblank
  have hlcd : ∀ c, (runOps (clearOps cfg) s).lcd c = _ := fun c => by
    rw [clearOps, runOps_append, runOps_append, lcd_moveCursor_eq, lcd_setPosition hin, hblank, hblank, lcd_clearBoth h,
      lcd_clearBoth h]
  exact ⟨hlcd .a, hlcd .b⟩

/-- Settles O20: both CLEARs run the same operations, after which nothing is left of the state before. -/
theorem clearTwiceEndsInTheSameState : Obligations.ClearTwiceEndsInTheSameState := by
  intro s hs
  have hfirst : exec .clear s = .next (runOps (clearOps Config.default) s) :=
    congrArg (perform · s) (clearPlan_eq Config.default hs)
  obtain ⟨t, ht, he, hstate, hline, hcol, hchip, hbuf, hflags, hpins⟩ := execWith_clear Config.default hs
  obtain ⟨u, hu, he', hstate', hline', hcol', hchip', hbuf', hflags', hpins'⟩ := execWith_clear Config.default hstate
  have hsecond : exec .clear t = .next (runOps (clearOps Config.default) t) :=
    congrArg (perform · t) (clearPlan_eq Config.default hstate)
  have ⟨_, _, _, _, _, _, hseed⟩ := hflags
  have ⟨_, _, _, _, _, _, hseed'⟩ := hflags'
  obtain ⟨hlow, -⟩ := cell_of_blanked hbuf hseed
  obtain ⟨hlow', hhigh'⟩ := cell_of_blanked hbuf' hseed'
  refine ⟨t, u, _, ht, hu, he, he', fun a => ?_, hline'.trans hline.symm, hcol'.trans hcol.symm,
    hchip'.trans hchip.symm, hstate'.trans hstate.symm, ?_, hflags', fun ha hb => ?_⟩
  · by_cases h : a < 160
    · rw [hlow' a h, hlow a h]
    · exact hhigh' a (by omega)
  · rw [hpins', clear_pinsAfter, hpins, clear_pinsAfter]
  · have hin := s.chipsInStep_iff.mpr ⟨ha, hb⟩
    obtain ⟨hta, htb⟩ := lcd_clearOps Config.default hin
    cases ht.symm.trans hfirst
    cases hu.symm.trans hsecond
    generalize runOps (clearOps Config.default) s = t at hta htb
    obtain ⟨hua, hub⟩ := lcd_clearOps Config.default (s := t) (t.chipsInStep_iff.mpr
      ⟨by rw [hta]; exact ⟨ha.1, ha.2.1, rfl⟩, by rw [htb]; exact ⟨hb.1, hb.2.1, rfl⟩⟩)
    exact ⟨by rw [hua, hta], by rw [hub, htb]⟩

/-! ### WRITECHAR (R164, R165, R170) -/

/-- What a data byte does to the display, when what follows it changes no display cell. -/
theorem displayWrite_of_ddram {s t : State} {ch : Byte}
    (h : s.chipsInStep → hasCell (s.lcd s.chip).regs.ac = true →
      ∀ c, (t.lcd c).ddram = ((runOp (.bus (.lcdData s.chip ch)) s).lcd c).ddram) : displayWrite s t ch := by
  intro ha hb hcell
  have hin := s.chipsInStep_iff.mpr ⟨ha, hb⟩
  refine ⟨?_, fun c a hca => ?_⟩
  · rw [h hin hcell, lcd_data hin _ _ _ hcell, if_pos rfl]
    exact read_write_same _ _ ch
  · rw [h hin hcell, lcd_data hin _ _ _ hcell]
    split
    · next hc => subst hc; exact read_write_other _ ch (hca.resolve_left (by simp))
    · rfl

theorem exec_writechar {ch : Byte} {s : State} (hs : s.state = .ready) {ops : List SeqOp}
    (h : putCharOps Config.default ch s = .ok ops) : exec (.writechar ch) s = .next (runOps ops s) := by
  refine congrArg (perform · s) (?_ : writecharPlan _ _ _ = .run _)
  rw [writecharPlan_eq _ ch hs, h]; rfl

/-- Settles O23: the three operations of the first path. -/
theorem writecharWithinALine : Obligations.WritecharWithinALine := by
  intro ch s hs hk
  obtain ⟨hline, hcol, hchip, hstate, hcells⟩ := runOps_within hk s.chip ch
  refine ⟨_, _, exec_writechar hs (putChar_within _ ch s hk), emitted_runOps _ s, hline, hcol, hchip, hstate.trans hs,
    (hcells _).trans (if_pos rfl), fun a ha => (hcells a).trans (if_neg ha), sameFlags_runOps _ s, rfl, ?_, ?_⟩
  · rw [within_events]; exact transfers_flatMap s.pins _
  · refine displayWrite_of_ddram fun _ _ c => ?_
    rw [runOps_cons, runOps_cons, runOps_cons, runOps_nil, lcd_runOp_of_not_drives rfl, lcd_runOp_of_not_drives rfl]

/-- The position command of a line's first column, with the default ROW_BASE. -/
theorem posCmd_lineStart (l : BitVec 2) : posCmd Config.default l 0 = if l.toNat % 2 = 0 then 0x80 else 0xC0 := by
  revert l; decide

/-- Settles O24: the second path; its position command changes no display cell. -/
theorem writecharWrapsToTheNextLine : Obligations.WritecharWrapsToTheNextLine := by
  intro ch s hs hk hl
  have hnext : (s.line + 1).toNat = s.line.toNat + 1 := by rw [BitVec.toNat_add]; simp; omega
  have hpos : s.pos = s.line.toNat * 40 + 39 := by rw [State.pos, hk]; rfl
  obtain ⟨hline, hcol, hchip, hstate, hcells⟩ := runOps_wrap hk hl Config.default s.chip ch
  refine ⟨_, _, exec_writechar hs (putChar_wrap _ ch s hk hl), emitted_runOps _ s, hline, hcol, ?_, hstate.trans hs,
    (hcells _).trans (if_pos hpos.symm), fun a ha => (hcells a).trans (if_neg (hpos ▸ ha)), sameFlags_runOps _ s, rfl,
    ?_, ?_⟩
  · rw [hchip, chipOf_eq, hnext]
  · rw [wrap_events, transfers_flatMap, chipOf_eq, posCmd_lineStart, hnext]
  · refine displayWrite_of_ddram fun hin hcell c => ?_
    have hdata := chipsInStep_data hin s.chip ch hcell
    have hstored := chipsInStep_of_lcd_eq hdata (lcd_runOp_of_not_drives (op := .store (idx s.line s.col) ch) rfl _)
    obtain ⟨-, -, hddram⟩ := lcd_moveCursor Config.default hstored (s.line + 1) 0
    rw [runOps_cons, runOps_cons, hddram c, lcd_runOp_of_not_drives rfl]

/-- Settles O25: the third path, of the buffer with the character in it. -/
theorem writecharRollsUpAtTheEnd : Obligations.WritecharRollsUpAtTheEnd := by
  intro ch s hs hl hk
  obtain ⟨hlen, hmoved, hlast, hblank⟩ := scrolledCells_storeLast hl hk ch
  have hi : (idx s.line s.col).toNat < 160 := idx_lt (by simp [hk])
  have hops := putChar_roll Config.default ch s hk hl
  generalize scrolledCells (s.storeCell (idx s.line s.col) ch) = cells at *
  obtain ⟨hline, hcol, hchip, hstate, hcells, hhigh⟩ := runOps_roll Config.default s.chip ch hlen hi s
  have hcell : ∀ {a v}, a < 160 → cells[a]? = some v → _ = v := fun {a v} ha hv =>
    Option.some_injective _ ((hcells a ha).trans hv)
  refine ⟨_, _, cells, exec_writechar hs hops, emitted_runOps _ s, hline, hcol, hchip, hstate.trans hs,
    fun a ha => hcell (by omega) (hmoved a ha), hcell (by omega) hlast, fun a ha ha' => hcell ha' (hblank a ha ha'),
    hhigh, sameFlags_runOps _ s, ?_, hlen, hcells, ?_⟩
  · rw [roll_events, length_flatMap_transferEvents, List.length_cons, length_rollUpTransfers _ hlen]
  · rw [roll_events, transfers_flatMap, rollUpTransfers]
    rfl

end Sys2Proof.Machine

/-! The chips track the block (20_memory.md R72, R74; 41_facade.md R173 (d)): the display shows the buffer and the
chip's address is the cursor's, after INIT from any state and after every step. -/

namespace Sys2Proof.Machine

/-! ### The display addresses of the default ROW_BASE -/

/-- The parameters have the default ROW_BASE; DISPLAY_ON_CMD is free. -/
def usesDefaultRows (cfg : Config) : Prop := ∀ l k, ctrlAddr cfg l k = ctrlAddr Config.default l k

theorem usesDefaultRows_default : usesDefaultRows Config.default := fun _ _ => rfl

theorem usesDefaultRows_cursorOn (on : Bool) : usesDefaultRows { Config.default with cursorOn := on } := fun _ _ => rfl

/-- The first address of a line. -/
def rowStart (l : BitVec 2) : Nat := if l.toNat % 2 = 0 then 0 else 0x40

theorem rowStart_cases (l : BitVec 2) : rowStart l = 0 ∨ rowStart l = 0x40 := by
  unfold rowStart; split
  · exact .inl rfl
  · exact .inr rfl

theorem ctrlAddr_default_toNat (l : BitVec 2) {k : BitVec 6} (hk : k.toNat ≤ 39) :
    (ctrlAddr Config.default l k).toNat = rowStart l + k.toNat := by
  rw [ctrlAddr_toNat (by decide) l hk, rowBase_rowOf_toNat]; rfl

/-- The two lines of a chip are at different addresses. -/
theorem rowStart_ne {l l' : BitVec 2} (hc : chipOf l = chipOf l') (hl : l ≠ l') : rowStart l ≠ rowStart l' := by
  revert l l'; decide

theorem hasCell_of_toNat {ac : BitVec 7} {b k : Nat} (hb : b = 0 ∨ b = 0x40) (hk : k ≤ 39) (h : ac.toNat = b + k) :
    hasCell ac = true := by
  rw [hasCell_iff]; omega

/-- Within a line the address counts on by one. -/
theorem nextAc_toNat {ac : BitVec 7} {b k : Nat} (hb : b = 0 ∨ b = 0x40) (hk : k < 39) (h : ac.toNat = b + k) :
    (nextAc ac).toNat = b + (k + 1) := by
  have h27 : ac ≠ 0x27 := fun he => by subst he; have : (0x27 : BitVec 7).toNat = 39 := rfl; omega
  have h67 : ac ≠ 0x67 := fun he => by subst he; have : (0x67 : BitVec 7).toNat = 103 := rfl; omega
  rw [nextAc, if_neg h27, if_neg h67, BitVec.toNat_add]
  simp; omega

/-! ### What the display shows -/

/-- The display cell of a position. -/
def State.shown (s : State) (l : BitVec 2) (k : BitVec 6) : Option Byte :=
  (s.lcd (chipOf l)).ddram.read (ctrlAddr Config.default l k).toNat

/-- Both chips are in step and every display cell shows its buffer cell. -/
def State.displayOk (s : State) : Prop :=
  s.chipsInStep ∧ ∀ (l : BitVec 2) (k : BitVec 6), k.toNat ≤ 39 → s.shown l k = some (s.cell (idx l k).toNat)

theorem State.tracked_iff (s : State) :
    s.tracked ↔ s.displayOk ∧ (s.lcd (chipOf s.line)).regs.ac = ctrlAddr Config.default s.line s.col := by
  simp only [State.tracked, State.displayOk, State.chipsInStep_iff, State.shown, BitVec.le_def]
  exact ⟨fun ⟨ha, hb, hac, hcells⟩ => ⟨⟨⟨ha, hb⟩, hcells⟩, hac⟩, fun ⟨⟨⟨ha, hb⟩, hcells⟩, hac⟩ => ⟨ha, hb, hac, hcells⟩⟩

/-- Chips in step with the same display cells over the same buffer. -/
theorem displayOk_congr {s t : State} (hs : s.displayOk) (hin : t.chipsInStep)
    (hddram : ∀ c, (t.lcd c).ddram = (s.lcd c).ddram) (hcell : ∀ a, t.cell a = s.cell a) : t.displayOk := by
  refine ⟨hin, fun l k hk => ?_⟩
  rw [hcell, ← hs.2 l k hk, State.shown, hddram]; rfl

/-- SendPosition and the cursor, from a display that shows the buffer: the chips track the block. -/
theorem tracked_moveCursor {cfg : Config} (hcfg : usesDefaultRows cfg) {s : State} (hs : s.displayOk) (l : BitVec 2)
    (k : BitVec 6) : (runOps (sendPositionOps cfg l k ++ [.cursor l k]) s).tracked := by
  obtain ⟨hin, hac, hddram⟩ := lcd_moveCursor cfg hs.1 l k
  refine (State.tracked_iff _).mpr ⟨displayOk_congr hs hin hddram fun a => ?_, ?_⟩
  · exact cell_congr (by simp [sendPositionOps, runOp]) (runOps_bufSeed _ s)
  · rw [← hcfg]; exact hac

/-! ### One line of the retransmission (R166) -/

/-- Data bytes to a chip from an address on: they fill the cells there. -/
theorem lcd_dataRun {b : Nat} (hb : b = 0 ∨ b = 0x40) (c : Chip) {vs : List Byte} {k : Nat} {s : State}
    (hin : s.chipsInStep) (hk : k + vs.length ≤ 40) (hac : vs ≠ [] → (s.lcd c).regs.ac.toNat = b + k) :
    (runOps (vs.map fun v => .bus (.lcdData c v)) s).chipsInStep ∧
      ∀ c', ((runOps (vs.map fun v => .bus (.lcdData c v)) s).lcd c').ddram =
        if c' = c then (s.lcd c).ddram.writeAll (b + k) vs else (s.lcd c').ddram := by
  induction vs generalizing k s with
  | nil =>
    refine ⟨hin, fun c' => ?_⟩
    split
    · next hc => rw [hc]; rfl
    · rfl
  | cons v rest ih =>
    rw [List.length_cons] at hk
    have hac := hac (List.cons_ne_nil v rest)
    have hcell := hasCell_of_toNat hb (k := k) (by omega) hac
    have hlcd := fun c' => lcd_data hin c c' v hcell
    have hnext : rest ≠ [] → ((runOp (.bus (.lcdData c v)) s).lcd c).regs.ac.toNat = b + (k + 1) := fun hne => by
      have := List.length_pos_iff.mpr hne
      rw [hlcd, if_pos rfl]
      exact nextAc_toNat hb (by omega) hac
    obtain ⟨hin', hddram⟩ := ih (chipsInStep_data hin c v hcell) (by omega) hnext
    rw [List.map_cons, runOps_cons]
    refine ⟨hin', fun c' => ?_⟩
    rw [hddram, hlcd, hlcd, if_pos rfl, hac]
    split <;> rfl

theorem shown_sendLine {cfg : Config} (hcfg : usesDefaultRows cfg) {s : State} (hin : s.chipsInStep) (l : BitVec 2)
    {vs : List Byte} (hlen : vs.length = 40) :
    (runOps (sendLineOps cfg l vs) s).chipsInStep ∧ ∀ (l' : BitVec 2) (k : BitVec 6), k.toNat ≤ 39 →
      (runOps (sendLineOps cfg l vs) s).shown l' k = if l' = l then vs[k.toNat]? else s.shown l' k := by
  have hsplit : sendLineOps cfg l vs = [SeqOp.bus (.lcdSetPosition (chipOf l) (ctrlAddr cfg l 0))] ++
      vs.map fun v => .bus (.lcdData (chipOf l) v) := rfl
  have hposition := lcd_setPosition hin (chipOf l) (a := ctrlAddr cfg l 0)
  have hac : (((runOp (.bus (.lcdSetPosition (chipOf l) (ctrlAddr cfg l 0))) s).lcd (chipOf l)).regs.ac).toNat =
      rowStart l + 0 := by
    rw [hposition, if_pos rfl, hcfg]
    exact ctrlAddr_default_toNat l (k := 0) (by decide)
  have hddram : ∀ c, ((runOp (.bus (.lcdSetPosition (chipOf l) (ctrlAddr cfg l 0))) s).lcd c).ddram =
      (s.lcd c).ddram := fun c => by
    rw [hposition]
    split
    · next hc => rw [hc]
    · rfl
  obtain ⟨hin', hfilled⟩ := lcd_dataRun (rowStart_cases l) (chipOf l) (vs := vs) (k := 0)
    (chipsInStep_setPosition hin _ _) (by omega) (fun _ => hac)
  rw [hsplit, runOps_append, runOps_cons, runOps_nil]
  refine ⟨hin', fun l' k hk => ?_⟩
  rw [State.shown, hfilled, hddram, hddram, ctrlAddr_default_toNat l' hk]
  by_cases hl : l' = l
  · rw [if_pos (by rw [hl]), if_pos hl, hl, read_writeAll, if_pos (by omega)]
    congr 1; omega
  · rw [if_neg hl, State.shown, ctrlAddr_default_toNat l' hk]
    split
    · next hc =>
      have hne := rowStart_ne hc hl
      have := rowStart_cases l
      have := rowStart_cases l'
      rw [read_writeAll, if_neg (by omega), hc]
    · rfl

/-! ### RollUp, PutChar and a text -/

theorem cell_sendLine (cfg : Config) (l : BitVec 2) (vs : List Byte) (s : State) (a : Nat) :
    (runOps (sendLineOps cfg l vs) s).cell a = s.cell a := by
  obtain ⟨-, -, -, -, hbuf⟩ := runOps_drives (sendLine_drives cfg l vs) s
  exact cell_congr (congrArg (Memory.read · a) hbuf) (runOps_bufSeed _ s)

theorem lcd_storeAll {vs : List Byte} (h : vs.length ≤ 256) (s : State) (c : Chip) :
    (runOps (storeAllOps 0 vs) s).lcd c = s.lcd c := by
  rw [runOps_storeAll _ _ _ (by omega), lcd_setBuf]

/-- Every line of the list is one of the four sent. -/
theorem getElem?_line {cells : List Byte} (n : Nat) {k : Nat} (hk : k ≤ 39) :
    ((cells.drop n).take 40)[k]? = cells[n + k]? := by
  rw [List.getElem?_take_of_lt (by omega), List.getElem?_drop]

/-- After a roll-up the display shows the scrolled cells, and the last line's address is set (R166). -/
theorem tracked_rollUp {cfg : Config} (hcfg : usesDefaultRows cfg) {cells : List Byte} (hlen : cells.length = 160)
    {s : State} (hin : s.chipsInStep) : (runOps (rollUpOps cfg cells) s).tracked := by
  have hsplit : rollUpOps cfg cells = storeAllOps 0 cells ++ (sendLineOps cfg 0 ((cells.drop 0).take 40) ++
      (sendLineOps cfg 1 ((cells.drop 40).take 40) ++ (sendLineOps cfg 2 ((cells.drop 80).take 40) ++
        (sendLineOps cfg 3 ((cells.drop 120).take 40) ++ (sendPositionOps cfg 3 0 ++ [.cursor 3 0]))))) := by
    simp only [rollUpOps, List.drop_zero, List.append_assoc]
  have hline : ∀ n, n ≤ 120 → ((cells.drop n).take 40).length = 40 := fun n hn => by
    rw [List.length_take, List.length_drop]; omega
  rw [hsplit]
  simp only [runOps_append (storeAllOps 0 cells), runOps_append (sendLineOps _ _ _)]
  have hin0 := chipsInStep_of_lcd_eq hin (lcd_storeAll (vs := cells) (by omega) s)
  have hbuf : (runOps (storeAllOps 0 cells) s).buf = s.buf.writeAll 0 cells := by
    rw [runOps_storeAll _ _ _ (by omega), setBuf_buf]
  have hcells := (cell_of_writeAll hlen hbuf (runOps_bufSeed _ s)).1
  generalize runOps (storeAllOps 0 cells) s = s0 at hin0 hcells
  obtain ⟨hin1, hshown1⟩ := shown_sendLine hcfg hin0 0 (hline 0 (by omega))
  obtain ⟨hin2, hshown2⟩ := shown_sendLine hcfg hin1 1 (hline 40 (by omega))
  obtain ⟨hin3, hshown3⟩ := shown_sendLine hcfg hin2 2 (hline 80 (by omega))
  obtain ⟨hin4, hshown4⟩ := shown_sendLine hcfg hin3 3 (hline 120 (by omega))
  refine tracked_moveCursor hcfg ⟨hin4, fun l k hk => ?_⟩ 3 0
  simp only [cell_sendLine]
  rw [hcells _ (idx_lt hk), idx_toNat hk, hshown4 l k hk, hshown3 l k hk, hshown2 l k hk, hshown1 l k hk]
  simp only [getElem?_line _ hk]
  obtain rfl | rfl | rfl | rfl : l = 0 ∨ l = 1 ∨ l = 2 ∨ l = 3 := by revert l; decide
  · rfl
  · rfl
  · rfl
  · rfl

theorem idx_inj {l l' : BitVec 2} {k k' : BitVec 6} (hk : k.toNat ≤ 39) (hk' : k'.toNat ≤ 39) :
    (idx l k).toNat = (idx l' k').toNat ↔ l = l' ∧ k = k' := by
  rw [idx_toNat hk, idx_toNat hk', ← BitVec.toNat_inj, ← BitVec.toNat_inj]
  omega

/-- The data byte and the store of PutChar put one character on the display and in the buffer, at the cursor (R170). -/
theorem displayOk_dataStore {s : State} (hs : s.tracked) (hc : s.cursorOk) (ch : Byte) :
    let u := runOp (.store (idx s.line s.col) ch) (runOp (.bus (.lcdData s.chip ch)) s)
    u.displayOk ∧ (u.lcd (chipOf s.line)).regs.ac = nextAc (ctrlAddr Config.default s.line s.col) := by
  intro u
  obtain ⟨⟨hin, hshown⟩, hac⟩ := s.tracked_iff.mp hs
  obtain ⟨hk, hchip⟩ := s.cursorOk_iff.mp hc
  have haddr := ctrlAddr_default_toNat s.line hk
  have hcell : hasCell (s.lcd s.chip).regs.ac = true := by
    rw [hchip, hac]; exact hasCell_of_toNat (rowStart_cases s.line) hk haddr
  have hlcd : ∀ c, u.lcd c = (runOp (.bus (.lcdData s.chip ch)) s).lcd c :=
    lcd_runOp_of_not_drives (op := .store (idx s.line s.col) ch) rfl _
  have hbuf : u.buf = s.buf.write (idx s.line s.col).toNat ch := by simp [u, runOp]
  have hcells := cell_of_write (t := u) hbuf (by simp [u])
  refine ⟨⟨chipsInStep_of_lcd_eq (chipsInStep_data hin _ _ hcell) hlcd, fun l k hk' => ?_⟩, ?_⟩
  · rw [hcells, State.shown, hlcd, lcd_data hin _ _ _ hcell, hchip, hac]
    by_cases hpos : l = s.line ∧ k = s.col
    · obtain ⟨rfl, rfl⟩ := hpos
      rw [if_pos rfl, if_pos rfl]
      exact read_write_same _ _ ch
    · rw [if_neg (mt (idx_inj hk' hk).mp hpos), ← hshown l k hk', State.shown]
      split
      · next hchips =>
        have hne : (ctrlAddr Config.default l k).toNat ≠ (ctrlAddr Config.default s.line s.col).toNat := fun he => by
          obtain ⟨hrow, hcol⟩ := ctrlAddr_inj (cfg := Config.default) (by decide) hk' hk (BitVec.eq_of_toNat_eq he)
          exact hpos ⟨line_eq_of_chipOf_of_rowOf hchips hrow, hcol⟩
        rw [read_write_other _ ch hne, hchips]
      · rfl
  · rw [hlcd, lcd_data hin _ _ _ hcell, hchip, if_pos rfl, hac]

/-- PutChar keeps the chips tracking the block, on each of its three paths. -/
theorem tracked_putChar {cfg : Config} (hcfg : usesDefaultRows cfg) {ch : Byte} {s : State} {ops : List SeqOp}
    (h : putCharOps cfg ch s = .ok ops) (hs : s.tracked) (hc : s.cursorOk) : (runOps ops s).tracked := by
  obtain ⟨hdisplay, hac⟩ := displayOk_dataStore hs hc ch
  obtain ⟨hk, more, rfl, hmore⟩ := putChar_cases h
  have hline : (runOp (.store (idx s.line s.col) ch) (runOp (.bus (.lcdData s.chip ch)) s)).line = s.line := by
    simp [runOp]
  rw [runOps_cons, runOps_cons]
  generalize runOp (.store (idx s.line s.col) ch) (runOp (.bus (.lcdData s.chip ch)) s) = u at hdisplay hac hline
  obtain ⟨hlt, rfl⟩ | ⟨-, -, rfl⟩ | ⟨-, -, rfl⟩ := hmore
  · have hcol : (s.col + 1).toNat = s.col.toNat + 1 := by rw [BitVec.toNat_add]; simp; omega
    have hlcd := lcd_runOp_of_not_drives (op := .column (s.col + 1)) rfl u
    rw [runOps_cons, runOps_nil]
    refine (State.tracked_iff _).mpr ⟨displayOk_congr hdisplay (chipsInStep_of_lcd_eq hdisplay.1 hlcd)
      (fun c => congrArg LcdChip.ddram (hlcd c)) fun _ => rfl, ?_⟩
    change ((runOp (.column (s.col + 1)) u).lcd (chipOf u.line)).regs.ac = ctrlAddr Config.default u.line (s.col + 1)
    rw [hlcd, hline, hac]
    refine BitVec.eq_of_toNat_eq ?_
    rw [nextAc_toNat (rowStart_cases s.line) hlt (ctrlAddr_default_toNat _ hk), ctrlAddr_default_toNat _ (by omega),
      hcol]
  · exact tracked_moveCursor hcfg hdisplay _ _
  · exact tracked_rollUp hcfg (scrolledCells_spec _).1 hdisplay.1

theorem tracked_putText {cfg : Config} (hcfg : usesDefaultRows cfg) {text : List Byte} {s : State} {ops : List SeqOp}
    (h : putTextOps cfg text s = .ok ops) (hs : s.tracked) (hc : s.cursorOk) : (runOps ops s).tracked := by
  induction text generalizing s ops with
  | nil => cases h; exact hs
  | cons ch rest ih =>
    obtain ⟨first, more, hf, hm, rfl⟩ := putTextOps_cons h
    have hcursor := runOps_cursorOk (inRange_of_forall_ofCommand (putChar_ofCommand hf)) hc
    rw [runOps_append]
    exact ih hm (tracked_putChar hcfg hf hs hc) hcursor

/-! ### Both chips cleared: CLEAR and INIT -/

/-- Cleared chips in step, then the blanking and the position command of (0, 0). -/
theorem tracked_blankHome {cfg : Config} (hcfg : usesDefaultRows cfg) {s : State} (hin : s.chipsInStep)
    (hcleared : ∀ c, (s.lcd c).ddram = clearedDdram) :
    (runOps (blankAllOps ++ (sendPositionOps cfg 0 0 ++ [.cursor 0 0])) s).tracked := by
  have hlcd := lcd_blankAll s
  obtain ⟨hblank, -⟩ := cell_of_blanked (s := s) (t := runOps blankAllOps s)
    (by rw [runOps_blankAll, setBuf_buf]) (runOps_bufSeed _ s)
  rw [runOps_append]
  refine tracked_moveCursor hcfg ⟨chipsInStep_of_lcd_eq hin hlcd, fun l k hk => ?_⟩ 0 0
  have haddr := ctrlAddr_default_toNat l hk
  have hrow := rowStart_cases l
  rw [hblank _ (idx_lt hk), State.shown, hlcd, hcleared, read_clearedDdram, if_pos (by omega)]

theorem tracked_clear {cfg : Config} (hcfg : usesDefaultRows cfg) {s : State} (hin : s.chipsInStep) :
    (runOps (clearOps cfg) s).tracked := by
  rw [clearOps, runOps_append]
  exact tracked_blankHome hcfg (chipsInStep_clearBoth hin) fun c => by rw [lcd_clearBoth hin]

/-- Operations that each leave a chip leave it together. -/
theorem lcd_runOps_of_forall {ops : List SeqOp} {c : Chip} (h : ∀ op ∈ ops, ∀ s, (runOp op s).lcd c = s.lcd c)
    (s : State) : (runOps ops s).lcd c = s.lcd c := by
  induction ops generalizing s with
  | nil => rfl
  | cons op ops ih =>
    rw [List.forall_mem_cons] at h
    rw [runOps_cons, ih h.2, h.1]

theorem busTransfers_displayOn (cfg : Config) (c : Chip) :
    busTransfers (displayOnInstr cfg c) = [.cmd c (if cfg.cursorOn then 0x0E else 0x0C)] := by
  unfold displayOnInstr; split <;> rfl

/-- Initialize of one chip does not reach the other (20_memory.md R73). -/
theorem lcd_initialize_other (cfg : Config) {c c' : Chip} (hc : c' ≠ c) (s : State) :
    (runOps (initializeOps cfg c) s).lcd c' = s.lcd c' := by
  have hnibble : ∀ n s, (emitAll (loneNibbleEvents c n) s).lcd c' = s.lcd c' := fun n s => by
    rw [lcd_loneNibble, if_neg hc]
  have hbyte : ∀ {i b}, busTransfers i = [.cmd c b] → ∀ s, (runOp (.bus i) s).lcd c' = s.lcd c' := fun hi s =>
    lcd_bus_other hi s hc
  refine lcd_runOps_of_forall ?_ s
  simp only [initializeOps, List.forall_mem_cons]
  exact ⟨lcd_rs _ c', hnibble 0x3, lcd_wait _ c', hnibble 0x3, lcd_wait _ c', hnibble 0x3, lcd_wait _ c', hnibble 0x2,
    lcd_wait _ c', hbyte rfl, hbyte (busTransfers_displayOn cfg c), hbyte rfl, hbyte rfl, by simp⟩

/-- A lone nibble and the wait after it. -/
def nibbleWaitOps (i : Instr) (w : TimeParam) : List SeqOp := [.bus i, .event (.wait w)]

/-- The cold start of Initialize. -/
def coldStartOps (c : Chip) : List SeqOp :=
  .event (.rs (rsLevel .command)) :: (nibbleWaitOps (.lcdColdstart8bit c) .tInit1 ++
    (nibbleWaitOps (.lcdColdstart8bit c) .tInit2 ++
      (nibbleWaitOps (.lcdColdstart8bit c) .tInit2 ++ nibbleWaitOps (.lcdColdstart4bit c) .tCmd)))

/-- The four commands of Initialize after its cold start. -/
def initializeCommandOps (cfg : Config) (c : Chip) : List SeqOp :=
  [.bus (.lcdFunctionSet c), .bus (displayOnInstr cfg c), .bus (.lcdEntryMode c), .bus (.lcdClear c)]

theorem initializeOps_eq (cfg : Config) (c : Chip) :
    initializeOps cfg c = coldStartOps c ++ initializeCommandOps cfg c := rfl

/-- With register-select low a lone nibble is one COMMAND sample of its chip. -/
theorem lcd_nibbleWait {c : Chip} {i : Instr} {d : Nibble} (hi : busEvents i = loneNibbleEvents c d) (w : TimeParam)
    {s : State} (hrs : s.pins.rs = false) :
    (runOps (nibbleWaitOps i w) s).pins.rs = false ∧
      ∃ n, (runOps (nibbleWaitOps i w) s).lcd c = (s.lcd c).sample n false d := by
  have hrun : runOps (nibbleWaitOps i w) s = emit (.wait w) (emitAll (loneNibbleEvents c d) s) := by
    rw [← hi]; rfl
  rw [hrun, emit_pins, lcd_wait, lcd_loneNibble, if_pos rfl, hrs, emitAll_loneNibble]
  exact ⟨by cases c <;> exact hrs, s.freeCtr, rfl⟩

/-- The cold start brings the chip between two bytes, whatever it was doing (R139). -/
theorem lcd_coldStart (c : Chip) (s : State) : ((runOps (coldStartOps c) s).lcd c).betweenBytes := by
  have hrs0 : (runOp (.event (.rs (rsLevel .command))) s).pins.rs = false := by simp [runOp, Pins.apply, rsLevel]
  obtain ⟨hrs1, n1, h1⟩ := lcd_nibbleWait (c := c) (i := .lcdColdstart8bit c) rfl .tInit1 hrs0
  obtain ⟨hrs2, n2, h2⟩ := lcd_nibbleWait (c := c) (i := .lcdColdstart8bit c) rfl .tInit2 hrs1
  obtain ⟨hrs3, n3, h3⟩ := lcd_nibbleWait (c := c) (i := .lcdColdstart8bit c) rfl .tInit2 hrs2
  obtain ⟨-, n4, h4⟩ := lcd_nibbleWait (c := c) (i := .lcdColdstart4bit c) rfl .tCmd hrs3
  rw [coldStartOps, runOps_cons, runOps_append, runOps_append, runOps_append, h4, h3, h2, h1]
  exact coldStart_four _ n1 n2 n3 n4

theorem betweenBytes_displayOn {y : LcdChip} (h : y.betweenBytes) (n : Nat) (c : Chip) (on : Bool) :
    (y.receive n (.cmd c (if on then 0x0E else 0x0C))).betweenBytes := by
  cases on <;> exact h

/-- The four commands after the cold start: 4-bit mode is kept, the entry mode sets increment, the clear is the last. -/
theorem lcd_initializeCommands (cfg : Config) {c : Chip} {s : State} (h : (s.lcd c).betweenBytes) :
    let t := runOps (initializeCommandOps cfg c) s
    (t.lcd c).inStep ∧ (t.lcd c).ddram = clearedDdram := by
  simp only [initializeCommandOps, runOps_cons, runOps_nil]
  have h1 : ((runOp (.bus (.lcdFunctionSet c)) s).lcd c).betweenBytes := by
    rw [lcd_command (b := 0x28) rfl h]; exact betweenBytes_functionSet _ _ c
  generalize runOp (.bus (.lcdFunctionSet c)) s = s1 at h1
  have h2 : ((runOp (.bus (displayOnInstr cfg c)) s1).lcd c).betweenBytes := by
    rw [lcd_command (busTransfers_displayOn cfg c) h1]; exact betweenBytes_displayOn h1 _ c _
  generalize runOp (.bus (displayOnInstr cfg c)) s1 = s2 at h2
  have h3 : ((runOp (.bus (.lcdEntryMode c)) s2).lcd c).inStep := by
    rw [lcd_command (b := 0x06) rfl h2, receive_entryMode]; exact ⟨h2.1, h2.2, rfl⟩
  generalize runOp (.bus (.lcdEntryMode c)) s2 = s3 at h3
  obtain ⟨hmode, hphase, -⟩ := h3
  rw [lcd_command (b := 0x01) rfl ⟨hmode, hphase⟩, receive_clear]
  exact ⟨⟨hmode, hphase, rfl⟩, rfl⟩

/-- Initialize from any state of the chip: in step, with a cleared display (R139). -/
theorem lcd_initialize_same (cfg : Config) (c : Chip) (s : State) :
    let t := runOps (initializeOps cfg c) s
    (t.lcd c).inStep ∧ (t.lcd c).ddram = clearedDdram := by
  rw [initializeOps_eq, runOps_append]
  exact lcd_initializeCommands cfg (lcd_coldStart c s)

/-- INIT from any state of the chips: both are initialised, and tracked from then on. -/
theorem tracked_init {cfg : Config} (hcfg : usesDefaultRows cfg) {ops : List SeqOp} (h : initPlan cfg = .run ops)
    (s : State) : (runOps ops s).tracked := by
  rw [initPlan_eq_append_ready] at h
  cases h
  have hsplit : initOpsBeforeReady cfg = .event (.wait .tPoweron) :: (initializeOps cfg .a ++ (initializeOps cfg .b ++
      (blankAllOps ++ (sendPositionOps cfg 0 0 ++ [.cursor 0 0])))) := by
    simp only [initOpsBeforeReady, List.append_assoc, List.cons_append]
  have hready : ∀ {u : State}, u.tracked → (runOps [] (runOp .ready u)).tracked := fun hu => hu
  rw [runOps_append, hsplit, runOps_cons, runOps_cons, runOps_append, runOps_append]
  refine hready (tracked_blankHome hcfg (fun c => ?_) fun c => ?_)
  · cases c
    · rw [lcd_initialize_other cfg (by decide)]; exact (lcd_initialize_same cfg .a _).1
    · exact (lcd_initialize_same cfg .b _).1
  · cases c
    · rw [lcd_initialize_other cfg (by decide)]; exact (lcd_initialize_same cfg .a _).2
    · exact (lcd_initialize_same cfg .b _).2

/-- Settles O18: INIT at the default parameters. -/
theorem initBringsTheChipsIntoStep : Obligations.InitBringsTheChipsIntoStep := by
  intro s
  exact ⟨_, congrArg (perform · s) (initPlan_eq_append_ready Config.default),
    tracked_init usesDefaultRows_default (initPlan_eq_append_ready Config.default) s⟩

/-! ### Every step (20_memory.md R74) -/

/-- A host command keeps that the chips track the block when it is Ready. -/
theorem execWith_tracked {cfg : Config} (hcfg : usesDefaultRows cfg) {i : Instr} (hi : ∃ bytes, encode i = .host bytes)
    {s t : State} (h : execWith cfg i s = .next t) (hc : s.cursorOk) (hs : s.state = .ready → s.tracked)
    (ht : t.state = .ready) : t.tracked := by
  obtain ⟨bytes, hbytes⟩ := hi
  obtain ⟨ops, hp, rfl⟩ | ⟨c, -, rfl⟩ := execWith_next h
  · cases i with
    | init => exact tracked_init hcfg hp s
    | clear =>
      obtain ⟨hready, rfl⟩ := clearPlan_run hp
      exact tracked_clear hcfg ((State.tracked_iff _).mp (hs hready)).1.1
    | setcursor l k =>
      obtain ⟨hready, -, -, rfl⟩ := setcursorPlan_run hp
      exact tracked_moveCursor hcfg ((State.tracked_iff _).mp (hs hready)).1 _ _
    | writechar ch =>
      obtain ⟨hready, hops⟩ := writecharPlan_run hp
      exact tracked_putChar hcfg hops (hs hready) hc
    | writemessage l k text =>
      obtain ⟨hready, hl, hk, more, hm, rfl⟩ := writemessagePlan_run hp
      rw [runOps_append]
      obtain ⟨-, hcursor, -⟩ := moveTo_start cfg hl hk s
      exact tracked_putText hcfg hm (tracked_moveCursor hcfg ((State.tracked_iff _).mp (hs hready)).1 _ _) hcursor
    | reserved op => cases hp
    | _ => cases hbytes
  · have hready : s.state = .ready := (takeFault_state c s).symm.trans ht
    cases c <;> exact hs hready

theorem stepWith_trackingInv {cfg : Config} (hcfg : usesDefaultRows cfg) {s t : State} (hs : s.TrackingInv)
    (h : stepWith cfg s = .next t) : t.TrackingInv := by
  obtain ⟨hinv, htracked⟩ := hs
  refine ⟨stepWith_inv hinv h, fun hready => ?_⟩
  obtain ⟨hasm, -, hcursor, -⟩ := hinv
  obtain ⟨q, a, i, ht⟩ | ⟨i, rest, hseq, hi, hex⟩ | ⟨rest, rfl | rfl⟩ := stepWith_settle_cases hasm h
  · rw [ht] at hready ⊢; exact htracked hready
  · rw [settle_of_idle hseq] at hcursor htracked
    exact execWith_tracked (s := s.withPort [] [] rest) hcfg hi hex hcursor htracked hready
  · cases hready
  · cases hready

/-- Settles O52: the state the command in progress ends in is tracked again after every host command, and a reset leaves
the block not Ready. -/
theorem everyStepKeepsTheDisplayTracking : Obligations.EveryStepKeepsTheDisplayTracking := by
  rw [Obligations.EveryStepKeepsTheDisplayTracking, step_eq_stepWith]
  exact ⟨fun _ _ => stepWith_trackingInv usesDefaultRows_default,
    fun on _ _ => stepWith_trackingInv (usesDefaultRows_cursorOn on)⟩

end Sys2Proof.Machine
